-- ==== Sys2Proof/Word.lean ====
section
/-!
DEFINITION. The widths of the machine: bytes (rule R41 of `20_memory.md`), 32-bit patterns (rule R10), 64-bit
patterns (rule R49) and single bits (rule R24). Only the names of the widths stand here.
-/

namespace Sys2Proof

/-- An 8-bit pattern, read everywhere as the unsigned number 0 to 255 (rule R41). -/
abbrev Byte := BitVec 8

/-- A 32-bit pattern: a register, an Int Field, a command word (rules R10, R42, R64). -/
abbrev Word := BitVec 32

/-- A 64-bit pattern: one double of an extremum array, or the data of a host transaction (rules R49, R70). -/
abbrev DWord := BitVec 64

/-- One element of a bit sequence: exactly 0 or 1 (rule R24). -/
abbrev Bit := BitVec 1

end Sys2Proof
end

