-- ==== Sys2Proof/Config.lean ====
section
/-!
DEFINITION. The parameters of one instance (rule R5 of `00_scope.md`). The spec leaves no result of a command open,
so there is no free value.
-/

namespace Sys2Proof

/-- The build-time parameters of one instance (rule R5): the capacity of BUF in bytes and the number of point slots. -/
structure Params where
  /-- `CAP`, the capacity of BUF and BLOB in bytes. -/
  cap : Nat
  /-- `MAXPTS`, the number of point slots. -/
  maxPts : Nat
  deriving DecidableEq, Repr

/-- The legal ranges of rule R5: CAP is 1 to 2^24 and MAXPTS is 1 to 255. -/
abbrev Params.Legal (p : Params) : Prop :=
  1 ≤ p.cap ∧ p.cap ≤ 16777216 ∧ 1 ≤ p.maxPts ∧ p.maxPts ≤ 255

/-- The reference values of rule R5: 8192 bytes and 3 touch points.
DESIGN CHOICE (log entry 1): `State.reset` is the reset state of the instance with these values. -/
def Params.reference : Params := { cap := 8192, maxPts := 3 }

end Sys2Proof
end

