-- ==== Sys2Proof/Syntax.lean ====
section
/-!
DEFINITION. Syntax: the fourteen commands of `opcode_table.json` (rule R65 of `30_encoding.md`), and the events at
the host port (rules R70 and R150).
-/

namespace Sys2Proof

/-- A command, one constructor per row of the opcode table (rule R65). The slot commands carry the operand field A of
the command word as it stands: "an unsigned 8-bit slot index" (rule R68). -/
inductive Instr where
  /-- No operation (rule R125). -/
  | nop
  /-- Write Int Field (rule R80). -/
  | wint
  /-- Read Int Field (rule R81). -/
  | rint
  /-- Write Byte Blob Field (rule R82). -/
  | wblb
  /-- Read Byte Blob Field (rule R83). -/
  | rblb
  /-- Pack the bit sequence of slot `p` into BLOB (rule R92). -/
  | pack (p : BitVec 8)
  /-- Unpack BLOB into the bit sequence of slot `p` (rule R93). -/
  | unpk (p : BitVec 8)
  /-- Write slot `p` as a Point Record (rule R102). -/
  | wpnt (p : BitVec 8)
  /-- Read a Point Record into slot `p` (rule R103). -/
  | rpnt (p : BitVec 8)
  /-- Write a whole packet (rule R112). -/
  | wpkt
  /-- Read a whole packet (rule R113). -/
  | rpkt
  /-- Check the role tag (rule R114). -/
  | ckrl
  /-- Rescale one sample (rule R120). -/
  | scal
  /-- Clear the failure record (rule R126). -/
  | clre
  deriving DecidableEq, Repr

/-- What can happen at the boundary of the block. The first two are the transactions of rule R70, with their fields in
raw form: a 3-bit space, an 8-bit slot, a 32-bit index and 64 bits of data. The third is the reset of rule R150, "an
event outside the host's transaction stream", ordered before or after every transaction (rule R151). -/
inductive HostEvent where
  /-- `HostWrite(space, slot, index, data)`. -/
  | hostWrite (space : BitVec 3) (slot : BitVec 8) (index : Word) (data : DWord)
  /-- `HostRead(space, slot, index)`. -/
  | hostRead (space : BitVec 3) (slot : BitVec 8) (index : Word)
  /-- The reset input, or power-on. -/
  | reset
  deriving DecidableEq, Repr

/-- The spaces of rule R71. -/
inductive Space where
  | reg
  | buf
  | blob
  | slotReg
  | bits
  | xi
  | xv
  | reserved
  deriving DecidableEq, Repr

/-- The registers of the map of rule R26, in the order of their indices 0x00 to 0x10. -/
inductive Reg where
  | id
  | paramCap
  | paramMaxPts
  | ctrl
  | status
  | eofs
  | eidx
  | cmd
  | ofs
  | lim
  | val
  | blen
  | role
  | npt
  | scinLo
  | scinHi
  | scout
  deriving DecidableEq, Repr

/-- The three count registers of a slot (space SLOTREG, rule R26). -/
inductive CountReg where
  | nbits
  | nxi
  | nxv
  deriving DecidableEq, Repr

end Sys2Proof
end

