-- ==== Sys2Proof/WellFormed.lean ====
section
/-!
DEFINITION. Which commands are legal on an instance: a slot command needs `p < MAXPTS` (rules R65 to R67 of
`30_encoding.md`, and the notes of the opcode table). Every other command is legal on every instance.
-/

namespace Sys2Proof

/-- The slot operand of a command, where it has one. -/
def Instr.slot? : Instr → Option (BitVec 8)
  | .nop => none
  | .wint => none
  | .rint => none
  | .wblb => none
  | .rblb => none
  | .pack p => some p
  | .unpk p => some p
  | .wpnt p => some p
  | .rpnt p => some p
  | .wpkt => none
  | .rpkt => none
  | .ckrl => none
  | .scal => none
  | .clre => none

/-- A command is well formed on an instance when its slot operand, if it has one, names a slot: "`A >= MAXPTS` for a
slot command" makes the word illegal (rule R67). -/
def WellFormed (c : Params) (i : Instr) : Bool :=
  match i.slot? with
  | none => true
  | some p => decide (p.toNat < c.maxPts)

end Sys2Proof
end

