-- ==== Sys2Proof/Decode.lean ====
section
/-!
DEFINITION. Decoding and encoding: command words (rules R64 to R67 of `30_encoding.md`), spaces, register indices and
count register indices (rule R71 and rule R26 of `10_state.md`).
-/

namespace Sys2Proof

/-- Why a 32-bit word is no command word (rule R67). The remaining cause, `A >= MAXPTS`, depends on the instance and
is `WellFormed`'s. -/
inductive DecodeError where
  /-- Bits 31:16 are not zero. -/
  | upperBitsNotZero
  /-- Bits 7:0 are none of the fourteen opcodes. -/
  | reservedOpcode
  /-- Bits 15:8 are not zero for a command without a slot operand. -/
  | operandNotZero
  deriving DecidableEq, Repr

/-- The field `op` of a command word, bits 7:0 (rule R64). -/
def opField (w : Word) : BitVec 8 := w.extractLsb' 0 8

/-- The field `A` of a command word, bits 15:8 (rule R64). -/
def operandField (w : Word) : BitVec 8 := w.extractLsb' 8 8

/-- The field `zero` of a command word, bits 31:16 (rule R64). -/
def zeroField (w : Word) : BitVec 16 := w.extractLsb' 16 16

/-- A command without a slot operand "must be 0" in A (rule R64). -/
def noOperand (a : BitVec 8) (i : Instr) : Except DecodeError Instr :=
  if a = 0 then .ok i else .error .operandNotZero

/-- The opcode map of rule R65. -/
def decodeOp (op a : BitVec 8) : Except DecodeError Instr :=
  match op.toNat with
  | 0x00 => noOperand a .nop
  | 0x01 => noOperand a .wint
  | 0x02 => noOperand a .rint
  | 0x03 => noOperand a .wblb
  | 0x04 => noOperand a .rblb
  | 0x08 => .ok (.pack a)
  | 0x09 => .ok (.unpk a)
  | 0x10 => .ok (.wpnt a)
  | 0x11 => .ok (.rpnt a)
  | 0x18 => noOperand a .wpkt
  | 0x19 => noOperand a .rpkt
  | 0x20 => noOperand a .ckrl
  | 0x21 => noOperand a .scal
  | 0x3F => noOperand a .clre
  | _ => .error .reservedOpcode

/-- Decoding a command word, in the order of rule R66: bits 31:16, then the opcode, then A. -/
def decode (w : Word) : Except DecodeError Instr :=
  if zeroField w ≠ 0 then .error .upperBitsNotZero else decodeOp (opField w) (operandField w)

/-- The instruction the decoder reads from the word `w` of `nbits` bits, numbered as the opcode table numbers them:
bit 0 is the least significant. The command word is one 32-bit word, so a bit at or above bit `nbits` is 0 and no bit
lies above bit 31. -/
def decodeTableWord (nbits w : Nat) : Option Instr :=
  match decode (BitVec.ofNat 32 (w % 2 ^ min nbits 32)) with
  | .ok i => some i
  | .error _ => none

/-- The opcode of a command (rule R65). -/
def opcode : Instr → BitVec 8
  | .nop => 0x00
  | .wint => 0x01
  | .rint => 0x02
  | .wblb => 0x03
  | .rblb => 0x04
  | .pack _ => 0x08
  | .unpk _ => 0x09
  | .wpnt _ => 0x10
  | .rpnt _ => 0x11
  | .wpkt => 0x18
  | .rpkt => 0x19
  | .ckrl => 0x20
  | .scal => 0x21
  | .clre => 0x3F

/-- The command word of a command (rule R64): zero in bits 31:16, the slot operand in bits 15:8 (0 where there is
none), the opcode in bits 7:0. -/
def encode (i : Instr) : Word := 0#16 ++ (i.slot?.getD 0) ++ opcode i

/-- One row of `opcode_table.json`: the bits a word of the row has fixed, and their values. -/
structure TableRow where
  mnemonic : String
  matchBits : Word
  mask : Word
  deriving DecidableEq, Repr

/-- The fourteen rows of `opcode_table.json`, as the table has them. -/
def opcodeTable : List TableRow := [
  { mnemonic := "NOP", matchBits := 0x00000000, mask := 0xFFFFFFFF },
  { mnemonic := "WINT", matchBits := 0x00000001, mask := 0xFFFFFFFF },
  { mnemonic := "RINT", matchBits := 0x00000002, mask := 0xFFFFFFFF },
  { mnemonic := "WBLB", matchBits := 0x00000003, mask := 0xFFFFFFFF },
  { mnemonic := "RBLB", matchBits := 0x00000004, mask := 0xFFFFFFFF },
  { mnemonic := "PACK", matchBits := 0x00000008, mask := 0xFFFF00FF },
  { mnemonic := "UNPK", matchBits := 0x00000009, mask := 0xFFFF00FF },
  { mnemonic := "WPNT", matchBits := 0x00000010, mask := 0xFFFF00FF },
  { mnemonic := "RPNT", matchBits := 0x00000011, mask := 0xFFFF00FF },
  { mnemonic := "WPKT", matchBits := 0x00000018, mask := 0xFFFFFFFF },
  { mnemonic := "RPKT", matchBits := 0x00000019, mask := 0xFFFFFFFF },
  { mnemonic := "CKRL", matchBits := 0x00000020, mask := 0xFFFFFFFF },
  { mnemonic := "SCAL", matchBits := 0x00000021, mask := 0xFFFFFFFF },
  { mnemonic := "CLRE", matchBits := 0x0000003F, mask := 0xFFFFFFFF }]

/-- The row of the table a command belongs to. -/
def Instr.row : Instr → Nat
  | .nop => 0
  | .wint => 1
  | .rint => 2
  | .wblb => 3
  | .rblb => 4
  | .pack _ => 5
  | .unpk _ => 6
  | .wpnt _ => 7
  | .rpnt _ => 8
  | .wpkt => 9
  | .rpkt => 10
  | .ckrl => 11
  | .scal => 12
  | .clre => 13

/-- The space a 3-bit number names (rule R71). -/
def Space.ofBits (b : BitVec 3) : Space :=
  match b.toNat with
  | 0 => .reg
  | 1 => .buf
  | 2 => .blob
  | 3 => .slotReg
  | 4 => .bits
  | 5 => .xi
  | 6 => .xv
  | _ => .reserved

/-- The number of a space (rule R71). -/
def Space.number : Space → BitVec 3
  | .reg => 0
  | .buf => 1
  | .blob => 2
  | .slotReg => 3
  | .bits => 4
  | .xi => 5
  | .xv => 6
  | .reserved => 7

/-- The register at an index of space REG (rule R26), none where the index is reserved (0x11 and above). -/
def Reg.ofIndex (ix : Nat) : Option Reg :=
  match ix with
  | 0x00 => some .id
  | 0x01 => some .paramCap
  | 0x02 => some .paramMaxPts
  | 0x03 => some .ctrl
  | 0x04 => some .status
  | 0x05 => some .eofs
  | 0x06 => some .eidx
  | 0x07 => some .cmd
  | 0x08 => some .ofs
  | 0x09 => some .lim
  | 0x0A => some .val
  | 0x0B => some .blen
  | 0x0C => some .role
  | 0x0D => some .npt
  | 0x0E => some .scinLo
  | 0x0F => some .scinHi
  | 0x10 => some .scout
  | _ => none

/-- The index of a register in space REG (rule R26). -/
def Reg.index : Reg → Nat
  | .id => 0x00
  | .paramCap => 0x01
  | .paramMaxPts => 0x02
  | .ctrl => 0x03
  | .status => 0x04
  | .eofs => 0x05
  | .eidx => 0x06
  | .cmd => 0x07
  | .ofs => 0x08
  | .lim => 0x09
  | .val => 0x0A
  | .blen => 0x0B
  | .role => 0x0C
  | .npt => 0x0D
  | .scinLo => 0x0E
  | .scinHi => 0x0F
  | .scout => 0x10

/-- The count register at an index of space SLOTREG (rule R26), none where the index is reserved. -/
def CountReg.ofIndex (ix : Nat) : Option CountReg :=
  match ix with
  | 0 => some .nbits
  | 1 => some .nxi
  | 2 => some .nxv
  | _ => none

/-- The index of a count register in space SLOTREG (rule R26). -/
def CountReg.index : CountReg → Nat
  | .nbits => 0
  | .nxi => 1
  | .nxv => 2

end Sys2Proof
end

