-- ==== Sys2Proof/Machine/State.lean ====
section
/-!
DEFINITION. State: the tuple of rule R10 of `10_state.md`, as plain data, with the parameters of the instance
(rule R5), the transactions the host has lined up at the port (rules R53, R70), and the reset values of rule R30.
-/

namespace Sys2Proof.Machine

/-- One memory of the block: pairs of an element index and an element of `w` bits. The form is canonical (see
`Memory.wf`): indices strictly rising, and no entry equal to 0, which is what every unlisted element reads as. For BUF
that is the document's "zero-initialized byte array", and for the others the reset value of rule R30.
A `Memory 8` is a list of `Host.Cell`. DESIGN CHOICE (log entry 4): the form; the zeros are the spec's. -/
abbrev Memory (w : Nat) := List (Nat × BitVec w)

/-- The five failures a command can end in (rules R130, R131 of `60_exceptions.md`). -/
inductive Failure where
  /-- A field to be written, or read by a field command, does not fit below LIM. -/
  | outOfBounds
  /-- Declared lengths inconsistent with the bytes there are, or a bit length out of range. -/
  | malformedPacket
  /-- The role tag is neither 0 nor 1. -/
  | unknownRole
  /-- The command word is illegal, or a slot to be encoded has unequal extremum counts. -/
  | illegalCommand
  /-- The sample to be rescaled is no number, or its result is no 16-bit sample. -/
  | rangeError
  deriving DecidableEq, Repr

/-- One point slot (rule R23): three memories with their count registers. -/
structure Slot where
  /-- `NBITS[p]`, the true bit length of the slot. -/
  nbits : Word
  /-- `BITS[p]`, MAXBITS elements of one bit. -/
  bits : Memory 1
  /-- `NXI[p]`. -/
  nxi : Word
  /-- `XI[p]`, MAXEXT elements of 64 bits. -/
  xi : Memory 64
  /-- `NXV[p]`. -/
  nxv : Word
  /-- `XV[p]`, MAXEXT elements of 64 bits. -/
  xv : Memory 64
  deriving DecidableEq, Repr

/-- A slot after reset (rule R30): "every count 0, every memory element 0" (rule R23). -/
def Slot.empty : Slot := { nbits := 0, bits := [], nxi := 0, xi := [], nxv := 0, xv := [] }

/-- The state of one VTFC instance. Everything from `buf` to `slots` is the tuple of rule R10. The parameters are
constants of the instance (rule R28, log entry 1). `port` and `reply` are the two sides of the host port.
DESIGN CHOICE (log entry 2): those two fields are the model's own. -/
structure State where
  /-- CAP and MAXPTS, which the read-only registers PARAM_CAP and PARAM_MAXPTS return (rule R14). -/
  params : Params
  /-- `BUF`, CAP bytes (rule R11). -/
  buf : Memory 8
  /-- `OFS`, the cursor (rule R12). -/
  ofs : Word
  /-- `LIM`, the bound of every bounds check, 0 to CAP (rule R13). -/
  lim : Word
  /-- `VAL` (rule R18). -/
  val : Word
  /-- `BLOB`, CAP bytes (rule R19). -/
  blob : Memory 8
  /-- `BLEN`, 0 to CAP (rule R19). -/
  blen : Word
  /-- `ROLE`, the raw role tag (rule R20). -/
  role : Word
  /-- `NPT`, the agreed number of points, 0 to MAXPTS (rule R21). -/
  npt : Word
  /-- `CTRL.STRICT` (rule R15). -/
  strict : Bool
  /-- `STATUS.ECODE` (rule R16). -/
  ecode : BitVec 4
  /-- `EOFS` (rule R16). -/
  eofs : Word
  /-- `EIDX` (rule R16). -/
  eidx : Word
  /-- `SCIN_LO`, bits 31:0 of SCIN (rule R22). -/
  scinLo : Word
  /-- `SCIN_HI`, bits 63:32 of SCIN (rule R22). -/
  scinHi : Word
  /-- `SCOUT` (rule R22). -/
  scout : Word
  /-- The point slots 0 to MAXPTS-1, in order (rule R23). -/
  slots : List Slot
  /-- The events the host has issued and the block has not yet taken, oldest first (rules R53, R70). -/
  port : List HostEvent
  /-- What the last completed event returned: the data of a HostRead, none for a HostWrite or a reset (rule R70). -/
  reply : Option DWord
  deriving DecidableEq, Repr

/-- There is no fault: no event at the port and no command word stops the block. "A command ends in exactly one of two
ways: it succeeds ... or it fails" (rule R130), and a failure is recorded in the state (rule R133); "An illegal
HostWrite changes nothing. An illegal HostRead returns 0" (rule R72). DEDUCED (log entry 10). -/
inductive Fault where
  deriving DecidableEq, Repr

/-- The one refusal. -/
inductive Refusal where
  /-- Raised by an arm of `exec` that has no meaning yet. Safe: nothing can be proved of the instruction's effect. No
  arm raises it now. -/
  | notModelled (mnemonic : String)
  deriving DecidableEq, Repr

/-- The reset state of an instance (rules R30, R150): "BUF all zero ..., `LIM = CAP`, everything else zero, no failure
recorded". No transaction is pending and none has completed. -/
def State.resetOf (c : Params) : State where
  params := c
  buf := []
  ofs := 0
  lim := BitVec.ofNat 32 c.cap
  val := 0
  blob := []
  blen := 0
  role := 0
  npt := 0
  strict := false
  ecode := 0
  eofs := 0
  eidx := 0
  scinLo := 0
  scinHi := 0
  scout := 0
  slots := List.replicate c.maxPts Slot.empty
  port := []
  reply := none

/-- The machine right after reset: the instance with the reference parameters of rule R5 (log entry 1). -/
def State.reset : State := State.resetOf Params.reference

end Sys2Proof.Machine
end

