-- ==== Sys2Proof/Machine/Flags.lean ====
section
/-!
DEFINITION. Flags: the failure record is the only set of status flags the block has (rules R16, R131 of
`60_exceptions.md`). Its codes, the words software reads it and the control bit as, and the gate it closes.
-/

namespace Sys2Proof.Machine

/-- The value of `STATUS.ECODE` for a failure (rule R131). -/
def Failure.code : Failure → BitVec 4
  | .outOfBounds => 1
  | .malformedPacket => 2
  | .unknownRole => 3
  | .illegalCommand => 4
  | .rangeError => 5

/-- Register STATUS: ECODE in bits 3:0, bits 31:4 read as 0 (rule R16). -/
def State.statusWord (s : State) : Word := s.ecode.setWidth 32

/-- Register CTRL: STRICT in bit 0, bits 31:1 read as 0 (rule R15). -/
def State.ctrlWord (s : State) : Word := (BitVec.ofBool s.strict).setWidth 32

/-- The gate of rule R135: a failure is recorded, so every command word but CLRE's is ignored. -/
def State.gated (s : State) : Bool := s.ecode != 0

end Sys2Proof.Machine
end

