-- ==== Sys2Proof/Machine/Ops.lean ====
section
/-!
DEFINITION. The named operations: memories (rules R40, R52 of `20_memory.md`), byte order (R42, R49), the bounds check
(R43), integers (R58), the updates of registers and slots, and recording and clearing a failure (R133 and R136 of
`60_exceptions.md`, R126 of `45_control.md`).
-/

namespace Sys2Proof.Machine

/-! ### Sizes -/

/-- `MAXBITS = 8 * CAP`, the capacity of a slot's bit memory (rule R6). -/
def maxBits (c : Params) : Nat := 8 * c.cap

/-- `MAXEXT = CAP div 8`, the capacity of a slot's extremum memories (rule R6). -/
def maxExt (c : Params) : Nat := c.cap / 8

/-- What register ID reads as: the ASCII codes of "VTFC" (rule R14). -/
def idValue : Word := 0x56544643

/-! ### Memories -/

/-- Reading one element: an element that is not listed is 0. -/
def Memory.read {w : Nat} : Memory w → Nat → BitVec w
  | [], _ => 0#w
  | c :: m, i => if c.1 = i then c.2 else Memory.read m i

/-- Writing one element. Writing 0, which is what an unlisted element reads as, removes the entry. -/
def Memory.write {w : Nat} : Memory w → Nat → BitVec w → Memory w
  | [], i, v => if v = 0#w then [] else [(i, v)]
  | c :: m, i, v =>
    if i < c.1 then (if v = 0#w then c :: m else (i, v) :: c :: m)
    else if i = c.1 then (if v = 0#w then m else (i, v) :: m)
    else c :: Memory.write m i v

/-- The `n` elements from index `i` on, as a sequence: MemRead of `00_scope.md` section 6.2. -/
def Memory.readSeq {w : Nat} (m : Memory w) (i : Nat) : Nat → List (BitVec w)
  | 0 => []
  | n + 1 => Memory.read m i :: Memory.readSeq m (i + 1) n

/-- Writing a sequence from index `i` on, in increasing index: MemWrite of `00_scope.md` section 6.2. -/
def Memory.writeSeq {w : Nat} (m : Memory w) (i : Nat) : List (BitVec w) → Memory w
  | [] => m
  | v :: vs => Memory.writeSeq (Memory.write m i v) (i + 1) vs

/-- The canonical form: indices strictly rising, no entry equal to 0. Equal memories are then equal lists. -/
abbrev Memory.wf {w : Nat} (m : Memory w) : Prop :=
  m.Pairwise (fun c d => c.1 < d.1) ∧ ∀ c ∈ m, c.2 ≠ 0#w

/-- Every listed element lies below `n`: the memory has `n` elements (rule R40). -/
abbrev Memory.below {w : Nat} (n : Nat) (m : Memory w) : Prop := ∀ c ∈ m, c.1 < n

/-! ### Byte order and integers -/

/-- The 4-byte little-endian sequence of a 32-bit pattern (rule R42). -/
def le32 (v : Word) : List Byte :=
  [v.extractLsb' 0 8, v.extractLsb' 8 8, v.extractLsb' 16 8, v.extractLsb' 24 8]

/-- The 8-byte little-endian sequence of a 64-bit pattern (rule R49). -/
def le64 (v : DWord) : List Byte :=
  [v.extractLsb' 0 8, v.extractLsb' 8 8, v.extractLsb' 16 8, v.extractLsb' 24 8,
   v.extractLsb' 32 8, v.extractLsb' 40 8, v.extractLsb' 48 8, v.extractLsb' 56 8]

/-- The number a little-endian byte sequence stands for: `b0 + 256*b1 + 65536*b2 + ...` (rule R42). -/
def leNat : List Byte → Nat
  | [] => 0
  | b :: bs => b.toNat + 256 * leNat bs

/-- The inverse of `le32` (rule R42). -/
def unle32 (s : List Byte) : Word := BitVec.ofNat 32 (leNat s)

/-- The inverse of `le64` (rule R49). -/
def unle64 (s : List Byte) : DWord := BitVec.ofNat 64 (leNat s)

/-- `sext_32`: a 32-bit pattern read as a two's-complement signed integer (rules R42, R58). -/
def sext32 (v : Word) : Int := v.toInt

/-- `trunc_32` of a natural number (rule R58). -/
def trunc32 (n : Nat) : Word := BitVec.ofNat 32 n

/-- The bounds check of rule R43: an access of `n` bytes at offset `o` is in bounds exactly when `o + n <= LIM`, in
unbounded integers. -/
abbrev InBounds (lim o n : Nat) : Prop := o + n ≤ lim

/-! ### Results of the datapath functions -/

/-- A datapath function returns `ok(...)` or `fail(...)` (`00_scope.md` section 6.2). -/
inductive Result (ε α : Type) where
  | ok (a : α)
  | fail (e : ε)
  deriving DecidableEq, Repr

/-- What a failing field or record function returns: the failure, and the offset at which the offending field
starts (rules R44 to R47). -/
structure FieldFail where
  failure : Failure
  eofs : Nat
  deriving DecidableEq, Repr

/-- The arguments of `raise` (rule R133): the failure, what EOFS records and what EIDX records. -/
structure Report where
  failure : Failure
  eofs : Nat
  eidx : Nat
  deriving DecidableEq, Repr

/-- A failure of a field or record function, reported by a command that works on slot `p` (0 for a field command). -/
def FieldFail.at (p : Nat) (e : FieldFail) : Report := { failure := e.failure, eofs := e.eofs, eidx := p }

/-- Go on with the value of a successful result. -/
def Result.bind {ε α β : Type} (r : Result ε α) (f : α → Result ε β) : Result ε β :=
  match r with
  | .ok a => f a
  | .fail e => .fail e

/-- Change what a failing result says. -/
def Result.mapFail {ε ε' α : Type} (f : ε → ε') (r : Result ε α) : Result ε' α :=
  match r with
  | .ok a => .ok a
  | .fail e => .fail (f e)

/-! ### Updates of the state -/

/-- Replace BUF. -/
def State.withBuf (s : State) (b : Memory 8) : State := { s with buf := b }

/-- Store an offset in OFS. -/
def State.withOfs (s : State) (o : Nat) : State := { s with ofs := trunc32 o }

/-- Store an Int Field in VAL. -/
def State.withVal (s : State) (v : Word) : State := { s with val := v }

/-- Write a byte sequence to BLOB from index 0 and its length to BLEN: "a command that writes `k` bytes to BLOB leaves
`BLOB[k]` to `BLOB[CAP-1]` unchanged" (rule R19). -/
def State.withBlobSeq (s : State) (b : List Byte) : State :=
  { s with blob := s.blob.writeSeq 0 b, blen := trunc32 b.length }

/-- Store a role tag in ROLE. -/
def State.withRole (s : State) (v : Word) : State := { s with role := v }

/-- Store a rescaled sample in SCOUT. -/
def State.withScout (s : State) (v : Word) : State := { s with scout := v }

/-- Replace the slots. -/
def State.withSlots (s : State) (l : List Slot) : State := { s with slots := l }

/-- Replace slot `p`. -/
def State.setSlot (s : State) (p : Nat) (x : Slot) : State := { s with slots := s.slots.set p x }

/-- Write a bit sequence to a slot and its length to NBITS; the elements from there on are unchanged (rule R24). -/
def Slot.withBitSeq (x : Slot) (b : List Bit) : Slot :=
  { x with bits := x.bits.writeSeq 0 b, nbits := trunc32 b.length }

/-! ### Taking a failure, and returning from one -/

/-- `raise F(eofs, eidx)`, failure entry (rule R133): the three parts of the record are written together and nothing
else is saved or changed. There is no handler, no vector and no change of mode. -/
def State.raise (s : State) (f : Failure) (eofs eidx : Nat) : State :=
  { s with ecode := f.code, eofs := trunc32 eofs, eidx := trunc32 eidx }

/-- `raise` with its arguments in one record. -/
def State.raiseReport (s : State) (r : Report) : State := s.raise r.failure r.eofs r.eidx

/-- Return from a failure (rules R126, R136): the record is cleared and nothing is restored. -/
def State.clearFailure (s : State) : State := { s with ecode := 0, eofs := 0, eidx := 0 }

end Sys2Proof.Machine
end

