-- ==== Sys2Proof/Machine/Operands.lean ====
section
/-!
DEFINITION. Operands: where a command finds what it works on. The only operand in the command word is the slot index
(rule R68 of `30_encoding.md`); every other operand is in a register or a staging memory (rules R18 to R24 of
`10_state.md`).
-/

namespace Sys2Proof.Machine

/-- Slot `p` of a list of slots. A command only asks for slots that exist (rule R66).
DESIGN CHOICE (log entry 9): a slot that does not exist, which no state of an instance is asked for, is empty. -/
def slotAt (slots : List Slot) (p : Nat) : Slot := slots.getD p Slot.empty

/-- Slot `p` of the state (rule R23). -/
def State.slot (s : State) (p : Nat) : Slot := slotAt s.slots p

/-- The slot operand (rules R66, R68): `A` as it stands. With `A >= MAXPTS` the word is illegal and
IllegalCommand(0, 0) is raised. DEDUCED (log entry 5): the test stands here and not in the decoder. -/
def State.withSlotOperand (s : State) (a : BitVec 8) (k : Nat → State) : State :=
  if a.toNat < s.params.maxPts then k a.toNat else s.raise .illegalCommand 0 0

/-- The blob operand of WBLB and UNPK, `BLOB[0:BLEN]` (rule R19). -/
def State.blobSeq (s : State) : List Byte := s.blob.readSeq 0 s.blen.toNat

/-- The bit sequence of a slot, `BITS[p][0:NBITS[p]]` (rule R23). -/
def Slot.bitSeq (x : Slot) : List Bit := x.bits.readSeq 0 x.nbits.toNat

/-- The extremum index array of a slot, `XI[p][0:NXI[p]]` (rule R23). -/
def Slot.xiSeq (x : Slot) : List DWord := x.xi.readSeq 0 x.nxi.toNat

/-- The extremum value array of a slot, `XV[p][0:NXV[p]]` (rule R23). -/
def Slot.xvSeq (x : Slot) : List DWord := x.xv.readSeq 0 x.nxv.toNat

/-- `SCIN`: SCIN_HI is bits 63:32, SCIN_LO bits 31:0 (rule R22). -/
def State.scin (s : State) : DWord := s.scinHi ++ s.scinLo

/-- The two defined role tags (rule R59): SERVER is 0, CLIENT is 1. -/
inductive RoleTag where
  | server
  | client
  deriving DecidableEq, Repr

/-- The role a raw role tag stands for, none outside the domain (rule R59). -/
def RoleTag.ofWord (v : Word) : Option RoleTag :=
  if sext32 v = 0 then some .server else if sext32 v = 1 then some .client else none

end Sys2Proof.Machine
end

