-- ==== Sys2Proof/Machine/Control.lean ====
section
/-!
DEFINITION. The control commands NOP and CLRE (rules R125, R126 of `45_control.md`).
-/

namespace Sys2Proof.Machine

/-- NOP (rule R125): nothing. -/
def execNop (s : State) : Host.Outcome State Fault Refusal := .next s

/-- CLRE (rule R126): clears the failure record and nothing else. -/
def execClre (s : State) : Host.Outcome State Fault Refusal := .next s.clearFailure

end Sys2Proof.Machine
end

