-- ==== Sys2Proof/Machine/Bits.lean ====
section
/-!
DEFINITION. The Bit Packer: the functions Pack and Unpack (rules R90, R91 of `41_bit_packer.md`) and the commands PACK
and UNPK (rules R92, R93).
-/

namespace Sys2Proof.Machine

/-- `b(m)` of rule R90, as a number: element `m` of the sequence, 0 beyond its end. -/
def bitNat (bits : List Bit) (m : Nat) : Nat := (bits.getD m 0#1).toNat

/-- Byte `j` of a packed sequence (rule R90): element `8*j + i` weighs `2^(7-i)`. -/
def packByte (bits : List Bit) (j : Nat) : Byte :=
  BitVec.ofNat 8 (bitNat bits (8 * j) * 128 + bitNat bits (8 * j + 1) * 64 + bitNat bits (8 * j + 2) * 32 +
    bitNat bits (8 * j + 3) * 16 + bitNat bits (8 * j + 4) * 8 + bitNat bits (8 * j + 5) * 4 +
    bitNat bits (8 * j + 6) * 2 + bitNat bits (8 * j + 7))

/-- `ceil(n / 8)` (rule R58). -/
def ceilDiv8 (n : Nat) : Nat := (n + 7) / 8

/-- `Pack(bits)` (rule R90). -/
def packBits (bits : List Bit) : List Byte := (List.range (ceilDiv8 bits.length)).map (packByte bits)

/-- Bit `7 - (i mod 8)` of byte `i div 8` (rule R91). -/
def unpackBit (bytes : List Byte) (i : Nat) : Bit := (bytes.getD (i / 8) 0#8).extractLsb' (7 - i % 8) 1

/-- `Unpack(bytes, t)` (rule R91): exactly `t` elements, and MalformedPacket for a `t` that is negative or greater than
`8 * len(bytes)`. -/
def unpackBits (bytes : List Byte) (t : Int) : Result Failure (List Bit) :=
  if t < 0 then .fail .malformedPacket
  else if (8 * bytes.length : Nat) < t then .fail .malformedPacket
  else .ok ((List.range t.toNat).map (unpackBit bytes))

/-- PACK p (rule R92). -/
def execPack (a : BitVec 8) (s : State) : Host.Outcome State Fault Refusal :=
  .next (s.withSlotOperand a fun p => s.withBlobSeq (packBits (s.slot p).bitSeq))

/-- UNPK p (rule R93). -/
def execUnpk (a : BitVec 8) (s : State) : Host.Outcome State Fault Refusal :=
  .next (s.withSlotOperand a fun p =>
    match unpackBits s.blobSeq (sext32 s.val) with
    | .ok bits => s.setSlot p ((s.slot p).withBitSeq bits)
    | .fail f => s.raise f 0 p)

end Sys2Proof.Machine
end

