-- ==== Sys2Proof/Machine/Field.lean ====
section
/-!
DEFINITION. The Field Codec: the four field functions (rules R44 to R47 of `20_memory.md`) and the commands WINT,
RINT, WBLB and RBLB (rules R80 to R83 of `40_field_codec.md`).
-/

namespace Sys2Proof.Machine

/-- `FieldWriteInt(o, v)` (rule R44). A failing check writes nothing. -/
def fieldWriteInt (lim : Nat) (buf : Memory 8) (o : Nat) (v : Word) : Memory 8 × Result FieldFail Nat :=
  if InBounds lim o 4 then (buf.writeSeq o (le32 v), .ok (o + 4)) else (buf, .fail ⟨.outOfBounds, o⟩)

/-- `FieldReadInt(o)` (rule R45). -/
def fieldReadInt (lim : Nat) (buf : Memory 8) (o : Nat) : Result FieldFail (Nat × Word) :=
  if InBounds lim o 4 then .ok (o + 4, unle32 (buf.readSeq o 4)) else .fail ⟨.outOfBounds, o⟩

/-- `FieldWriteBytes(o, s)` (rule R46): the length field is written first, then the payload is checked as a whole. -/
def fieldWriteBytes (lim : Nat) (buf : Memory 8) (o : Nat) (b : List Byte) : Memory 8 × Result FieldFail Nat :=
  match fieldWriteInt lim buf o (trunc32 b.length) with
  | (buf', .fail _) => (buf', .fail ⟨.outOfBounds, o⟩)
  | (buf', .ok o1) =>
    if InBounds lim o1 b.length then (buf'.writeSeq o1 b, .ok (o1 + b.length)) else (buf', .fail ⟨.outOfBounds, o⟩)

/-- `FieldReadBytes(o)` (rule R47): the length field's bounds, then the sign of the length, then the payload's
bounds. -/
def fieldReadBytes (lim : Nat) (buf : Memory 8) (o : Nat) : Result FieldFail (Nat × List Byte) :=
  match fieldReadInt lim buf o with
  | .fail _ => .fail ⟨.outOfBounds, o⟩
  | .ok (o1, v) =>
    if sext32 v < 0 then .fail ⟨.malformedPacket, o⟩
    else if InBounds lim o1 (sext32 v).toNat then
      .ok (o1 + (sext32 v).toNat, buf.readSeq o1 (sext32 v).toNat)
    else .fail ⟨.outOfBounds, o⟩

/-- How a command that writes BUF ends (rules R12, R137): what was written stays; on success the next offset goes to
OFS, on failure OFS is as it was and the failure is raised. -/
def State.finishWrite (s : State) (w : Memory 8 × Result Report Nat) : State :=
  match w.2 with
  | .ok o => (s.withBuf w.1).withOfs o
  | .fail r => (s.withBuf w.1).raiseReport r

/-- WINT (rule R80). -/
def execWint (s : State) : Host.Outcome State Fault Refusal :=
  let w := fieldWriteInt s.lim.toNat s.buf s.ofs.toNat s.val
  .next (s.finishWrite (w.1, w.2.mapFail (FieldFail.at 0)))

/-- RINT (rule R81). -/
def execRint (s : State) : Host.Outcome State Fault Refusal :=
  match fieldReadInt s.lim.toNat s.buf s.ofs.toNat with
  | .ok (o, v) => .next ((s.withVal v).withOfs o)
  | .fail e => .next (s.raiseReport (e.at 0))

/-- WBLB (rule R82). -/
def execWblb (s : State) : Host.Outcome State Fault Refusal :=
  let w := fieldWriteBytes s.lim.toNat s.buf s.ofs.toNat s.blobSeq
  .next (s.finishWrite (w.1, w.2.mapFail (FieldFail.at 0)))

/-- RBLB (rule R83). -/
def execRblb (s : State) : Host.Outcome State Fault Refusal :=
  match fieldReadBytes s.lim.toNat s.buf s.ofs.toNat with
  | .ok (o, b) => .next ((s.withBlobSeq b).withOfs o)
  | .fail e => .next (s.raiseReport (e.at 0))

end Sys2Proof.Machine
end

