-- ==== Sys2Proof/Machine/Point.lean ====
section
/-!
DEFINITION. The Point Record Codec: the functions WritePoint, ReadPoint and CommitPoint (rules R100, R101, R104 of
`42_point_record.md`) and the commands WPNT and RPNT (rules R102, R103).
-/

namespace Sys2Proof.Machine

/-- Go on with the next field at the offset the last one ended at. A failure ends the sequence; what was written
before it stays (rule R51). -/
def thenWrite (w : Memory 8 × Result FieldFail Nat) (next : Memory 8 → Nat → Memory 8 × Result FieldFail Nat) :
    Memory 8 × Result FieldFail Nat :=
  match w with
  | (buf, .ok o) => next buf o
  | (buf, .fail e) => (buf, .fail e)

/-- The packed bits of a slot: `s1` of rule R100. -/
def Slot.packedBytes (x : Slot) : List Byte := packBits x.bitSeq

/-- An extremum array as bytes (rules R49, R60): the concatenation of its elements' 8-byte little-endian forms. -/
def doublesBytes (v : List DWord) : List Byte := v.flatMap le64

/-- `WritePoint(o, p)` for the slot `x` (rule R100): three blobs and the true bit length, in this order. -/
def writePoint (lim : Nat) (buf : Memory 8) (o : Nat) (x : Slot) : Memory 8 × Result FieldFail Nat :=
  thenWrite (fieldWriteBytes lim buf o x.packedBytes) fun b1 o1 =>
    thenWrite (fieldWriteBytes lim b1 o1 (doublesBytes x.xiSeq)) fun b2 o2 =>
      thenWrite (fieldWriteBytes lim b2 o2 (doublesBytes x.xvSeq)) fun b3 o3 =>
        fieldWriteInt lim b3 o3 x.nbits

/-- What ReadPoint returns (rule R101): the offset after the record, the bit sequence and its length, the two extremum
arrays and their length. -/
structure PointRecord where
  next : Nat
  bits : List Bit
  t : Nat
  xi : List DWord
  xv : List DWord
  ni : Nat
  deriving DecidableEq, Repr

/-- Every failure of a composite decode is MalformedPacket at the offset of the field (rule R101, decision D15). -/
def malformedAt {α : Type} (o : Nat) (r : Result FieldFail α) : Result FieldFail α :=
  r.mapFail fun _ => ⟨.malformedPacket, o⟩

/-- Element `i` of an extremum array in its byte form: `unle64(s[8*i : 8*i+8])` (rule R101). -/
def doubleAt (b : List Byte) (i : Nat) : DWord := unle64 ((b.drop (8 * i)).take 8)

/-- The `n` doubles of a byte sequence (rule R101). -/
def doublesOf (b : List Byte) (n : Nat) : List DWord := (List.range n).map (doubleAt b)

/-- `ReadPoint(o)` (rule R101): the fields in the order they were written, each with its tests; nothing is
committed. -/
def readPoint (lim : Nat) (buf : Memory 8) (o : Nat) : Result FieldFail PointRecord :=
  (malformedAt o (fieldReadBytes lim buf o)).bind fun (o1, s1) =>
  (malformedAt o1 (fieldReadBytes lim buf o1)).bind fun (o2, s2) =>
  if s2.length % 8 ≠ 0 then .fail ⟨.malformedPacket, o1⟩
  else (malformedAt o2 (fieldReadBytes lim buf o2)).bind fun (o3, s3) =>
  if s3.length % 8 ≠ 0 then .fail ⟨.malformedPacket, o2⟩
  else if s3.length ≠ s2.length then .fail ⟨.malformedPacket, o2⟩
  else (malformedAt o3 (fieldReadInt lim buf o3)).bind fun (o4, v) =>
  ((unpackBits s1 (sext32 v)).mapFail fun f => (⟨f, o3⟩ : FieldFail)).bind fun bits =>
  .ok { next := o4, bits := bits, t := (sext32 v).toNat, xi := doublesOf s2 (s2.length / 8),
        xv := doublesOf s3 (s2.length / 8), ni := s2.length / 8 }

/-- `CommitPoint` (rule R104) on the slot `x`: the elements at and above the new counts are unchanged. -/
def Slot.commit (x : Slot) (r : PointRecord) : Slot where
  nbits := trunc32 r.t
  bits := x.bits.writeSeq 0 r.bits
  nxi := trunc32 r.ni
  xi := x.xi.writeSeq 0 r.xi
  nxv := trunc32 r.ni
  xv := x.xv.writeSeq 0 r.xv

/-- WPNT p (rule R102): a slot with unequal extremum counts is refused before any write to BUF. -/
def execWpnt (a : BitVec 8) (s : State) : Host.Outcome State Fault Refusal :=
  .next (s.withSlotOperand a fun p =>
    if (s.slot p).nxi ≠ (s.slot p).nxv then s.raise .illegalCommand 0 p
    else
      let w := writePoint s.lim.toNat s.buf s.ofs.toNat (s.slot p)
      s.finishWrite (w.1, w.2.mapFail (FieldFail.at p)))

/-- RPNT p (rule R103): the slot is written only after the whole record has been accepted. -/
def execRpnt (a : BitVec 8) (s : State) : Host.Outcome State Fault Refusal :=
  .next (s.withSlotOperand a fun p =>
    match readPoint s.lim.toNat s.buf s.ofs.toNat with
    | .ok r => (s.setSlot p ((s.slot p).commit r)).withOfs r.next
    | .fail e => s.raiseReport (e.at p))

end Sys2Proof.Machine
end

