-- ==== Sys2Proof/Machine/Packet.lean ====
section
/-!
DEFINITION. The Packet Assembler: the functions EncodePacket and DecodePacket (rules R110, R111 of
`43_packet_framer.md`) and the commands WPKT, RPKT and CKRL (rules R112 to R114).
-/

namespace Sys2Proof.Machine

/-- The loop of EncodePacket (rule R110): `n` slots from slot `p` on, written from offset `o` on, in increasing index.
The first failure ends it. -/
def encodePoints (lim : Nat) (slots : List Slot) : Nat → Nat → Nat → Memory 8 → Memory 8 × Result Report Nat
  | 0, _, o, buf => (buf, .ok o)
  | n + 1, p, o, buf =>
    match writePoint lim buf o (slotAt slots p) with
    | (buf', .ok o') => encodePoints lim slots n (p + 1) o' buf'
    | (buf', .fail e) => (buf', .fail (e.at p))

/-- `EncodePacket()` (rule R110): the role tag at offset 0, then the records. -/
def encodePacket (lim : Nat) (role : Word) (slots : List Slot) (npt : Nat) (buf : Memory 8) :
    Memory 8 × Result Report Nat :=
  match fieldWriteInt lim buf 0 role with
  | (buf', .fail e) => (buf', .fail (e.at 0))
  | (buf', .ok o) => encodePoints lim slots npt 0 o buf'

/-- The lowest of the `n` slots from slot `p` on whose extremum counts differ (rule R112). -/
def firstUnequal (slots : List Slot) : Nat → Nat → Option Nat
  | 0, _ => none
  | n + 1, p => if (slotAt slots p).nxi ≠ (slotAt slots p).nxv then some p else firstUnequal slots n (p + 1)

/-- WPKT (rule R112): every slot is tested before anything is written. -/
def execWpkt (s : State) : Host.Outcome State Fault Refusal :=
  match firstUnequal s.slots s.npt.toNat 0 with
  | some p => .next (s.raise .illegalCommand 0 p)
  | none => .next (s.finishWrite (encodePacket s.lim.toNat s.role s.slots s.npt.toNat s.buf))

/-- The loop of DecodePacket (rule R111): `n` records from offset `o` on, each committed to its slot as soon as it has
been accepted. The first failure ends it; the slots committed before it keep what they got. -/
def decodePoints (lim : Nat) (buf : Memory 8) : Nat → Nat → Nat → List Slot → List Slot × Result Report Nat
  | 0, _, o, slots => (slots, .ok o)
  | n + 1, p, o, slots =>
    match readPoint lim buf o with
    | .ok r => decodePoints lim buf n (p + 1) r.next (slots.set p ((slotAt slots p).commit r))
    | .fail e => (slots, .fail (e.at p))

/-- What DecodePacket leaves (rule R111): the role tag, the slots, and its result. -/
structure PacketDecode where
  role : Word
  slots : List Slot
  result : Result Report Nat
  deriving DecidableEq, Repr

/-- The STRICT test, made last (rule R111): unconsumed bytes are MalformedPacket at the first of them. -/
def strictTest (strict : Bool) (lim : Nat) (r : Result Report Nat) : Result Report Nat :=
  r.bind fun o => if strict ∧ o ≠ lim then .fail ⟨.malformedPacket, o, 0⟩ else .ok o

/-- `DecodePacket()` (rule R111) from the role tag and slots held before: a role tag that does not fit below LIM is
MalformedPacket and leaves them, and otherwise the role tag is committed at once. -/
def decodePacket (lim : Nat) (buf : Memory 8) (npt : Nat) (strict : Bool) (role : Word) (slots : List Slot) :
    PacketDecode :=
  match fieldReadInt lim buf 0 with
  | .fail _ => ⟨role, slots, .fail ⟨.malformedPacket, 0, 0⟩⟩
  | .ok (o, v) =>
    let d := decodePoints lim buf npt 0 o slots
    ⟨v, d.1, strictTest strict lim d.2⟩

/-- RPKT (rule R113). -/
def execRpkt (s : State) : Host.Outcome State Fault Refusal :=
  let d := decodePacket s.lim.toNat s.buf s.npt.toNat s.strict s.role s.slots
  match d.result with
  | .ok o => .next (((s.withRole d.role).withSlots d.slots).withOfs o)
  | .fail r => .next (((s.withRole d.role).withSlots d.slots).raiseReport r)

/-- CKRL (rule R114): nothing is written when the role tag is SERVER or CLIENT. -/
def execCkrl (s : State) : Host.Outcome State Fault Refusal :=
  match RoleTag.ofWord s.role with
  | some _ => .next s
  | none => .next (s.raise .unknownRole 0 0)

end Sys2Proof.Machine
end

