-- ==== Sys2Proof/Machine/Scale.lean ====
section
/-!
DEFINITION. The sample rescaler: the value of a binary64 pattern (rule R121 of `44_sample_rescale.md`), rounding to
the nearest integer with ties to even (rule R122), and the command SCAL (rule R120). All arithmetic is exact.
-/

namespace Sys2Proof.Machine

/-- `Real64(d)` (rule R121) as a whole number of units of 2^-1074, which every finite binary64 number is:
`m` units where `e = 0`, and `(2^52 + m) * 2^(e-1)` units otherwise; none for an infinity or a NaN.
PRESUMED (log entry 7): the spec took the layout from general knowledge. -/
def real64Units (d : DWord) : Option Int :=
  let e := (d.extractLsb' 52 11).toNat
  let m := (d.extractLsb' 0 52).toNat
  let x := if e = 0 then m else (2 ^ 52 + m) * 2 ^ (e - 1)
  if e = 0x7FF then none else if d.msb then some (-(x : Int)) else some (x : Int)

/-- `RoundTiesEven(n / d)` (rule R122) for `d > 0`: the integer nearest to the quotient, and the even one when the
quotient lies exactly half way between two. DESIGN CHOICE (log entry 6): the rule as written, not a free tie. -/
def roundTiesEven (n : Int) (d : Nat) : Int :=
  if 2 * (n % d) < d then n / d
  else if (d : Int) < 2 * (n % d) then n / d + 1
  else if n / d % 2 = 0 then n / d
  else n / d + 1

/-- How many units of 2^-1074 make 1, that is 2^1074 (`Laws/Scale.lean` proves it). It is written as a power of a power
because Lean's evaluator does not compute a power whose exponent is above 256. -/
def unitsPerOne : Nat := (2 ^ 179) ^ 6

/-- `round(value * 32768)` of a binary64 pattern (rule R120): the product is exact, and is rounded once. -/
def rescale (d : DWord) : Option Int := (real64Units d).map fun x => roundTiesEven (x * 32768) unitsPerOne

/-- SCAL (rule R120): RangeError for a NaN, an infinity, or a result outside -32768 to 32767; SCOUT is then
unchanged. -/
def execScal (s : State) : Host.Outcome State Fault Refusal :=
  match rescale s.scin with
  | none => .next (s.raise .rangeError 0 0)
  | some r =>
    if r < -32768 ∨ 32767 < r then .next (s.raise .rangeError 0 0)
    else .next (s.withScout (BitVec.ofInt 32 r))

end Sys2Proof.Machine
end

