-- ==== Sys2Proof/Machine/Dispatch.lean ====
section
/-!
DEFINITION. Dispatch: one arm per command, each one direct call of its meaning.
-/

namespace Sys2Proof.Machine

/-- Performing a command that has been decoded and passed the gate (rule R66 of `30_encoding.md`). -/
def exec (i : Instr) (s : State) : Host.Outcome State Fault Refusal :=
  match i with
  | .nop => Sys2Proof.Machine.execNop s
  | .wint => Sys2Proof.Machine.execWint s
  | .rint => Sys2Proof.Machine.execRint s
  | .wblb => Sys2Proof.Machine.execWblb s
  | .rblb => Sys2Proof.Machine.execRblb s
  | .pack p => Sys2Proof.Machine.execPack p s
  | .unpk p => Sys2Proof.Machine.execUnpk p s
  | .wpnt p => Sys2Proof.Machine.execWpnt p s
  | .rpnt p => Sys2Proof.Machine.execRpnt p s
  | .wpkt => Sys2Proof.Machine.execWpkt s
  | .rpkt => Sys2Proof.Machine.execRpkt s
  | .ckrl => Sys2Proof.Machine.execCkrl s
  | .scal => Sys2Proof.Machine.execScal s
  | .clre => Sys2Proof.Machine.execClre s

end Sys2Proof.Machine
end

