-- ==== Sys2Proof/Machine/Port.lean ====
section
/-!
DEFINITION. The host port: executing a command word (rules R66 and R135), the host's writes and reads of registers and
memories (rules R26, R27 of `10_state.md`, R70 to R72 of `30_encoding.md`), and reset (R150 of
`70_reset_and_hazards.md`). One event is one step (rules R53, R73).
-/

namespace Sys2Proof.Machine

/-- `Execute(w)` (rule R66): the gate, then decoding, then the command. An illegal word raises IllegalCommand(0, 0). -/
def execute (w : Word) (s : State) : Host.Outcome State Fault Refusal :=
  if s.gated then (if w = 0x0000003F then exec .clre s else .next s)
  else
    match decode w with
    | .error _ => .next (s.raise .illegalCommand 0 0)
    | .ok i => exec i s

/-- What a host read of a register returns (rule R26). CMD has no storage and reads 0 (rule R17). -/
def State.readReg (s : State) (r : Reg) : Word :=
  match r with
  | .id => idValue
  | .paramCap => trunc32 s.params.cap
  | .paramMaxPts => trunc32 s.params.maxPts
  | .ctrl => s.ctrlWord
  | .status => s.statusWord
  | .eofs => s.eofs
  | .eidx => s.eidx
  | .cmd => 0
  | .ofs => s.ofs
  | .lim => s.lim
  | .val => s.val
  | .blen => s.blen
  | .role => s.role
  | .npt => s.npt
  | .scinLo => s.scinLo
  | .scinHi => s.scinHi
  | .scout => s.scout

/-- A host write of a 32-bit value to a register other than CMD (rules R26, R27): a write to a read-only register is
ignored, and a value out of the register's range is ignored as a whole. (CMD has no storage; the write that starts a
command is `hostWrite`'s.) -/
def State.writeReg (s : State) (r : Reg) (v : Word) : State :=
  match r with
  | .id => s
  | .paramCap => s
  | .paramMaxPts => s
  | .ctrl => { s with strict := v.getLsbD 0 }
  | .status => s
  | .eofs => s
  | .eidx => s
  | .cmd => s
  | .ofs => { s with ofs := v }
  | .lim => if v.toNat ≤ s.params.cap then { s with lim := v } else s
  | .val => { s with val := v }
  | .blen => if v.toNat ≤ s.params.cap then { s with blen := v } else s
  | .role => { s with role := v }
  | .npt => if v.toNat ≤ s.params.maxPts then { s with npt := v } else s
  | .scinLo => { s with scinLo := v }
  | .scinHi => { s with scinHi := v }
  | .scout => s

/-- What a host read of a count register returns (rule R26). -/
def Slot.readCount (x : Slot) (r : CountReg) : Word :=
  match r with
  | .nbits => x.nbits
  | .nxi => x.nxi
  | .nxv => x.nxv

/-- A host write to a count register: an illegal count is ignored (rules R23, R27). -/
def Slot.writeCount (c : Params) (x : Slot) (r : CountReg) (v : Word) : Slot :=
  match r with
  | .nbits => if v.toNat ≤ maxBits c then { x with nbits := v } else x
  | .nxi => if v.toNat ≤ maxExt c then { x with nxi := v } else x
  | .nxv => if v.toNat ≤ maxExt c then { x with nxv := v } else x

/-- The elements a space has (rule R71): the legal indices are those below. -/
def spaceSize (c : Params) (sp : Space) : Nat :=
  match sp with
  | .reg => 0x11
  | .buf => c.cap
  | .blob => c.cap
  | .slotReg => 3
  | .bits => maxBits c
  | .xi => maxExt c
  | .xv => maxExt c
  | .reserved => 0

/-- The slots a space has (rules R71, R72): only slot 0 for spaces 0 to 2, the point slots for spaces 3 to 6. -/
def spaceSlots (c : Params) (sp : Space) : Nat :=
  match sp with
  | .reg => 1
  | .buf => 1
  | .blob => 1
  | .slotReg => c.maxPts
  | .bits => c.maxPts
  | .xi => c.maxPts
  | .xv => c.maxPts
  | .reserved => 0

/-- The complement of rule R72: the slot and the index of a transaction are in the legal range of its space (space 7
has none). -/
abbrev LegalAccess (c : Params) (sp : Space) (slot index : Nat) : Prop :=
  slot < spaceSlots c sp ∧ index < spaceSize c sp

/-- Storing to the element a legal HostWrite reaches (rule R71): the low bits of the data, as many as the element has.
Host access is not limited by LIM or by the count registers. -/
def State.store (s : State) (sp : Space) (slot index : Nat) (data : DWord) : State :=
  match sp with
  | .reg =>
    match Reg.ofIndex index with
    | some r => s.writeReg r (data.setWidth 32)
    | none => s
  | .buf => { s with buf := s.buf.write index (data.setWidth 8) }
  | .blob => { s with blob := s.blob.write index (data.setWidth 8) }
  | .slotReg =>
    match CountReg.ofIndex index with
    | some r => s.setSlot slot ((s.slot slot).writeCount s.params r (data.setWidth 32))
    | none => s
  | .bits => s.setSlot slot { s.slot slot with bits := (s.slot slot).bits.write index (data.setWidth 1) }
  | .xi => s.setSlot slot { s.slot slot with xi := (s.slot slot).xi.write index data }
  | .xv => s.setSlot slot { s.slot slot with xv := (s.slot slot).xv.write index data }
  | .reserved => s

/-- The element a legal HostRead reaches, "zero-extended to 64 bits" (rule R71). -/
def State.load (s : State) (sp : Space) (slot index : Nat) : DWord :=
  match sp with
  | .reg =>
    match Reg.ofIndex index with
    | some r => (s.readReg r).setWidth 64
    | none => 0
  | .buf => (s.buf.read index).setWidth 64
  | .blob => (s.blob.read index).setWidth 64
  | .slotReg =>
    match CountReg.ofIndex index with
    | some r => ((s.slot slot).readCount r).setWidth 64
    | none => 0
  | .bits => ((s.slot slot).bits.read index).setWidth 64
  | .xi => (s.slot slot).xi.read index
  | .xv => (s.slot slot).xv.read index
  | .reserved => 0

/-- `HostRead(space, slot, index)` (rules R70 to R72): an illegal read returns 0. -/
def hostRead (space : BitVec 3) (slot : BitVec 8) (index : Word) (s : State) : DWord :=
  if LegalAccess s.params (Space.ofBits space) slot.toNat index.toNat then
    s.load (Space.ofBits space) slot.toNat index.toNat
  else 0

/-- A transaction that reaches register CMD: space REG, slot 0, index 0x07 (rules R17, R26). -/
abbrev ReachesCmd (space : BitVec 3) (slot : BitVec 8) (index : Word) : Prop :=
  Space.ofBits space = .reg ∧ slot = 0 ∧ index.toNat = Reg.cmd.index

/-- `HostWrite(space, slot, index, data)` (rules R70 to R72): a write to CMD executes the word written, to completion
(rule R17); an illegal write changes nothing. DEDUCED (log entry 8): the word is bits 31:0 of the data. -/
def hostWrite (space : BitVec 3) (slot : BitVec 8) (index : Word) (data : DWord) (s : State) :
    Host.Outcome State Fault Refusal :=
  if ReachesCmd space slot index then execute (data.setWidth 32) s
  else if LegalAccess s.params (Space.ofBits space) slot.toNat index.toNat then
    .next (s.store (Space.ofBits space) slot.toNat index.toNat data)
  else .next s

/-- Reset (rule R150): every piece of state at its reset value. The parameters are the instance's own (rule R28), and
what the host has lined up at the port is the host's.
DESIGN CHOICE (log entry 2): a reset leaves the port's pending events. -/
def State.resetInPlace (s : State) : State := { State.resetOf s.params with port := s.port }

/-- One event at the port, taken to completion (rules R53, R73, R151). The state is the one whose port has already
given the event up and whose reply is empty. -/
def takeEvent (e : HostEvent) (s : State) : Host.Outcome State Fault Refusal :=
  match e with
  | .hostWrite space slot index data => hostWrite space slot index data s
  | .hostRead space slot index => .next { s with reply := some (hostRead space slot index s) }
  | .reset => .next s.resetInPlace

/-- The state with the oldest event taken off the port: `rest` is still pending and nothing has been returned yet. -/
def State.withPort (s : State) (rest : List HostEvent) : State := { s with port := rest, reply := none }

/-- The host write that puts a command word into CMD (rule R75: `hw REG, 0x07, <command word>`). -/
def commandEvent (w : Word) : HostEvent :=
  .hostWrite Space.reg.number 0 (trunc32 Reg.cmd.index) (w.setWidth 64)

/-- The command word `w` of `nbits` bits, in the numbering of the opcode table, as the next event at the port. -/
def State.placeCommand (s : State) (nbits w : Nat) : State :=
  { s with port := commandEvent (BitVec.ofNat 32 (w % 2 ^ min nbits 32)) :: s.port }

end Sys2Proof.Machine
end

