-- ==== Sys2Proof/Machine/Step.lean ====
section
/-!
DEFINITION. Step: the block takes the oldest event at the host port and carries it out. It "has no step of its own,
takes no action between transactions" (rule R7 of `00_scope.md`), so with nothing at the port it stays as it is.
-/

namespace Sys2Proof.Machine

/-- One step (rules R7, R53, R73). -/
def step (s : State) : Host.Outcome State Fault Refusal :=
  match s.port with
  | [] => .next s
  | e :: rest => takeEvent e (s.withPort rest)

/-- The state whose very next step executes the command word `w`.
DESIGN CHOICE (log entry 3): the host's write of the word to CMD is put at the front of the port. -/
def State.withFetchWord (s : State) (nbits w : Nat) : State := s.placeCommand nbits w

end Sys2Proof.Machine
end

