-- ==== Sys2Proof/Machine/Script.lean ====
section
/-!
DEFINITION. Script lines (rules R75, R76 of `30_encoding.md`): each line stands for the host transactions it expands to.
-/

namespace Sys2Proof.Machine

/-- A line of a script (rules R75, R76). -/
inductive ScriptLine where
  /-- `hw <space>.<slot>, <index>, <data>`. -/
  | hw (space : Space) (slot : BitVec 8) (index : Word) (data : DWord)
  /-- `hr <space>.<slot>, <index>`. -/
  | hr (space : Space) (slot : BitVec 8) (index : Word)
  /-- A command line: a mnemonic with its slot. -/
  | command (i : Instr)
  /-- `set <REGNAME>, v`. -/
  | set (r : Reg) (v : Word)
  /-- `get <REGNAME>`. -/
  | get (r : Reg)
  /-- `ldbuf i, b0 b1 ... bk`. -/
  | ldbuf (i : Nat) (b : List Byte)
  /-- `ldblob b0 ... bk`. -/
  | ldblob (b : List Byte)
  /-- `ldbits p, e0 e1 ... ek`. -/
  | ldbits (p : BitVec 8) (e : List Bit)
  /-- `ldxi p, v0 ... vk`. -/
  | ldxi (p : BitVec 8) (v : List DWord)
  /-- `ldxv p, v0 ... vk`. -/
  | ldxv (p : BitVec 8) (v : List DWord)
  /-- `setscin v`. -/
  | setscin (v : DWord)
  deriving DecidableEq, Repr

/-- A host write to a register (rule R76: `set`). -/
def writeRegEvent (r : Reg) (v : Word) : HostEvent :=
  .hostWrite Space.reg.number 0 (trunc32 r.index) (v.setWidth 64)

/-- A host write to a count register of slot `p`. -/
def writeCountEvent (p : BitVec 8) (r : CountReg) (n : Nat) : HostEvent :=
  .hostWrite Space.slotReg.number p (trunc32 r.index) (BitVec.ofNat 64 n)

/-- Host writes of a sequence to consecutive elements of a memory, from index `i` on. -/
def writeSeqEvents {w : Nat} (space : Space) (p : BitVec 8) (i : Nat) : List (BitVec w) → List HostEvent
  | [] => []
  | v :: vs => .hostWrite space.number p (trunc32 i) (v.setWidth 64) :: writeSeqEvents space p (i + 1) vs

/-- The expansion of a line (rules R75, R76): "The memory elements are written before the count". -/
def ScriptLine.expand : ScriptLine → List HostEvent
  | .hw space slot index data => [.hostWrite space.number slot index data]
  | .hr space slot index => [.hostRead space.number slot index]
  | .command i => [commandEvent (encode i)]
  | .set r v => [writeRegEvent r v]
  | .get r => [.hostRead Space.reg.number 0 (trunc32 r.index)]
  | .ldbuf i b => writeSeqEvents .buf 0 i b
  | .ldblob b => writeSeqEvents .blob 0 0 b ++ [writeRegEvent .blen (trunc32 b.length)]
  | .ldbits p e => writeSeqEvents .bits p 0 e ++ [writeCountEvent p .nbits e.length]
  | .ldxi p v => writeSeqEvents .xi p 0 v ++ [writeCountEvent p .nxi v.length]
  | .ldxv p v => writeSeqEvents .xv p 0 v ++ [writeCountEvent p .nxv v.length]
  | .setscin v => [writeRegEvent .scinLo (v.extractLsb' 0 32), writeRegEvent .scinHi (v.extractLsb' 32 32)]

/-- A script is its lines' transactions, in order (rule R75). -/
def expandScript (lines : List ScriptLine) : List HostEvent := lines.flatMap ScriptLine.expand

end Sys2Proof.Machine
end

