-- ==== Sys2Proof/Machine/Wire.lean ====
section
/-!
DEFINITION. The wire format (rules R60 to R63 of `30_encoding.md`) as a grammar: what one datagram is, byte by byte,
apart from any buffer, cursor or bounds check. The commands are not defined by it; statements compare them with it.
-/

namespace Sys2Proof.Machine

/-- A field on the wire (rule R60): an Int Field or a Byte Blob Field. -/
inductive WireField where
  | int (v : Word)
  | blob (b : List Byte)
  deriving DecidableEq, Repr

/-- The bytes of a field (rules R42, R60, R63): a blob is its length followed by its bytes. -/
def WireField.bytes : WireField → List Byte
  | .int v => le32 v
  | .blob b => le32 (trunc32 b.length) ++ b

/-- The size of a field in bytes (rule R61). -/
def WireField.size : WireField → Nat
  | .int _ => 4
  | .blob b => 4 + b.length

/-- One touch point as the document writes it: `(bits, extremumIndex[], extremumValue[])` (rule R23). -/
structure TouchPoint where
  bits : List Bit
  xi : List DWord
  xv : List DWord
  deriving DecidableEq, Repr

/-- The touch point a slot holds (rule R23). -/
def Slot.touchPoint (x : Slot) : TouchPoint := { bits := x.bitSeq, xi := x.xiSeq, xv := x.xvSeq }

/-- The four fields of a Point Record, in wire order (rule R61). -/
def TouchPoint.fields (p : TouchPoint) : List WireField :=
  [.blob (packBits p.bits), .blob (doublesBytes p.xi), .blob (doublesBytes p.xv), .int (trunc32 p.bits.length)]

/-- The bytes of a Point Record (rules R60, R61). -/
def TouchPoint.wire (p : TouchPoint) : List Byte := p.fields.flatMap WireField.bytes

/-- The size of a Point Record: `16 + k + 8*ni + 8*nv` bytes (rule R61). -/
def TouchPoint.size (p : TouchPoint) : Nat := 16 + ceilDiv8 p.bits.length + 8 * p.xi.length + 8 * p.xv.length

/-- The bytes of a packet: the role tag, then the Point Records (rule R60). -/
def packetWire (role : Word) (points : List TouchPoint) : List Byte :=
  (WireField.int role).bytes ++ points.flatMap TouchPoint.wire

/-- The length of a packet (rule R62). -/
def packetSize (points : List TouchPoint) : Nat := 4 + (points.map TouchPoint.size).sum

/-- The touch points a packet command works on: slots 0 to NPT-1, in this order (rule R21). -/
def State.points (s : State) : List TouchPoint := (List.range s.npt.toNat).map fun p => (s.slot p).touchPoint

end Sys2Proof.Machine
end

