-- ==== Sys2Proof/Safety.lean ====
section
/-!
DEFINITION. Safety: the ranges and forms that hold of a state in every run (rules R5, R10, R13, R16, R19, R21 to R24,
R27, R131), and what a safe run is.
-/

namespace Sys2Proof.Machine

/-- What holds of a slot of an instance with parameters `c` (rules R10, R23): counts within the capacities, memories in
canonical form and within their sizes. -/
structure Slot.Inv (c : Params) (x : Slot) : Prop where
  nbits_le : x.nbits.toNat ≤ maxBits c
  nxi_le : x.nxi.toNat ≤ maxExt c
  nxv_le : x.nxv.toNat ≤ maxExt c
  bits_wf : x.bits.wf
  bits_below : Memory.below (maxBits c) x.bits
  xi_wf : x.xi.wf
  xi_below : Memory.below (maxExt c) x.xi
  xv_wf : x.xv.wf
  xv_below : Memory.below (maxExt c) x.xv

/-- What holds of the failure record (rules R16, R131): "Values 6 to 15 are never produced"; with no failure recorded
EOFS and EIDX are 0; the failures found without accessing BUF record no offset; EIDX names a slot. -/
structure RecordInv (c : Params) (ecode : BitVec 4) (eofs eidx : Word) : Prop where
  ecode_le : ecode.toNat ≤ 5
  clear : ecode = 0 → eofs = 0 ∧ eidx = 0
  no_offset : 3 ≤ ecode.toNat → eofs = 0
  no_slot : ecode = 3 ∨ ecode = 5 → eidx = 0
  eidx_lt : eidx.toNat < c.maxPts

/-- The invariant of a state: "the range invariants of rule R10 hold in every reachable state" (rule R27), the memories
are in canonical form and no larger than the instance has them, and the failure record is one rule R131 lists. -/
structure State.Inv (s : State) : Prop where
  params_legal : s.params.Legal
  buf_wf : s.buf.wf
  buf_below : Memory.below s.params.cap s.buf
  lim_le : s.lim.toNat ≤ s.params.cap
  blob_wf : s.blob.wf
  blob_below : Memory.below s.params.cap s.blob
  blen_le : s.blen.toNat ≤ s.params.cap
  npt_le : s.npt.toNat ≤ s.params.maxPts
  record : RecordInv s.params s.ecode s.eofs s.eidx
  scout_range : -32768 ≤ s.scout.toInt ∧ s.scout.toInt ≤ 32767
  slots_length : s.slots.length = s.params.maxPts
  slots_inv : ∀ x ∈ s.slots, Slot.Inv s.params x

/-- A run of `k` steps is safe when no step of it faults or refuses. -/
def SafeRun (k : Nat) (s : State) : Prop := ∃ t, Sys2Proof.core.run k s = .next t

end Sys2Proof.Machine
end

