-- ==== Sys2Proof/Certificates/Slice0/Obligations.lean ====
section
/-!
DEFINITION. Obligations: what is claimed of the machine, one definition per claim, after the words the claims share.
-/

namespace Sys2Proof.Stated

open Sys2Proof.Machine

/-! ### Words the claims share -/

/-- The four bytes at offset `o` as a 32-bit pattern, the lowest offset least significant (rule R42). -/
def wordAt (m : Memory 8) (o : Nat) : Word :=
  Memory.read m (o + 3) ++ Memory.read m (o + 2) ++ Memory.read m (o + 1) ++ Memory.read m o

/-- The Int Field at offset `o` as a signed number (rule R42). -/
def intAt (m : Memory 8) (o : Nat) : Int := (wordAt m o).toInt

/-- The eight bytes at offset `o` as a 64-bit pattern (rule R49). -/
def doubleAt (m : Memory 8) (o : Nat) : DWord := wordAt m (o + 4) ++ wordAt m o

/-- Bit `i` of the packed bytes from offset `o` on: bit `7 - (i mod 8)` of byte `i div 8` (rules R56, R91). -/
def packedBitAt (m : Memory 8) (o i : Nat) : Bit := (Memory.read m (o + i / 8)).extractLsb' (7 - i % 8) 1

/-- The byte sequence `b` stands in the memory from offset `o` on. -/
def Holds (m : Memory 8) (o : Nat) (b : List Byte) : Prop := ∀ k, (h : k < b.length) → Memory.read m (o + k) = b[k]

/-- Every byte outside `lo` to `hi - 1` reads as before. -/
def SameOutside (m m' : Memory 8) (lo hi : Nat) : Prop :=
  ∀ a, a < lo ∨ hi ≤ a → Memory.read m' a = Memory.read m a

/-- The elements from `n` on read as before (rule R24). -/
def SameFrom {w : Nat} (m m' : Memory w) (n : Nat) : Prop := ∀ i, n ≤ i → Memory.read m' i = Memory.read m i

/-- The memory `m'` is the memory `m` with element `i` set to `v` (rule R40). -/
def SetsElement {w : Nat} (m m' : Memory w) (i : Nat) (v : BitVec w) : Prop :=
  Memory.read m' i = v ∧ ∀ j, j ≠ i → Memory.read m' j = Memory.read m j

/-- The opcodes without a slot operand, and the slot opcodes (rule R66). -/
def plainOps : List Nat := [0x00, 0x01, 0x02, 0x03, 0x04, 0x18, 0x19, 0x20, 0x21, 0x3F]
def slotOps : List Nat := [0x08, 0x09, 0x10, 0x11]

/-- An illegal command word, as rule R67 lists the causes. -/
def IllegalWord (c : Params) (w : Word) : Prop :=
  let op := w.toNat % 256
  let a := w.toNat / 256 % 256
  (op ∉ plainOps ∧ op ∉ slotOps) ∨ w.toNat / 65536 ≠ 0 ∨ (op ∈ plainOps ∧ a ≠ 0) ∨ (op ∈ slotOps ∧ c.maxPts ≤ a)

/-- The blob at offset `o` cannot be read below `lim`: its length field or its payload runs past it, or its length is
negative (rule R47). -/
abbrev BlobFault (lim : Nat) (m : Memory 8) (o : Nat) : Prop :=
  lim < o + 4 ∨ intAt m o < 0 ∨ lim < o + 4 + (intAt m o).toNat

/-- The offset after the blob at offset `o`. -/
def blobEnd (m : Memory 8) (o : Nat) : Nat := o + 4 + (intAt m o).toNat

/-- The offsets of the second, third and fourth field of the Point Record at offset `a`, and the one after it. -/
def xiField (m : Memory 8) (a : Nat) : Nat := blobEnd m a
def xvField (m : Memory 8) (a : Nat) : Nat := blobEnd m (xiField m a)
def lengthField (m : Memory 8) (a : Nat) : Nat := blobEnd m (xvField m a)
def recordEnd (m : Memory 8) (a : Nat) : Nat := lengthField m a + 4

/-- The tests of ReadPoint at offset `a`, in the order of rule R134: the offset of the first field that fails one. -/
def pointFault (lim : Nat) (m : Memory 8) (a : Nat) : Option Nat :=
  if BlobFault lim m a then some a
  else if BlobFault lim m (xiField m a) then some (xiField m a)
  else if intAt m (xiField m a) % 8 ≠ 0 then some (xiField m a)
  else if BlobFault lim m (xvField m a) then some (xvField m a)
  else if intAt m (xvField m a) % 8 ≠ 0 then some (xvField m a)
  else if intAt m (xvField m a) ≠ intAt m (xiField m a) then some (xvField m a)
  else if lim < lengthField m a + 4 then some (lengthField m a)
  else if intAt m (lengthField m a) < 0 ∨ 8 * intAt m a < intAt m (lengthField m a) then some (lengthField m a)
  else none

/-- Slot `y` is slot `x` after the Point Record at offset `a` has been committed to it (rules R101, R104). -/
def Committed (m : Memory 8) (a : Nat) (x y : Slot) : Prop :=
  let t := intAt m (lengthField m a)
  let n := intAt m (xiField m a) / 8
  (y.nbits.toNat : Int) = t ∧ (∀ i : Nat, i < t → Memory.read y.bits i = packedBitAt m (a + 4) i) ∧
  SameFrom x.bits y.bits t.toNat ∧
  (y.nxi.toNat : Int) = n ∧ (∀ i : Nat, i < n → Memory.read y.xi i = doubleAt m (xiField m a + 4 + 8 * i)) ∧
  SameFrom x.xi y.xi n.toNat ∧
  (y.nxv.toNat : Int) = n ∧ (∀ i : Nat, i < n → Memory.read y.xv i = doubleAt m (xvField m a + 4 + 8 * i)) ∧
  SameFrom x.xv y.xv n.toNat

/-- The offset at which record `p` of the packet at offset 0 starts (rule R111). -/
def recordStart (m : Memory 8) : Nat → Nat
  | 0 => 4
  | p + 1 => recordEnd m (recordStart m p)

/-- The layout of the Point Record of slot `x` at offset `a`, row by row of rule R61's table. -/
def RecordLayout (m : Memory 8) (a : Nat) (x : Slot) : Prop :=
  let nb := x.nbits.toNat
  let ni := x.nxi.toNat
  let nv := x.nxv.toNat
  let k := (nb + 7) / 8
  intAt m a = k ∧
  (∀ i < 8 * k, packedBitAt m (a + 4) i = if i < nb then Memory.read x.bits i else 0) ∧
  intAt m (a + 4 + k) = 8 * ni ∧
  (∀ i < ni, doubleAt m (a + 8 + k + 8 * i) = Memory.read x.xi i) ∧
  intAt m (a + 8 + k + 8 * ni) = 8 * nv ∧
  (∀ i < nv, doubleAt m (a + 12 + k + 8 * ni + 8 * i) = Memory.read x.xv i) ∧
  intAt m (a + 12 + k + 8 * ni + 8 * nv) = nb

/-- The size of the Point Record of a slot (rule R61). -/
def recordSize (x : Slot) : Nat := 16 + (x.nbits.toNat + 7) / 8 + 8 * x.nxi.toNat + 8 * x.nxv.toNat

/-- The offset at which the record of slot `p` starts in the packet of the state's slots (rule R62). -/
def packetOffset (s : State) : Nat → Nat
  | 0 => 4
  | p + 1 => packetOffset s p + recordSize (s.slot p)

/-- Where writing a sequence of fields from offset `o` on stops: the slot the field belongs to, the offset of the first
field that does not fit below `lim`, and the offset up to which bytes have been written, which takes in the length
field of a blob whose payload does not fit (rules R46, R100). None if everything fits. -/
def writeStop (lim : Nat) : Nat → List (Nat × WireField) → Option (Nat × Nat × Nat)
  | _, [] => none
  | o, (p, f) :: fs =>
    if lim < o + 4 then some (p, o, o)
    else if lim < o + f.size then some (p, o, o + 4)
    else writeStop lim (o + f.size) fs

/-- The fields of a packet in wire order, each with the slot it belongs to, 0 for the role tag (rules R110, R131). -/
def packetFields (s : State) : List (Nat × WireField) :=
  (0, .int s.role) :: (List.range s.npt.toNat).flatMap fun p => (s.slot p).touchPoint.fields.map fun f => (p, f)

/-- Two slots show the same touch point: the same counts, and the same elements below them (rule R113's round trip). -/
def SameTouchPoint (x y : Slot) : Prop :=
  y.nbits = x.nbits ∧ (∀ i < x.nbits.toNat, Memory.read y.bits i = Memory.read x.bits i) ∧
  y.nxi = x.nxi ∧ (∀ i < x.nxi.toNat, Memory.read y.xi i = Memory.read x.xi i) ∧
  y.nxv = x.nxv ∧ (∀ i < x.nxv.toNat, Memory.read y.xv i = Memory.read x.xv i)

/-- Slot `z` has the elements of slot `y` at and above the counts of slot `x` (rule R24). -/
def SameStaleElements (x y z : Slot) : Prop :=
  SameFrom y.bits z.bits x.nbits.toNat ∧ SameFrom y.xi z.xi x.nxi.toNat ∧ SameFrom y.xv z.xv x.nxv.toNat

/-- The real number a binary64 pattern stands for (rule R121), none for an infinity or a NaN. -/
def realValue (d : Nat) : Option ℚ :=
  let s : Nat := d / 2 ^ 63
  let e : Nat := d / 2 ^ 52 % 2 ^ 11
  let m : Nat := d % 2 ^ 52
  if e = 0x7FF then none
  else some ((-1) ^ s * (if e = 0 then (m : ℚ) * 2 ^ (-1074 : ℤ) else ((2 ^ 52 + m : Nat) : ℚ) * 2 ^ ((e : ℤ) - 1075)))

/-- `r` is the integer nearest to `y`, the even one of the two when `y` lies half way between them (rule R122). -/
def NearestEven (y : ℚ) (r : ℤ) : Prop := |y - r| < 1 / 2 ∨ (|y - r| = 1 / 2 ∧ Even r)

/-- The failures a command can raise, by code (rule R132), with IllegalCommand for a slot operand that names no
slot. -/
def failuresOf : Instr → List (BitVec 4)
  | .nop => []
  | .wint => [1]
  | .rint => [1]
  | .wblb => [1]
  | .rblb => [1, 2]
  | .pack _ => [4]
  | .unpk _ => [2, 4]
  | .wpnt _ => [1, 4]
  | .rpnt _ => [2, 4]
  | .wpkt => [1, 4]
  | .rpkt => [2]
  | .ckrl => [3]
  | .scal => [5]
  | .clre => []

/-- The commands that write BUF (rule R11). -/
def writesBuf : Instr → Bool
  | .wint => true
  | .wblb => true
  | .wpnt _ => true
  | .wpkt => true
  | _ => false

/-- The spaces of the memories, and the width of their elements (rule R71). -/
def memoryWidth : Space → Option Nat
  | .buf => some 8
  | .blob => some 8
  | .bits => some 1
  | .xi => some 64
  | .xv => some 64
  | _ => none

end Sys2Proof.Stated

open Sys2Proof Sys2Proof.Machine Sys2Proof.Stated

/-! ### Reset and the invariant -/

/-- Rule R30: after reset every piece of state has the value of the table, on every legal instance. (All values but the
buffer's are the spec's decision D14, and the constants are its decision D1.) -/
def Obligations.ResetLeavesTheValuesOfTheTable : Prop :=
  ∀ c : Params, c.Legal →
    let s := State.resetOf c
    (∀ a, Memory.read s.buf a = 0) ∧ s.ofs = 0 ∧ s.lim.toNat = c.cap ∧ s.strict = false ∧
    s.ecode = 0 ∧ s.eofs = 0 ∧ s.eidx = 0 ∧
    s.val = 0 ∧ s.blen = 0 ∧ s.role = 0 ∧ s.npt = 0 ∧ s.scinLo = 0 ∧ s.scinHi = 0 ∧ s.scout = 0 ∧
    (∀ a, Memory.read s.blob a = 0) ∧ s.slots.length = c.maxPts ∧
    (∀ p < c.maxPts, (s.slot p).nbits = 0 ∧ (s.slot p).nxi = 0 ∧ (s.slot p).nxv = 0 ∧
      ∀ i, Memory.read (s.slot p).bits i = 0 ∧ Memory.read (s.slot p).xi i = 0 ∧ Memory.read (s.slot p).xv i = 0) ∧
    s.readReg .id = 0x56544643 ∧ (s.readReg .paramCap).toNat = c.cap ∧ (s.readReg .paramMaxPts).toNat = c.maxPts

/-- Rules R150, R151: reset from any state gives the reset state of the instance. What the host has lined up at the
port stays, which is the model's choice (log entry 2). -/
def Obligations.ResetEventRestoresTheResetState : Prop :=
  ∀ (s : State) (rest : List HostEvent), s.port = .reset :: rest →
    step s = .next { State.resetOf s.params with port := rest }

/-- The reset state of every legal instance meets the invariant (rules R27, R30). The last two clauses say which instance
`State.reset` is: the one with the reference values of rule R5, which is the model's choice (log entry 1). -/
def Obligations.ResetStateMeetsTheInvariant : Prop :=
  (∀ c : Params, c.Legal → (State.resetOf c).Inv) ∧ State.reset = State.resetOf { cap := 8192, maxPts := 3 } ∧
  State.reset.Inv

/-- Rules R10, R16, R27, R131: every step keeps the invariant, from every state that meets it. -/
def Obligations.EveryStepKeepsTheInvariant : Prop :=
  ∀ s t : State, s.Inv → step s = .next t → t.Inv

/-- Two memories in canonical form that read the same everywhere are the same data (the model's form of rule R40's
memories). -/
def Obligations.CanonicalMemoriesThatReadAlikeAreEqual : Prop :=
  ∀ (w : Nat) (m m' : Memory w), m.wf → m'.wf → (∀ i, Memory.read m i = Memory.read m' i) → m = m'

/-! ### Encoding -/

/-- Rules R64, R65: a command is decoded from exactly one word, the one that encodes it. -/
def Obligations.DecodingIsTheInverseOfEncoding : Prop :=
  ∀ (w : Word) (i : Instr), decode w = .ok i ↔ w = encode i

/-- Rule R65's command words, written out, decode to the commands they stand for. -/
def Obligations.WrittenCommandWordsDecode : Prop :=
  decode 0x00000000 = .ok .nop ∧ decode 0x00000001 = .ok .wint ∧ decode 0x00000004 = .ok .rblb ∧
  decode 0x00000108 = .ok (.pack 1) ∧ decode 0x00000209 = .ok (.unpk 2) ∧ decode 0x00000110 = .ok (.wpnt 1) ∧
  decode 0x00000211 = .ok (.rpnt 2) ∧ decode 0x00000018 = .ok .wpkt ∧ decode 0x00000019 = .ok .rpkt ∧
  decode 0x00000020 = .ok .ckrl ∧ decode 0x00000021 = .ok .scal ∧ decode 0x0000003F = .ok .clre

/-- Rule R67: an illegal word fails with IllegalCommand when `ECODE = 0` and is ignored when `ECODE != 0`; every other
word is a well-formed command; 242 opcodes are reserved. -/
def Obligations.IllegalWordsAreReportedOrIgnored : Prop :=
  (∀ (s : State) (w : Word), IllegalWord s.params w →
    (s.ecode = 0 → execute w s = .next { s with ecode := 4, eofs := 0, eidx := 0 }) ∧
    (s.ecode ≠ 0 → execute w s = .next s)) ∧
  (∀ (c : Params) (w : Word), ¬ IllegalWord c w → ∃ i, decode w = .ok i ∧ WellFormed c i = true) ∧
  ((List.range 256).filter fun op => op ∉ plainOps ∧ op ∉ slotOps).length = 242

/-- Rules R70, R17, R66: with a host write at the port, whatever it writes to, a step takes the event off the port and
carries the write out. A write to CMD executes the word written; with no failure recorded, and a word that decodes to a
well-formed command, that is the command; with a failure recorded CLRE runs so. That transactions wait at the port, and
that a write leaves the reply empty, is the model's choice (log entry 2). -/
def Obligations.StepRunsTheDecodedCommand : Prop :=
  (∀ (s : State) (sp : BitVec 3) (p : BitVec 8) (ix : Word) (d : DWord) (rest : List HostEvent),
    s.port = .hostWrite sp p ix d :: rest → step s = hostWrite sp p ix d { s with port := rest, reply := none }) ∧
  (∀ (s : State) (w : Word) (rest : List HostEvent), s.port = commandEvent w :: rest →
    step s = execute w { s with port := rest, reply := none }) ∧
  ∀ (s : State) (w : Word) (i : Instr) (rest : List HostEvent),
    s.port = commandEvent w :: rest → decode w = .ok i → WellFormed s.params i = true → s.ecode = 0 ∨ i = .clre →
    step s = exec i { s with port := rest, reply := none }

/-! ### The host port -/

/-- Rule R7: with nothing at the port the block stays as it is. Rule R73: every step completes, and so does every run.
That the port is a queue whose rest every event leaves, a reset among them, is the model's choice (log entry 2). -/
def Obligations.EveryStepCompletes : Prop :=
  (∀ s : State, s.port = [] → step s = .next s) ∧
  (∀ (s : State) (e : HostEvent) (rest : List HostEvent), s.port = e :: rest → ∃ t, step s = .next t ∧ t.port = rest) ∧
  ∀ (k : Nat) (s : State), SafeRun k s

/-- Rule R135: while a failure is recorded every word written to CMD but CLRE's has no effect, CLRE clears the record,
and host reads and writes of everything else work as usual. -/
def Obligations.GateIgnoresEveryWordButClre : Prop :=
  (∀ (s : State) (w : Word), s.ecode ≠ 0 → w ≠ 0x0000003F → execute w s = .next s) ∧
  (∀ s : State, s.ecode ≠ 0 → execute 0x0000003F s = .next { s with ecode := 0, eofs := 0, eidx := 0 }) ∧
  (∀ (s t : State) (sp : BitVec 3) (p : BitVec 8) (ix : Word) (d : DWord) (c : BitVec 4),
    ¬ ReachesCmd sp p ix → hostWrite sp p ix d s = .next t →
    hostWrite sp p ix d { s with ecode := c } = .next { t with ecode := c }) ∧
  ∀ (s : State) (sp : BitVec 3) (p : BitVec 8) (ix : Word) (c : BitVec 4),
    ¬ (Space.ofBits sp = .reg ∧ ix.toNat = Reg.status.index) →
    hostRead sp p ix { s with ecode := c } = hostRead sp p ix s

/-- Rule R72: an illegal HostWrite changes nothing, an illegal HostRead returns 0, and neither records a failure. -/
def Obligations.IllegalTransactionsHaveNoEffect : Prop :=
  ∀ (s : State) (sp : BitVec 3) (p : BitVec 8) (ix : Word) (d : DWord),
    (sp = 7 ∨ (sp.toNat ≤ 2 ∧ p ≠ 0) ∨ (3 ≤ sp.toNat ∧ s.params.maxPts ≤ p.toNat) ∨
      (sp = 0 ∧ 0x11 ≤ ix.toNat) ∨ (sp = 1 ∧ s.params.cap ≤ ix.toNat) ∨ (sp = 2 ∧ s.params.cap ≤ ix.toNat) ∨
      (sp = 3 ∧ 3 ≤ ix.toNat) ∨ (sp = 4 ∧ 8 * s.params.cap ≤ ix.toNat) ∨
      (sp = 5 ∧ s.params.cap / 8 ≤ ix.toNat) ∨ (sp = 6 ∧ s.params.cap / 8 ≤ ix.toNat)) →
    hostWrite sp p ix d s = .next s ∧ hostRead sp p ix s = 0

/-- Rule R71 for the memories: a legal HostWrite stores the low bits of the data, as many as the element has; reading
the element returns them zero-extended; every other element of every memory reads as before, and nothing but the
memory written changes. Then, space by space, what an access reaches: the element of that memory of the state, at the
index of the transaction itself, whatever LIM and the counts are. -/
def Obligations.HostWritesAndReadsMemoryElements : Prop :=
  (∀ (s : State) (sp : Space) (n : Nat) (p : BitVec 8) (ix : Word) (d : DWord), s.Inv → memoryWidth sp = some n →
    LegalAccess s.params sp p.toNat ix.toNat →
    ∃ t, hostWrite sp.number p ix d s = .next t ∧
      t = { s with buf := t.buf, blob := t.blob, slots := t.slots } ∧
      hostRead sp.number p ix t = (d.extractLsb' 0 n).setWidth 64 ∧
      (∀ (sp' : Space) (p' : BitVec 8) (ix' : Word), (sp', p', ix') ≠ (sp, p, ix) →
        hostRead sp'.number p' ix' t = hostRead sp'.number p' ix' s)) ∧
  ∀ (s : State) (p : BitVec 8) (ix : Word) (d : DWord), s.Inv →
    let i := ix.toNat
    let x := s.slot p.toNat
    (i < s.params.cap → hostRead 1 0 ix s = (Memory.read s.buf i).setWidth 64 ∧
      ∃ m, hostWrite 1 0 ix d s = .next { s with buf := m } ∧ SetsElement s.buf m i (d.extractLsb' 0 8)) ∧
    (i < s.params.cap → hostRead 2 0 ix s = (Memory.read s.blob i).setWidth 64 ∧
      ∃ m, hostWrite 2 0 ix d s = .next { s with blob := m } ∧ SetsElement s.blob m i (d.extractLsb' 0 8)) ∧
    (p.toNat < s.params.maxPts → i < 8 * s.params.cap → hostRead 4 p ix s = (Memory.read x.bits i).setWidth 64 ∧
      ∃ m, hostWrite 4 p ix d s = .next { s with slots := s.slots.set p.toNat { x with bits := m } } ∧
        SetsElement x.bits m i (d.extractLsb' 0 1)) ∧
    (p.toNat < s.params.maxPts → i < s.params.cap / 8 → hostRead 5 p ix s = Memory.read x.xi i ∧
      ∃ m, hostWrite 5 p ix d s = .next { s with slots := s.slots.set p.toNat { x with xi := m } } ∧
        SetsElement x.xi m i d) ∧
    (p.toNat < s.params.maxPts → i < s.params.cap / 8 → hostRead 6 p ix s = Memory.read x.xv i ∧
      ∃ m, hostWrite 6 p ix d s = .next { s with slots := s.slots.set p.toNat { x with xv := m } } ∧
        SetsElement x.xv m i d)

/-- Rules R13, R19, R21, R23, R27: a restricted register takes a legal value and ignores an illegal one as a whole, and
the write changes nothing else. -/
def Obligations.RestrictedRegistersIgnoreIllegalValues : Prop :=
  ∀ (s : State) (d : DWord), s.Inv →
    let v : Word := d.setWidth 32
    (hostWrite 0 0 0x09 d s = .next (if v.toNat ≤ s.params.cap then { s with lim := v } else s)) ∧
    (hostWrite 0 0 0x0B d s = .next (if v.toNat ≤ s.params.cap then { s with blen := v } else s)) ∧
    (hostWrite 0 0 0x0D d s = .next (if v.toNat ≤ s.params.maxPts then { s with npt := v } else s)) ∧
    ∀ p : BitVec 8, p.toNat < s.params.maxPts →
      (hostWrite 3 p 0 d s = .next (if v.toNat ≤ 8 * s.params.cap then
        s.setSlot p.toNat { s.slot p.toNat with nbits := v } else s)) ∧
      (hostWrite 3 p 1 d s = .next (if v.toNat ≤ s.params.cap / 8 then
        s.setSlot p.toNat { s.slot p.toNat with nxi := v } else s)) ∧
      (hostWrite 3 p 2 d s = .next (if v.toNat ≤ s.params.cap / 8 then
        s.setSlot p.toNat { s.slot p.toNat with nxv := v } else s))

/-- Rules R26, R27: what a host read of each register of the map returns, the count registers of the slots among them,
what a host write of each register of space REG stores, in the restricted ones a legal value only, that writes to the
read-only ones are ignored, and that a write to CMD executes the word written. (What a host write of a count register
stores is `RestrictedRegistersIgnoreIllegalValues`.) That the word is bits 31:0 of the data, whatever bits 63:32 are, is deduced (log entry 8). -/
def Obligations.RegisterMapReadsAndWrites : Prop :=
  ∀ (s : State) (d : DWord),
    hostRead 0 0 0x00 s = 0x56544643 ∧ hostRead 0 0 0x01 s = BitVec.ofNat 64 (s.params.cap % 2 ^ 32) ∧
    hostRead 0 0 0x02 s = BitVec.ofNat 64 (s.params.maxPts % 2 ^ 32) ∧
    hostRead 0 0 0x03 s = (if s.strict then 1 else 0) ∧ hostRead 0 0 0x04 s = s.ecode.setWidth 64 ∧
    hostRead 0 0 0x05 s = s.eofs.setWidth 64 ∧ hostRead 0 0 0x06 s = s.eidx.setWidth 64 ∧
    hostRead 0 0 0x07 s = 0 ∧ hostRead 0 0 0x08 s = s.ofs.setWidth 64 ∧ hostRead 0 0 0x09 s = s.lim.setWidth 64 ∧
    hostRead 0 0 0x0A s = s.val.setWidth 64 ∧ hostRead 0 0 0x0B s = s.blen.setWidth 64 ∧
    hostRead 0 0 0x0C s = s.role.setWidth 64 ∧ hostRead 0 0 0x0D s = s.npt.setWidth 64 ∧
    hostRead 0 0 0x0E s = s.scinLo.setWidth 64 ∧ hostRead 0 0 0x0F s = s.scinHi.setWidth 64 ∧
    hostRead 0 0 0x10 s = s.scout.setWidth 64 ∧
    hostWrite 0 0 0x00 d s = .next s ∧ hostWrite 0 0 0x01 d s = .next s ∧ hostWrite 0 0 0x02 d s = .next s ∧
    hostWrite 0 0 0x03 d s = .next { s with strict := d.getLsbD 0 } ∧
    hostWrite 0 0 0x04 d s = .next s ∧ hostWrite 0 0 0x05 d s = .next s ∧ hostWrite 0 0 0x06 d s = .next s ∧
    hostWrite 0 0 0x07 d s = execute (d.setWidth 32) s ∧
    hostWrite 0 0 0x08 d s = .next { s with ofs := d.setWidth 32 } ∧
    hostWrite 0 0 0x09 d s = .next (if d.toNat % 2 ^ 32 ≤ s.params.cap then { s with lim := d.setWidth 32 } else s) ∧
    hostWrite 0 0 0x0A d s = .next { s with val := d.setWidth 32 } ∧
    hostWrite 0 0 0x0B d s = .next (if d.toNat % 2 ^ 32 ≤ s.params.cap then { s with blen := d.setWidth 32 } else s) ∧
    hostWrite 0 0 0x0C d s = .next { s with role := d.setWidth 32 } ∧
    hostWrite 0 0 0x0D d s = .next (if d.toNat % 2 ^ 32 ≤ s.params.maxPts then { s with npt := d.setWidth 32 } else s) ∧
    hostWrite 0 0 0x0E d s = .next { s with scinLo := d.setWidth 32 } ∧
    hostWrite 0 0 0x0F d s = .next { s with scinHi := d.setWidth 32 } ∧
    hostWrite 0 0 0x10 d s = .next s ∧
    ∀ p : BitVec 8, p.toNat < s.params.maxPts →
      hostRead 3 p 0 s = (s.slot p.toNat).nbits.setWidth 64 ∧ hostRead 3 p 1 s = (s.slot p.toNat).nxi.setWidth 64 ∧
      hostRead 3 p 2 s = (s.slot p.toNat).nxv.setWidth 64

/-- Rules R52, R70: a HostRead returns its data and changes nothing. -/
def Obligations.HostReadChangesNothing : Prop :=
  ∀ (s : State) (sp : BitVec 3) (p : BitVec 8) (ix : Word) (rest : List HostEvent),
    s.port = .hostRead sp p ix :: rest →
    step s = .next { s with port := rest, reply := some (hostRead sp p ix s) }

/-- Rules R14, R28: the parameters of the instance never change. -/
def Obligations.ParametersNeverChange : Prop :=
  ∀ s t : State, step s = .next t → t.params = s.params

/-- Rule R76: running the expansion of `ldblob` leaves the bytes as the blob operand, and running that of `ldbits` or
`ldxi` or `ldxv` leaves the elements as the slot's sequence.That the transactions wait at the port is the model's choice
(log entry 2). -/
def Obligations.ScriptLinesLoadTheirOperands : Prop :=
  (∀ (s : State) (b : List Byte), s.Inv → b.length ≤ s.params.cap → s.port = (ScriptLine.ldblob b).expand →
    ∃ t, core.run (b.length + 1) s = .next t ∧ t.blobSeq = b) ∧
  ∀ (s : State) (p : BitVec 8), s.Inv → p.toNat < s.params.maxPts →
    (∀ e : List Bit, e.length ≤ 8 * s.params.cap → s.port = (ScriptLine.ldbits p e).expand →
      ∃ t, core.run (e.length + 1) s = .next t ∧ (t.slot p.toNat).bitSeq = e) ∧
    (∀ v : List DWord, v.length ≤ s.params.cap / 8 → s.port = (ScriptLine.ldxi p v).expand →
      ∃ t, core.run (v.length + 1) s = .next t ∧ (t.slot p.toNat).xiSeq = v) ∧
    (∀ v : List DWord, v.length ≤ s.params.cap / 8 → s.port = (ScriptLine.ldxv p v).expand →
      ∃ t, core.run (v.length + 1) s = .next t ∧ (t.slot p.toNat).xvSeq = v)

/-! ### Control commands -/

/-- Rule R125: NOP changes nothing, in every state, and the words `0x00000100` and `0x00010000` are not NOP. -/
def Obligations.NopChangesNothing : Prop :=
  encode .nop = 0x00000000 ∧ (∀ s : State, exec .nop s = .next s) ∧
  ∀ (s : State) (w : Word), w = 0x00000100 ∨ w = 0x00010000 → s.ecode = 0 →
    execute w s = .next { s with ecode := 4, eofs := 0, eidx := 0 }

/-- Rule R126: CLRE clears ECODE, EOFS and EIDX and nothing else, in every state, a recorded failure or not; with one
recorded no other word does anything; with none recorded CLRE changes nothing, since EOFS and EIDX are then 0 (rule
R131). -/
def Obligations.ClreClearsTheRecordAndNothingElse : Prop :=
  encode .clre = 0x0000003F ∧ (∀ s : State, exec .clre s = .next { s with ecode := 0, eofs := 0, eidx := 0 }) ∧
  (∀ s : State, execute 0x0000003F s = exec .clre s) ∧
  (∀ (s : State) (w : Word), s.ecode ≠ 0 → w ≠ 0x0000003F → execute w s = .next s) ∧
  ∀ s : State, s.Inv → s.ecode = 0 → exec .clre s = .next s

/-! ### Field codec -/

/-- Rule R80: WINT writes VAL at OFS, little-endian, and advances OFS by 4; where the field does not fit below LIM it
reports OutOfBounds and changes nothing else. -/
def Obligations.WintWritesValAtTheCursor : Prop :=
  encode .wint = 0x00000001 ∧ ∀ s : State, s.Inv →
    (s.ofs.toNat + 4 ≤ s.lim.toNat → ∃ t, exec .wint s = .next t ∧
      t = { s with buf := t.buf, ofs := s.ofs + 4 } ∧
      (∀ k < 4, Memory.read t.buf (s.ofs.toNat + k) = s.val.extractLsb' (8 * k) 8) ∧
      SameOutside s.buf t.buf s.ofs.toNat (s.ofs.toNat + 4)) ∧
    (s.lim.toNat < s.ofs.toNat + 4 → exec .wint s = .next { s with ecode := 1, eofs := s.ofs, eidx := 0 })

/-- Rule R81: RINT reads the Int Field at OFS into VAL and advances OFS by 4; where the field does not fit below LIM it
reports OutOfBounds and changes nothing else. -/
def Obligations.RintReadsValAtTheCursor : Prop :=
  encode .rint = 0x00000002 ∧ ∀ s : State,
    (s.ofs.toNat + 4 ≤ s.lim.toNat →
      exec .rint s = .next { s with val := wordAt s.buf s.ofs.toNat, ofs := s.ofs + 4 }) ∧
    (s.lim.toNat < s.ofs.toNat + 4 → exec .rint s = .next { s with ecode := 1, eofs := s.ofs, eidx := 0 })

/-- Rule R82: the three outcomes of WBLB. -/
def Obligations.WblbWritesTheBlobAtTheCursor : Prop :=
  encode .wblb = 0x00000003 ∧ ∀ s : State, s.Inv →
    let o := s.ofs.toNat
    let n := s.blen.toNat
    (o + 4 + n ≤ s.lim.toNat → ∃ t, exec .wblb s = .next t ∧
      t = { s with buf := t.buf, ofs := s.ofs + 4 + s.blen } ∧
      (∀ k < 4, Memory.read t.buf (o + k) = s.blen.extractLsb' (8 * k) 8) ∧
      (∀ i < n, Memory.read t.buf (o + 4 + i) = Memory.read s.blob i) ∧
      SameOutside s.buf t.buf o (o + 4 + n)) ∧
    (o + 4 ≤ s.lim.toNat → s.lim.toNat < o + 4 + n → ∃ t, exec .wblb s = .next t ∧
      t = { s with buf := t.buf, ecode := 1, eofs := s.ofs, eidx := 0 } ∧
      (∀ k < 4, Memory.read t.buf (o + k) = s.blen.extractLsb' (8 * k) 8) ∧
      SameOutside s.buf t.buf o (o + 4)) ∧
    (s.lim.toNat < o + 4 → exec .wblb s = .next { s with ecode := 1, eofs := s.ofs, eidx := 0 })

/-- Rule R83: RBLB reads the blob at OFS into BLOB and BLEN and advances OFS; its three failures, in the order they are
tested, change nothing else. -/
def Obligations.RblbReadsTheBlobAtTheCursor : Prop :=
  encode .rblb = 0x00000004 ∧ ∀ s : State, s.Inv →
    let o := s.ofs.toNat
    let n := intAt s.buf o
    (o + 4 ≤ s.lim.toNat → 0 ≤ n → o + 4 + n.toNat ≤ s.lim.toNat → ∃ t, exec .rblb s = .next t ∧
      t = { s with blob := t.blob, blen := wordAt s.buf o, ofs := s.ofs + 4 + wordAt s.buf o } ∧
      (∀ i < n.toNat, Memory.read t.blob i = Memory.read s.buf (o + 4 + i)) ∧ SameFrom s.blob t.blob n.toNat) ∧
    (s.lim.toNat < o + 4 → exec .rblb s = .next { s with ecode := 1, eofs := s.ofs, eidx := 0 }) ∧
    (o + 4 ≤ s.lim.toNat → n < 0 → exec .rblb s = .next { s with ecode := 2, eofs := s.ofs, eidx := 0 }) ∧
    (o + 4 ≤ s.lim.toNat → 0 ≤ n → s.lim.toNat < o + 4 + n.toNat →
      exec .rblb s = .next { s with ecode := 1, eofs := s.ofs, eidx := 0 })

/-- The round trips of `20_memory.md` section 4: a field just written is read back. -/
def Obligations.FieldsJustWrittenAreReadBack : Prop :=
  (∀ (lim : Nat) (m m' : Memory 8) (o o' : Nat) (v : Word), m.wf →
    fieldWriteInt lim m o v = (m', .ok o') → fieldReadInt lim m' o = .ok (o', v)) ∧
  ∀ (lim : Nat) (m m' : Memory 8) (o o' : Nat) (b : List Byte), m.wf → b.length ≤ 2 ^ 24 →
    fieldWriteBytes lim m o b = (m', .ok o') → fieldReadBytes lim m' o = .ok (o', b)

/-! ### Bit packer -/

/-- Rule R90: Pack gives `ceil(n/8)` bytes, and element `8*j + i` is bit `7 - i` of byte `j`, 0 beyond the end. -/
def Obligations.PackPutsTheFirstElementInTheTopBit : Prop :=
  ∀ bits : List Bit, (packBits bits).length = (bits.length + 7) / 8 ∧
    ∀ j < (bits.length + 7) / 8, ∀ i < 8,
      ((packBits bits).getD j 0).extractLsb' (7 - i) 1 = if 8 * j + i < bits.length then bits.getD (8 * j + i) 0 else 0

/-- Rule R91: Unpack fails exactly for a length that is negative or exceeds the bits there are, and otherwise gives
exactly that many bits, whatever the surplus bits are. -/
def Obligations.UnpackGivesExactlyTheStatedNumberOfBits : Prop :=
  ∀ (bytes : List Byte) (t : Int),
    (t < 0 ∨ 8 * (bytes.length : Int) < t → unpackBits bytes t = .fail .malformedPacket) ∧
    (0 ≤ t → t ≤ 8 * (bytes.length : Int) → ∃ bits, unpackBits bytes t = .ok bits ∧ bits.length = t.toNat ∧
      ∀ i < t.toNat, bits.getD i 0 = (bytes.getD (i / 8) 0).extractLsb' (7 - i % 8) 1)

/-- The document's round trip (quoted after rule R91): unpacking what was packed gives the sequence back. -/
def Obligations.UnpackInvertsPack : Prop :=
  ∀ bits : List Bit, unpackBits (packBits bits) bits.length = .ok bits

/-- Rule R92: PACK writes the packed bytes of the slot to BLOB and their number to BLEN, and touches nothing else. For an
operand that names no slot the outcome is rule R66's; that it is the command that tests this is deduced (log entry 5). -/
def Obligations.PackCommandPacksTheSlot : Prop :=
  (∀ p : BitVec 8, encode (.pack p) = 0x00000008 ||| (p.setWidth 32 <<< 8)) ∧
  ∀ (s : State) (p : BitVec 8), s.Inv →
    let x := s.slot p.toNat
    let nb := x.nbits.toNat
    let k := (nb + 7) / 8
    (p.toNat < s.params.maxPts → ∃ t, exec (.pack p) s = .next t ∧
      t = { s with blob := t.blob, blen := BitVec.ofNat 32 k } ∧
      (∀ i < 8 * k, packedBitAt t.blob 0 i = if i < nb then Memory.read x.bits i else 0) ∧ SameFrom s.blob t.blob k) ∧
    (s.params.maxPts ≤ p.toNat → exec (.pack p) s = .next { s with ecode := 4, eofs := 0, eidx := 0 })

/-- Rule R93: UNPK writes the first `sext_32(VAL)` bits of the blob operand to the slot, and reports MalformedPacket
for a length that is negative or exceeds the bits there are; nothing else changes. For an operand that names no slot the
outcome is rule R66's; that it is the command that tests this is deduced (log entry 5). -/
def Obligations.UnpackCommandFillsTheSlot : Prop :=
  (∀ p : BitVec 8, encode (.unpk p) = 0x00000009 ||| (p.setWidth 32 <<< 8)) ∧
  ∀ (s : State) (p : BitVec 8), s.Inv →
    let x := s.slot p.toNat
    let n := s.val.toInt
    (p.toNat < s.params.maxPts → 0 ≤ n → n ≤ 8 * (s.blen.toNat : Int) → ∃ y : Slot,
      exec (.unpk p) s = .next { s with slots := s.slots.set p.toNat y } ∧
      y = { x with nbits := s.val, bits := y.bits } ∧
      (∀ i < n.toNat, Memory.read y.bits i = packedBitAt s.blob 0 i) ∧ SameFrom x.bits y.bits n.toNat) ∧
    (p.toNat < s.params.maxPts → n < 0 ∨ 8 * (s.blen.toNat : Int) < n →
      exec (.unpk p) s = .next { s with ecode := 2, eofs := 0, eidx := p.setWidth 32 }) ∧
    (s.params.maxPts ≤ p.toNat → exec (.unpk p) s = .next { s with ecode := 4, eofs := 0, eidx := 0 })

/-! ### Point records -/

/-- Rule R61: the wire form of a slot's touch point has the size and the fields of the table. -/
def Obligations.WireRecordHasTheLayoutOfTheTable : Prop :=
  ∀ (c : Params) (x : Slot) (m : Memory 8) (a : Nat), c.Legal → x.Inv c →
    x.touchPoint.wire.length = recordSize x ∧ (Holds m a x.touchPoint.wire → RecordLayout m a x)

/-- Rule R102: WPNT writes the record of the slot at OFS where it fits; a slot with unequal extremum counts is refused
with nothing written; where a field does not fit, what was written before it stays. For an operand that names no slot the
outcome is rule R66's; that it is the command that tests this is deduced (log entry 5). -/
def Obligations.WpntWritesTheRecordAtTheCursor : Prop :=
  (∀ p : BitVec 8, encode (.wpnt p) = 0x00000010 ||| (p.setWidth 32 <<< 8)) ∧
  ∀ (s : State) (p : BitVec 8), s.Inv →
    let x := s.slot p.toNat
    let o := s.ofs.toNat
    let stop := writeStop s.lim.toNat o (x.touchPoint.fields.map fun f => (p.toNat, f))
    (p.toNat < s.params.maxPts → x.nxi = x.nxv → o + recordSize x ≤ s.lim.toNat → ∃ t, exec (.wpnt p) s = .next t ∧
      t = { s with buf := t.buf, ofs := s.ofs + BitVec.ofNat 32 (recordSize x) } ∧
      RecordLayout t.buf o x ∧ SameOutside s.buf t.buf o (o + recordSize x)) ∧
    (stop = none ↔ o + recordSize x ≤ s.lim.toNat) ∧
    (∀ q e w, p.toNat < s.params.maxPts → x.nxi = x.nxv → stop = some (q, e, w) → ∃ t, exec (.wpnt p) s = .next t ∧
      t = { s with buf := t.buf, ecode := 1, eofs := BitVec.ofNat 32 e, eidx := p.setWidth 32 } ∧
      (∀ k, o + k < w → Memory.read t.buf (o + k) = x.touchPoint.wire.getD k 0) ∧ SameOutside s.buf t.buf o w) ∧
    (p.toNat < s.params.maxPts → x.nxi ≠ x.nxv →
      exec (.wpnt p) s = .next { s with ecode := 4, eofs := 0, eidx := p.setWidth 32 }) ∧
    (s.params.maxPts ≤ p.toNat → exec (.wpnt p) s = .next { s with ecode := 4, eofs := 0, eidx := 0 })

/-- Rules R101, R103, R104: RPNT makes the tests of ReadPoint in their order and reports the first that fails as
MalformedPacket at the offset of its field, with nothing else changed; a record that passes them all is committed to
the slot and OFS moves past it. For an operand that names no slot the outcome is rule R66's; that it is the command that
tests this is deduced (log entry 5). -/
def Obligations.RpntReadsTheRecordAtTheCursor : Prop :=
  (∀ p : BitVec 8, encode (.rpnt p) = 0x00000011 ||| (p.setWidth 32 <<< 8)) ∧
  ∀ (s : State) (p : BitVec 8), s.Inv →
    let o := s.ofs.toNat
    (p.toNat < s.params.maxPts → pointFault s.lim.toNat s.buf o = none → ∃ y : Slot,
      exec (.rpnt p) s =
        .next { s with slots := s.slots.set p.toNat y, ofs := BitVec.ofNat 32 (recordEnd s.buf o) } ∧
      recordEnd s.buf o ≤ s.lim.toNat ∧ Committed s.buf o (s.slot p.toNat) y) ∧
    (∀ e, p.toNat < s.params.maxPts → pointFault s.lim.toNat s.buf o = some e →
      exec (.rpnt p) s = .next { s with ecode := 2, eofs := BitVec.ofNat 32 e, eidx := p.setWidth 32 }) ∧
    (s.params.maxPts ≤ p.toNat → exec (.rpnt p) s = .next { s with ecode := 4, eofs := 0, eidx := 0 })

/-- The point round trip (after rule R101), between two instances: what a WPNT wrote, an RPNT at the same offset of a
buffer that agrees with it reads back, bit for bit. -/
def Obligations.PointRecordRoundTrip : Prop :=
  ∀ (s t r : State) (p q : BitVec 8), s.Inv → r.Inv → s.ecode = 0 → p.toNat < s.params.maxPts →
    q.toNat < r.params.maxPts → exec (.wpnt p) s = .next t → t.ecode = 0 →
    r.ofs = s.ofs → t.ofs.toNat ≤ r.lim.toNat →
    (∀ a, s.ofs.toNat ≤ a → a < t.ofs.toNat → Memory.read r.buf a = Memory.read t.buf a) →
    ∃ y : Slot, exec (.rpnt q) r = .next { r with slots := r.slots.set q.toNat y, ofs := t.ofs } ∧
      SameTouchPoint (s.slot p.toNat) y

/-! ### Packets -/

/-- Rule R112: WPKT writes the role tag and the records of slots 0 to NPT-1 from offset 0, where they fit, and OFS is
then the length of the packet by rule R62; the lowest slot with unequal extremum counts is refused with nothing
written; where a field does not fit, what was written before it stays. -/
def Obligations.WpktWritesThePacket : Prop :=
  encode .wpkt = 0x00000018 ∧ ∀ s : State, s.Inv →
    let n := s.npt.toNat
    let total := packetOffset s n
    let stop := writeStop s.lim.toNat 0 (packetFields s)
    ((∀ p < n, (s.slot p).nxi = (s.slot p).nxv) → total ≤ s.lim.toNat → ∃ t, exec .wpkt s = .next t ∧
      t = { s with buf := t.buf, ofs := BitVec.ofNat 32 total } ∧
      wordAt t.buf 0 = s.role ∧ (∀ p < n, RecordLayout t.buf (packetOffset s p) (s.slot p)) ∧
      SameOutside s.buf t.buf 0 total) ∧
    (stop = none ↔ total ≤ s.lim.toNat) ∧
    (∀ q e w, (∀ p < n, (s.slot p).nxi = (s.slot p).nxv) → stop = some (q, e, w) → ∃ t, exec .wpkt s = .next t ∧
      t = { s with buf := t.buf, ecode := 1, eofs := BitVec.ofNat 32 e, eidx := BitVec.ofNat 32 q } ∧
      (∀ a < w, Memory.read t.buf a = (packetWire s.role s.points).getD a 0) ∧ SameOutside s.buf t.buf 0 w) ∧
    (∀ q < n, (s.slot q).nxi ≠ (s.slot q).nxv → (∀ p < q, (s.slot p).nxi = (s.slot p).nxv) →
      exec .wpkt s = .next { s with ecode := 4, eofs := 0, eidx := BitVec.ofNat 32 q })

/-- Rules R111, R113: RPKT reads the role tag and NPT records from offset 0 and commits each as it is accepted. All
accepted, OFS is what was consumed, or with STRICT and unconsumed bytes the failure is MalformedPacket at the first of
them; the first record that is not accepted is reported with its slot; in both cases what was committed stays. -/
def Obligations.RpktReadsThePacket : Prop :=
  encode .rpkt = 0x00000019 ∧ ∀ s : State, s.Inv →
    let n := s.npt.toNat
    let lim := s.lim.toNat
    let start := recordStart s.buf
    (4 ≤ lim → (∀ p < n, pointFault lim s.buf (start p) = none) → (s.strict = true → start n = lim) → ∃ t,
      exec .rpkt s = .next t ∧
      t = { s with role := wordAt s.buf 0, slots := t.slots, ofs := BitVec.ofNat 32 (start n) } ∧
      start n ≤ lim ∧ t.slots.length = s.slots.length ∧
      (∀ p < n, Committed s.buf (start p) (s.slot p) (t.slot p)) ∧ ∀ p, n ≤ p → t.slot p = s.slot p) ∧
    (4 ≤ lim → (∀ p < n, pointFault lim s.buf (start p) = none) → s.strict = true → start n ≠ lim → ∃ t,
      exec .rpkt s = .next t ∧
      t = { s with role := wordAt s.buf 0, slots := t.slots, ecode := 2, eofs := BitVec.ofNat 32 (start n), eidx := 0 } ∧
      t.slots.length = s.slots.length ∧
      (∀ p < n, Committed s.buf (start p) (s.slot p) (t.slot p)) ∧ ∀ p, n ≤ p → t.slot p = s.slot p) ∧
    (∀ q e, 4 ≤ lim → q < n → (∀ p < q, pointFault lim s.buf (start p) = none) →
      pointFault lim s.buf (start q) = some e → ∃ t,
      exec .rpkt s = .next t ∧
      t = { s with role := wordAt s.buf 0, slots := t.slots, ecode := 2, eofs := BitVec.ofNat 32 e,
                   eidx := BitVec.ofNat 32 q } ∧
      t.slots.length = s.slots.length ∧
      (∀ p < q, Committed s.buf (start p) (s.slot p) (t.slot p)) ∧ ∀ p, q ≤ p → t.slot p = s.slot p) ∧
    (lim < 4 → exec .rpkt s = .next { s with ecode := 2, eofs := 0, eidx := 0 })

/-- The packet round trip (after rule R113), between two instances: a packet that WPKT wrote, in the buffer of a peer
with the same NPT whose LIM is the packet's length, or larger with STRICT clear, is read back by RPKT with the same
role tag and the same touch points, and the same number of bytes is consumed. -/
def Obligations.PacketRoundTrip : Prop :=
  ∀ s t r : State, s.Inv → r.Inv → s.ecode = 0 → exec .wpkt s = .next t → t.ecode = 0 →
    r.npt = s.npt → (∀ a < t.ofs.toNat, Memory.read r.buf a = Memory.read t.buf a) →
    t.ofs.toNat ≤ r.lim.toNat → (r.strict = true → r.lim = t.ofs) →
    ∃ u, exec .rpkt r = .next u ∧ u = { r with role := s.role, slots := u.slots, ofs := t.ofs } ∧
      (∀ p < s.npt.toNat, SameTouchPoint (s.slot p) (u.slot p)) ∧
      ∀ p, s.npt.toNat ≤ p → u.slot p = r.slot p

/-- Rule R60: RPKT accepts every packet of the grammar whose points have equal extremum counts, and leaves its role tag
and its touch points. -/
def Obligations.RpktAcceptsEveryPacketOfTheGrammar : Prop :=
  ∀ (s : State) (role : Word) (points : List TouchPoint), s.Inv → s.npt.toNat = points.length →
    (∀ p ∈ points, p.xi.length = p.xv.length) → packetSize points ≤ s.lim.toNat →
    (s.strict = true → packetSize points = s.lim.toNat) → Holds s.buf 0 (packetWire role points) →
    (packetWire role points).length = packetSize points ∧
    ∃ u, exec .rpkt s = .next u ∧
      u = { s with role := role, slots := u.slots, ofs := BitVec.ofNat 32 (packetSize points) } ∧
      ∀ p, (h : p < points.length) → (u.slot p).touchPoint = points[p]

/-- Rule R114: CKRL changes nothing when ROLE is 0 or 1 and reports UnknownRole otherwise. -/
def Obligations.CkrlReportsEveryOtherRole : Prop :=
  encode .ckrl = 0x00000020 ∧ ∀ s : State,
    (s.role.toInt = 0 ∨ s.role.toInt = 1 → exec .ckrl s = .next s) ∧
    (s.role.toInt ≠ 0 → s.role.toInt ≠ 1 → exec .ckrl s = .next { s with ecode := 3, eofs := 0, eidx := 0 })

/-- Decision D22: WPKT and RPKT do not read OFS. From two states that differ only there, they do the same, but for the
OFS that a failing one leaves as it was. -/
def Obligations.PacketCommandsDoNotReadTheCursor : Prop :=
  ∀ (s t : State) (o : Word) (i : Instr), i = .wpkt ∨ i = .rpkt → s.ecode = 0 → exec i s = .next t →
    exec i { s with ofs := o } = .next (if t.ecode = 0 then t else { t with ofs := o })

/-! ### Rescaling -/

/-- Rules R120 to R122: SCAL delivers the integer nearest to `value * 32768`, ties to even, where it is a 16-bit sample,
and reports RangeError with SCOUT unchanged otherwise and for a NaN or an infinity. (The tie rule and the failure are
the spec's decision D24.) -/
def Obligations.ScalDeliversTheNearestSample : Prop :=
  encode .scal = 0x00000021 ∧ ∀ s : State,
    let d := s.scinHi.toNat * 2 ^ 32 + s.scinLo.toNat
    (realValue d = none → exec .scal s = .next { s with ecode := 5, eofs := 0, eidx := 0 }) ∧
    ∀ x, realValue d = some x → ∃ r : ℤ, NearestEven (x * 32768) r ∧ (∀ r', NearestEven (x * 32768) r' → r' = r) ∧
      exec .scal s = .next (if -32768 ≤ r ∧ r ≤ 32767 then { s with scout := BitVec.ofInt 32 r }
        else { s with ecode := 5, eofs := 0, eidx := 0 })

/-! ### Rules over all commands -/

/-- Rule R11: no command writes a byte of BUF at or above LIM, and only WINT, WBLB, WPNT and WPKT write BUF at all. -/
def Obligations.NoCommandWritesAtOrAboveLim : Prop :=
  ∀ (s t : State) (i : Instr), s.Inv → exec i s = .next t →
    (∀ a, s.lim.toNat ≤ a → Memory.read t.buf a = Memory.read s.buf a) ∧ (writesBuf i = false → t.buf = s.buf)

/-- Rule R11: no command reads a byte of BUF at or above LIM. Two states whose buffers agree below LIM and that agree
otherwise come out alike in everything but the bytes of BUF at or above LIM. -/
def Obligations.NoCommandReadsAtOrAboveLim : Prop :=
  ∀ (s t : State) (i : Instr) (m : Memory 8), s.Inv → m.wf →
    (∀ a < s.lim.toNat, Memory.read m a = Memory.read s.buf a) → exec i s = .next t →
    ∃ m', exec i { s with buf := m } = .next { t with buf := m' } ∧
      (∀ a < s.lim.toNat, Memory.read m' a = Memory.read t.buf a) ∧ SameFrom m m' s.lim.toNat

/-- Rule R24: the elements at or above a count are never read by any command. Take two states that agree but for the
blob and the slots, where the blobs show the same bytes and the slots the same touch points. The commands that only read
a staging memory do exactly the same from both. Every command does the same to everything but BLOB and the slots, and
leaves blobs that show the same bytes and slots that show the same touch points; the elements at and above the new counts
are the ones that were there before, in each of the two. -/
def Obligations.StaleElementsAreNeverRead : Prop :=
  ∀ (s t : State) (i : Instr) (l : List Slot) (b : Memory 8),
    l.length = s.slots.length → (∀ p < l.length, SameTouchPoint (s.slot p) (slotAt l p)) →
    (∀ a < s.blen.toNat, Memory.read b a = Memory.read s.blob a) →
    (i = .wblb ∨ (∃ p, i = .unpk p) → exec i s = .next t → exec i { s with blob := b } = .next { t with blob := b }) ∧
    (i = .wpkt ∨ (∃ p, i = .wpnt p) ∨ (∃ p, i = .pack p) → exec i s = .next t →
      exec i { s with slots := l } = .next { t with slots := l }) ∧
    (s.Inv → State.Inv { s with blob := b, slots := l } → exec i s = .next t → ∃ b' l',
      exec i { s with blob := b, slots := l } = .next { t with blob := b', slots := l' } ∧
      (∀ a < t.blen.toNat, Memory.read b' a = Memory.read t.blob a) ∧ SameFrom b b' t.blen.toNat ∧
      l'.length = l.length ∧
      ∀ p, SameTouchPoint (t.slot p) (slotAt l' p) ∧ SameStaleElements (t.slot p) (slotAt l p) (slotAt l' p))

/-- Rules R12, R133, R137: a command that fails leaves OFS and every operand register as they were; only WBLB, WPNT and
WPKT may have written BUF before the failure, and only RPKT may have committed a role tag or slots. -/
def Obligations.FailingCommandKeepsCursorAndOperands : Prop :=
  ∀ (s t : State) (i : Instr), s.ecode = 0 → exec i s = .next t → t.ecode ≠ 0 →
    t = { s with buf := t.buf, role := t.role, slots := t.slots, ecode := t.ecode, eofs := t.eofs, eidx := t.eidx } ∧
    (i ≠ .wblb → i ≠ .wpkt → (∀ p, i ≠ .wpnt p) → t.buf = s.buf) ∧ (t.ecode ≠ 1 → t.buf = s.buf) ∧
    (i ≠ .rpkt → t.role = s.role ∧ t.slots = s.slots)

/-- Rules R12, R16: a command that succeeds leaves OFS as it was or at most LIM, so that OFS never wraps, and only CLRE
changes EOFS and EIDX without recording a failure. -/
def Obligations.SuccessKeepsOfsWithinLimAndTheRecord : Prop :=
  ∀ (s t : State) (i : Instr), s.Inv → s.ecode = 0 → exec i s = .next t → t.ecode = 0 →
    (t.ofs = s.ofs ∨ t.ofs.toNat ≤ s.lim.toNat) ∧ (i ≠ .clre → t.eofs = s.eofs ∧ t.eidx = s.eidx)

/-- Rule R132: which command can raise which failure. A slot command raises IllegalCommand(0, 0) besides when its
operand names no slot (rule R66). -/
def Obligations.EachCommandRaisesOnlyItsFailures : Prop :=
  ∀ (s t : State) (i : Instr), s.ecode = 0 → exec i s = .next t → t.ecode ≠ 0 → t.ecode ∈ failuresOf i

/-- Rules R11 to R29, R133: which pieces of state each command may write, whether it succeeds or fails. Only WINT, WBLB,
WPNT and WPKT write BUF; only RINT writes VAL; only RBLB and PACK write BLOB and BLEN; only RPKT writes ROLE; only SCAL
writes SCOUT; only UNPK, RPNT and RPKT write slots, UNPK p and RPNT p no slot but `p`, UNPK no extremum part, and RPKT no
slot from NPT on; PACK, UNPK, CKRL, SCAL, NOP and CLRE do not write OFS; CLRE clears ECODE, EOFS and EIDX, and any other
command leaves all three as they were or fails with one of its failures (for a slot command IllegalCommand among them, log
entry 5); and no command writes LIM, NPT, CTRL, SCIN or the parameters, nor the port and the reply, which are the model's
own fields (log entry 2). -/
def Obligations.EachCommandWritesOnlyItsOwnState : Prop :=
  ∀ (s t : State) (i : Instr), exec i s = .next t →
    t.params = s.params ∧ t.lim = s.lim ∧ t.npt = s.npt ∧ t.strict = s.strict ∧ t.scinLo = s.scinLo ∧
    t.scinHi = s.scinHi ∧ t.port = s.port ∧ t.reply = s.reply ∧
    (writesBuf i = false → t.buf = s.buf) ∧
    (i ≠ .rint → t.val = s.val) ∧ (i ≠ .rblb → (∀ p, i ≠ .pack p) → t.blob = s.blob ∧ t.blen = s.blen) ∧
    (i ≠ .rpkt → t.role = s.role) ∧ (i ≠ .scal → t.scout = s.scout) ∧
    (i ≠ .rpkt → (∀ p, i ≠ .unpk p) → (∀ p, i ≠ .rpnt p) → t.slots = s.slots) ∧
    t.slots.length = s.slots.length ∧
    (∀ (a : BitVec 8) (q : Nat), i = .unpk a ∨ i = .rpnt a → q ≠ a.toNat → t.slot q = s.slot q) ∧
    (∀ (a : BitVec 8) (q : Nat), i = .unpk a →
      t.slot q = { s.slot q with nbits := (t.slot q).nbits, bits := (t.slot q).bits }) ∧
    (i = .rpkt → ∀ q, s.npt.toNat ≤ q → t.slot q = s.slot q) ∧
    ((∃ p, i = .pack p) ∨ (∃ p, i = .unpk p) ∨ i = .ckrl ∨ i = .scal ∨ i = .nop ∨ i = .clre → t.ofs = s.ofs) ∧
    (i = .clre → t.ecode = 0 ∧ t.eofs = 0 ∧ t.eidx = 0) ∧
    (i ≠ .clre → (t.ecode = s.ecode ∧ t.eofs = s.eofs ∧ t.eidx = s.eidx) ∨ t.ecode ∈ failuresOf i)
end

