-- ==== Sys2Proof/Laws/State.lean ====
section
/-!
SUPPORT. The state record: for each update, one lemma per field saying what it holds afterwards. All are true by
definition; with them no later proof unfolds an update.
-/

namespace Sys2Proof.Machine

/-! ### withBuf -/

@[simp] theorem State.withBuf_params (s : State) (b : Memory 8) : (s.withBuf b).params = s.params := rfl
@[simp] theorem State.withBuf_buf (s : State) (b : Memory 8) : (s.withBuf b).buf = b := rfl
@[simp] theorem State.withBuf_ofs (s : State) (b : Memory 8) : (s.withBuf b).ofs = s.ofs := rfl
@[simp] theorem State.withBuf_lim (s : State) (b : Memory 8) : (s.withBuf b).lim = s.lim := rfl
@[simp] theorem State.withBuf_val (s : State) (b : Memory 8) : (s.withBuf b).val = s.val := rfl
@[simp] theorem State.withBuf_blob (s : State) (b : Memory 8) : (s.withBuf b).blob = s.blob := rfl
@[simp] theorem State.withBuf_blen (s : State) (b : Memory 8) : (s.withBuf b).blen = s.blen := rfl
@[simp] theorem State.withBuf_role (s : State) (b : Memory 8) : (s.withBuf b).role = s.role := rfl
@[simp] theorem State.withBuf_npt (s : State) (b : Memory 8) : (s.withBuf b).npt = s.npt := rfl
@[simp] theorem State.withBuf_strict (s : State) (b : Memory 8) : (s.withBuf b).strict = s.strict := rfl
@[simp] theorem State.withBuf_ecode (s : State) (b : Memory 8) : (s.withBuf b).ecode = s.ecode := rfl
@[simp] theorem State.withBuf_eofs (s : State) (b : Memory 8) : (s.withBuf b).eofs = s.eofs := rfl
@[simp] theorem State.withBuf_eidx (s : State) (b : Memory 8) : (s.withBuf b).eidx = s.eidx := rfl
@[simp] theorem State.withBuf_scinLo (s : State) (b : Memory 8) : (s.withBuf b).scinLo = s.scinLo := rfl
@[simp] theorem State.withBuf_scinHi (s : State) (b : Memory 8) : (s.withBuf b).scinHi = s.scinHi := rfl
@[simp] theorem State.withBuf_scout (s : State) (b : Memory 8) : (s.withBuf b).scout = s.scout := rfl
@[simp] theorem State.withBuf_slots (s : State) (b : Memory 8) : (s.withBuf b).slots = s.slots := rfl
@[simp] theorem State.withBuf_port (s : State) (b : Memory 8) : (s.withBuf b).port = s.port := rfl
@[simp] theorem State.withBuf_reply (s : State) (b : Memory 8) : (s.withBuf b).reply = s.reply := rfl

/-! ### withOfs -/

@[simp] theorem State.withOfs_params (s : State) (o : Nat) : (s.withOfs o).params = s.params := rfl
@[simp] theorem State.withOfs_buf (s : State) (o : Nat) : (s.withOfs o).buf = s.buf := rfl
@[simp] theorem State.withOfs_ofs (s : State) (o : Nat) : (s.withOfs o).ofs = trunc32 o := rfl
@[simp] theorem State.withOfs_lim (s : State) (o : Nat) : (s.withOfs o).lim = s.lim := rfl
@[simp] theorem State.withOfs_val (s : State) (o : Nat) : (s.withOfs o).val = s.val := rfl
@[simp] theorem State.withOfs_blob (s : State) (o : Nat) : (s.withOfs o).blob = s.blob := rfl
@[simp] theorem State.withOfs_blen (s : State) (o : Nat) : (s.withOfs o).blen = s.blen := rfl
@[simp] theorem State.withOfs_role (s : State) (o : Nat) : (s.withOfs o).role = s.role := rfl
@[simp] theorem State.withOfs_npt (s : State) (o : Nat) : (s.withOfs o).npt = s.npt := rfl
@[simp] theorem State.withOfs_strict (s : State) (o : Nat) : (s.withOfs o).strict = s.strict := rfl
@[simp] theorem State.withOfs_ecode (s : State) (o : Nat) : (s.withOfs o).ecode = s.ecode := rfl
@[simp] theorem State.withOfs_eofs (s : State) (o : Nat) : (s.withOfs o).eofs = s.eofs := rfl
@[simp] theorem State.withOfs_eidx (s : State) (o : Nat) : (s.withOfs o).eidx = s.eidx := rfl
@[simp] theorem State.withOfs_scinLo (s : State) (o : Nat) : (s.withOfs o).scinLo = s.scinLo := rfl
@[simp] theorem State.withOfs_scinHi (s : State) (o : Nat) : (s.withOfs o).scinHi = s.scinHi := rfl
@[simp] theorem State.withOfs_scout (s : State) (o : Nat) : (s.withOfs o).scout = s.scout := rfl
@[simp] theorem State.withOfs_slots (s : State) (o : Nat) : (s.withOfs o).slots = s.slots := rfl
@[simp] theorem State.withOfs_port (s : State) (o : Nat) : (s.withOfs o).port = s.port := rfl
@[simp] theorem State.withOfs_reply (s : State) (o : Nat) : (s.withOfs o).reply = s.reply := rfl

/-! ### withVal -/

@[simp] theorem State.withVal_params (s : State) (v : Word) : (s.withVal v).params = s.params := rfl
@[simp] theorem State.withVal_buf (s : State) (v : Word) : (s.withVal v).buf = s.buf := rfl
@[simp] theorem State.withVal_ofs (s : State) (v : Word) : (s.withVal v).ofs = s.ofs := rfl
@[simp] theorem State.withVal_lim (s : State) (v : Word) : (s.withVal v).lim = s.lim := rfl
@[simp] theorem State.withVal_val (s : State) (v : Word) : (s.withVal v).val = v := rfl
@[simp] theorem State.withVal_blob (s : State) (v : Word) : (s.withVal v).blob = s.blob := rfl
@[simp] theorem State.withVal_blen (s : State) (v : Word) : (s.withVal v).blen = s.blen := rfl
@[simp] theorem State.withVal_role (s : State) (v : Word) : (s.withVal v).role = s.role := rfl
@[simp] theorem State.withVal_npt (s : State) (v : Word) : (s.withVal v).npt = s.npt := rfl
@[simp] theorem State.withVal_strict (s : State) (v : Word) : (s.withVal v).strict = s.strict := rfl
@[simp] theorem State.withVal_ecode (s : State) (v : Word) : (s.withVal v).ecode = s.ecode := rfl
@[simp] theorem State.withVal_eofs (s : State) (v : Word) : (s.withVal v).eofs = s.eofs := rfl
@[simp] theorem State.withVal_eidx (s : State) (v : Word) : (s.withVal v).eidx = s.eidx := rfl
@[simp] theorem State.withVal_scinLo (s : State) (v : Word) : (s.withVal v).scinLo = s.scinLo := rfl
@[simp] theorem State.withVal_scinHi (s : State) (v : Word) : (s.withVal v).scinHi = s.scinHi := rfl
@[simp] theorem State.withVal_scout (s : State) (v : Word) : (s.withVal v).scout = s.scout := rfl
@[simp] theorem State.withVal_slots (s : State) (v : Word) : (s.withVal v).slots = s.slots := rfl
@[simp] theorem State.withVal_port (s : State) (v : Word) : (s.withVal v).port = s.port := rfl
@[simp] theorem State.withVal_reply (s : State) (v : Word) : (s.withVal v).reply = s.reply := rfl

/-! ### withBlobSeq -/

@[simp] theorem State.withBlobSeq_params (s : State) (b : List Byte) : (s.withBlobSeq b).params = s.params := rfl
@[simp] theorem State.withBlobSeq_buf (s : State) (b : List Byte) : (s.withBlobSeq b).buf = s.buf := rfl
@[simp] theorem State.withBlobSeq_ofs (s : State) (b : List Byte) : (s.withBlobSeq b).ofs = s.ofs := rfl
@[simp] theorem State.withBlobSeq_lim (s : State) (b : List Byte) : (s.withBlobSeq b).lim = s.lim := rfl
@[simp] theorem State.withBlobSeq_val (s : State) (b : List Byte) : (s.withBlobSeq b).val = s.val := rfl
@[simp] theorem State.withBlobSeq_blob (s : State) (b : List Byte) : (s.withBlobSeq b).blob = s.blob.writeSeq 0 b := rfl
@[simp] theorem State.withBlobSeq_blen (s : State) (b : List Byte) : (s.withBlobSeq b).blen = trunc32 b.length := rfl
@[simp] theorem State.withBlobSeq_role (s : State) (b : List Byte) : (s.withBlobSeq b).role = s.role := rfl
@[simp] theorem State.withBlobSeq_npt (s : State) (b : List Byte) : (s.withBlobSeq b).npt = s.npt := rfl
@[simp] theorem State.withBlobSeq_strict (s : State) (b : List Byte) : (s.withBlobSeq b).strict = s.strict := rfl
@[simp] theorem State.withBlobSeq_ecode (s : State) (b : List Byte) : (s.withBlobSeq b).ecode = s.ecode := rfl
@[simp] theorem State.withBlobSeq_eofs (s : State) (b : List Byte) : (s.withBlobSeq b).eofs = s.eofs := rfl
@[simp] theorem State.withBlobSeq_eidx (s : State) (b : List Byte) : (s.withBlobSeq b).eidx = s.eidx := rfl
@[simp] theorem State.withBlobSeq_scinLo (s : State) (b : List Byte) : (s.withBlobSeq b).scinLo = s.scinLo := rfl
@[simp] theorem State.withBlobSeq_scinHi (s : State) (b : List Byte) : (s.withBlobSeq b).scinHi = s.scinHi := rfl
@[simp] theorem State.withBlobSeq_scout (s : State) (b : List Byte) : (s.withBlobSeq b).scout = s.scout := rfl
@[simp] theorem State.withBlobSeq_slots (s : State) (b : List Byte) : (s.withBlobSeq b).slots = s.slots := rfl
@[simp] theorem State.withBlobSeq_port (s : State) (b : List Byte) : (s.withBlobSeq b).port = s.port := rfl
@[simp] theorem State.withBlobSeq_reply (s : State) (b : List Byte) : (s.withBlobSeq b).reply = s.reply := rfl

/-! ### withRole -/

@[simp] theorem State.withRole_params (s : State) (v : Word) : (s.withRole v).params = s.params := rfl
@[simp] theorem State.withRole_buf (s : State) (v : Word) : (s.withRole v).buf = s.buf := rfl
@[simp] theorem State.withRole_ofs (s : State) (v : Word) : (s.withRole v).ofs = s.ofs := rfl
@[simp] theorem State.withRole_lim (s : State) (v : Word) : (s.withRole v).lim = s.lim := rfl
@[simp] theorem State.withRole_val (s : State) (v : Word) : (s.withRole v).val = s.val := rfl
@[simp] theorem State.withRole_blob (s : State) (v : Word) : (s.withRole v).blob = s.blob := rfl
@[simp] theorem State.withRole_blen (s : State) (v : Word) : (s.withRole v).blen = s.blen := rfl
@[simp] theorem State.withRole_role (s : State) (v : Word) : (s.withRole v).role = v := rfl
@[simp] theorem State.withRole_npt (s : State) (v : Word) : (s.withRole v).npt = s.npt := rfl
@[simp] theorem State.withRole_strict (s : State) (v : Word) : (s.withRole v).strict = s.strict := rfl
@[simp] theorem State.withRole_ecode (s : State) (v : Word) : (s.withRole v).ecode = s.ecode := rfl
@[simp] theorem State.withRole_eofs (s : State) (v : Word) : (s.withRole v).eofs = s.eofs := rfl
@[simp] theorem State.withRole_eidx (s : State) (v : Word) : (s.withRole v).eidx = s.eidx := rfl
@[simp] theorem State.withRole_scinLo (s : State) (v : Word) : (s.withRole v).scinLo = s.scinLo := rfl
@[simp] theorem State.withRole_scinHi (s : State) (v : Word) : (s.withRole v).scinHi = s.scinHi := rfl
@[simp] theorem State.withRole_scout (s : State) (v : Word) : (s.withRole v).scout = s.scout := rfl
@[simp] theorem State.withRole_slots (s : State) (v : Word) : (s.withRole v).slots = s.slots := rfl
@[simp] theorem State.withRole_port (s : State) (v : Word) : (s.withRole v).port = s.port := rfl
@[simp] theorem State.withRole_reply (s : State) (v : Word) : (s.withRole v).reply = s.reply := rfl

/-! ### withScout -/

@[simp] theorem State.withScout_params (s : State) (v : Word) : (s.withScout v).params = s.params := rfl
@[simp] theorem State.withScout_buf (s : State) (v : Word) : (s.withScout v).buf = s.buf := rfl
@[simp] theorem State.withScout_ofs (s : State) (v : Word) : (s.withScout v).ofs = s.ofs := rfl
@[simp] theorem State.withScout_lim (s : State) (v : Word) : (s.withScout v).lim = s.lim := rfl
@[simp] theorem State.withScout_val (s : State) (v : Word) : (s.withScout v).val = s.val := rfl
@[simp] theorem State.withScout_blob (s : State) (v : Word) : (s.withScout v).blob = s.blob := rfl
@[simp] theorem State.withScout_blen (s : State) (v : Word) : (s.withScout v).blen = s.blen := rfl
@[simp] theorem State.withScout_role (s : State) (v : Word) : (s.withScout v).role = s.role := rfl
@[simp] theorem State.withScout_npt (s : State) (v : Word) : (s.withScout v).npt = s.npt := rfl
@[simp] theorem State.withScout_strict (s : State) (v : Word) : (s.withScout v).strict = s.strict := rfl
@[simp] theorem State.withScout_ecode (s : State) (v : Word) : (s.withScout v).ecode = s.ecode := rfl
@[simp] theorem State.withScout_eofs (s : State) (v : Word) : (s.withScout v).eofs = s.eofs := rfl
@[simp] theorem State.withScout_eidx (s : State) (v : Word) : (s.withScout v).eidx = s.eidx := rfl
@[simp] theorem State.withScout_scinLo (s : State) (v : Word) : (s.withScout v).scinLo = s.scinLo := rfl
@[simp] theorem State.withScout_scinHi (s : State) (v : Word) : (s.withScout v).scinHi = s.scinHi := rfl
@[simp] theorem State.withScout_scout (s : State) (v : Word) : (s.withScout v).scout = v := rfl
@[simp] theorem State.withScout_slots (s : State) (v : Word) : (s.withScout v).slots = s.slots := rfl
@[simp] theorem State.withScout_port (s : State) (v : Word) : (s.withScout v).port = s.port := rfl
@[simp] theorem State.withScout_reply (s : State) (v : Word) : (s.withScout v).reply = s.reply := rfl

/-! ### withSlots -/

@[simp] theorem State.withSlots_params (s : State) (l : List Slot) : (s.withSlots l).params = s.params := rfl
@[simp] theorem State.withSlots_buf (s : State) (l : List Slot) : (s.withSlots l).buf = s.buf := rfl
@[simp] theorem State.withSlots_ofs (s : State) (l : List Slot) : (s.withSlots l).ofs = s.ofs := rfl
@[simp] theorem State.withSlots_lim (s : State) (l : List Slot) : (s.withSlots l).lim = s.lim := rfl
@[simp] theorem State.withSlots_val (s : State) (l : List Slot) : (s.withSlots l).val = s.val := rfl
@[simp] theorem State.withSlots_blob (s : State) (l : List Slot) : (s.withSlots l).blob = s.blob := rfl
@[simp] theorem State.withSlots_blen (s : State) (l : List Slot) : (s.withSlots l).blen = s.blen := rfl
@[simp] theorem State.withSlots_role (s : State) (l : List Slot) : (s.withSlots l).role = s.role := rfl
@[simp] theorem State.withSlots_npt (s : State) (l : List Slot) : (s.withSlots l).npt = s.npt := rfl
@[simp] theorem State.withSlots_strict (s : State) (l : List Slot) : (s.withSlots l).strict = s.strict := rfl
@[simp] theorem State.withSlots_ecode (s : State) (l : List Slot) : (s.withSlots l).ecode = s.ecode := rfl
@[simp] theorem State.withSlots_eofs (s : State) (l : List Slot) : (s.withSlots l).eofs = s.eofs := rfl
@[simp] theorem State.withSlots_eidx (s : State) (l : List Slot) : (s.withSlots l).eidx = s.eidx := rfl
@[simp] theorem State.withSlots_scinLo (s : State) (l : List Slot) : (s.withSlots l).scinLo = s.scinLo := rfl
@[simp] theorem State.withSlots_scinHi (s : State) (l : List Slot) : (s.withSlots l).scinHi = s.scinHi := rfl
@[simp] theorem State.withSlots_scout (s : State) (l : List Slot) : (s.withSlots l).scout = s.scout := rfl
@[simp] theorem State.withSlots_slots (s : State) (l : List Slot) : (s.withSlots l).slots = l := rfl
@[simp] theorem State.withSlots_port (s : State) (l : List Slot) : (s.withSlots l).port = s.port := rfl
@[simp] theorem State.withSlots_reply (s : State) (l : List Slot) : (s.withSlots l).reply = s.reply := rfl

/-! ### setSlot -/

@[simp] theorem State.setSlot_params (s : State) (p : Nat) (x : Slot) : (s.setSlot p x).params = s.params := rfl
@[simp] theorem State.setSlot_buf (s : State) (p : Nat) (x : Slot) : (s.setSlot p x).buf = s.buf := rfl
@[simp] theorem State.setSlot_ofs (s : State) (p : Nat) (x : Slot) : (s.setSlot p x).ofs = s.ofs := rfl
@[simp] theorem State.setSlot_lim (s : State) (p : Nat) (x : Slot) : (s.setSlot p x).lim = s.lim := rfl
@[simp] theorem State.setSlot_val (s : State) (p : Nat) (x : Slot) : (s.setSlot p x).val = s.val := rfl
@[simp] theorem State.setSlot_blob (s : State) (p : Nat) (x : Slot) : (s.setSlot p x).blob = s.blob := rfl
@[simp] theorem State.setSlot_blen (s : State) (p : Nat) (x : Slot) : (s.setSlot p x).blen = s.blen := rfl
@[simp] theorem State.setSlot_role (s : State) (p : Nat) (x : Slot) : (s.setSlot p x).role = s.role := rfl
@[simp] theorem State.setSlot_npt (s : State) (p : Nat) (x : Slot) : (s.setSlot p x).npt = s.npt := rfl
@[simp] theorem State.setSlot_strict (s : State) (p : Nat) (x : Slot) : (s.setSlot p x).strict = s.strict := rfl
@[simp] theorem State.setSlot_ecode (s : State) (p : Nat) (x : Slot) : (s.setSlot p x).ecode = s.ecode := rfl
@[simp] theorem State.setSlot_eofs (s : State) (p : Nat) (x : Slot) : (s.setSlot p x).eofs = s.eofs := rfl
@[simp] theorem State.setSlot_eidx (s : State) (p : Nat) (x : Slot) : (s.setSlot p x).eidx = s.eidx := rfl
@[simp] theorem State.setSlot_scinLo (s : State) (p : Nat) (x : Slot) : (s.setSlot p x).scinLo = s.scinLo := rfl
@[simp] theorem State.setSlot_scinHi (s : State) (p : Nat) (x : Slot) : (s.setSlot p x).scinHi = s.scinHi := rfl
@[simp] theorem State.setSlot_scout (s : State) (p : Nat) (x : Slot) : (s.setSlot p x).scout = s.scout := rfl
@[simp] theorem State.setSlot_slots (s : State) (p : Nat) (x : Slot) : (s.setSlot p x).slots = s.slots.set p x := rfl
@[simp] theorem State.setSlot_port (s : State) (p : Nat) (x : Slot) : (s.setSlot p x).port = s.port := rfl
@[simp] theorem State.setSlot_reply (s : State) (p : Nat) (x : Slot) : (s.setSlot p x).reply = s.reply := rfl

/-! ### raise -/

@[simp] theorem State.raise_params (s : State) (f : Failure) (o i : Nat) : (s.raise f o i).params = s.params := rfl
@[simp] theorem State.raise_buf (s : State) (f : Failure) (o i : Nat) : (s.raise f o i).buf = s.buf := rfl
@[simp] theorem State.raise_ofs (s : State) (f : Failure) (o i : Nat) : (s.raise f o i).ofs = s.ofs := rfl
@[simp] theorem State.raise_lim (s : State) (f : Failure) (o i : Nat) : (s.raise f o i).lim = s.lim := rfl
@[simp] theorem State.raise_val (s : State) (f : Failure) (o i : Nat) : (s.raise f o i).val = s.val := rfl
@[simp] theorem State.raise_blob (s : State) (f : Failure) (o i : Nat) : (s.raise f o i).blob = s.blob := rfl
@[simp] theorem State.raise_blen (s : State) (f : Failure) (o i : Nat) : (s.raise f o i).blen = s.blen := rfl
@[simp] theorem State.raise_role (s : State) (f : Failure) (o i : Nat) : (s.raise f o i).role = s.role := rfl
@[simp] theorem State.raise_npt (s : State) (f : Failure) (o i : Nat) : (s.raise f o i).npt = s.npt := rfl
@[simp] theorem State.raise_strict (s : State) (f : Failure) (o i : Nat) : (s.raise f o i).strict = s.strict := rfl
@[simp] theorem State.raise_ecode (s : State) (f : Failure) (o i : Nat) : (s.raise f o i).ecode = f.code := rfl
@[simp] theorem State.raise_eofs (s : State) (f : Failure) (o i : Nat) : (s.raise f o i).eofs = trunc32 o := rfl
@[simp] theorem State.raise_eidx (s : State) (f : Failure) (o i : Nat) : (s.raise f o i).eidx = trunc32 i := rfl
@[simp] theorem State.raise_scinLo (s : State) (f : Failure) (o i : Nat) : (s.raise f o i).scinLo = s.scinLo := rfl
@[simp] theorem State.raise_scinHi (s : State) (f : Failure) (o i : Nat) : (s.raise f o i).scinHi = s.scinHi := rfl
@[simp] theorem State.raise_scout (s : State) (f : Failure) (o i : Nat) : (s.raise f o i).scout = s.scout := rfl
@[simp] theorem State.raise_slots (s : State) (f : Failure) (o i : Nat) : (s.raise f o i).slots = s.slots := rfl
@[simp] theorem State.raise_port (s : State) (f : Failure) (o i : Nat) : (s.raise f o i).port = s.port := rfl
@[simp] theorem State.raise_reply (s : State) (f : Failure) (o i : Nat) : (s.raise f o i).reply = s.reply := rfl

/-! ### raiseReport -/

@[simp] theorem State.raiseReport_params (s : State) (r : Report) : (s.raiseReport r).params = s.params := rfl
@[simp] theorem State.raiseReport_buf (s : State) (r : Report) : (s.raiseReport r).buf = s.buf := rfl
@[simp] theorem State.raiseReport_ofs (s : State) (r : Report) : (s.raiseReport r).ofs = s.ofs := rfl
@[simp] theorem State.raiseReport_lim (s : State) (r : Report) : (s.raiseReport r).lim = s.lim := rfl
@[simp] theorem State.raiseReport_val (s : State) (r : Report) : (s.raiseReport r).val = s.val := rfl
@[simp] theorem State.raiseReport_blob (s : State) (r : Report) : (s.raiseReport r).blob = s.blob := rfl
@[simp] theorem State.raiseReport_blen (s : State) (r : Report) : (s.raiseReport r).blen = s.blen := rfl
@[simp] theorem State.raiseReport_role (s : State) (r : Report) : (s.raiseReport r).role = s.role := rfl
@[simp] theorem State.raiseReport_npt (s : State) (r : Report) : (s.raiseReport r).npt = s.npt := rfl
@[simp] theorem State.raiseReport_strict (s : State) (r : Report) : (s.raiseReport r).strict = s.strict := rfl
@[simp] theorem State.raiseReport_ecode (s : State) (r : Report) : (s.raiseReport r).ecode = r.failure.code := rfl
@[simp] theorem State.raiseReport_eofs (s : State) (r : Report) : (s.raiseReport r).eofs = trunc32 r.eofs := rfl
@[simp] theorem State.raiseReport_eidx (s : State) (r : Report) : (s.raiseReport r).eidx = trunc32 r.eidx := rfl
@[simp] theorem State.raiseReport_scinLo (s : State) (r : Report) : (s.raiseReport r).scinLo = s.scinLo := rfl
@[simp] theorem State.raiseReport_scinHi (s : State) (r : Report) : (s.raiseReport r).scinHi = s.scinHi := rfl
@[simp] theorem State.raiseReport_scout (s : State) (r : Report) : (s.raiseReport r).scout = s.scout := rfl
@[simp] theorem State.raiseReport_slots (s : State) (r : Report) : (s.raiseReport r).slots = s.slots := rfl
@[simp] theorem State.raiseReport_port (s : State) (r : Report) : (s.raiseReport r).port = s.port := rfl
@[simp] theorem State.raiseReport_reply (s : State) (r : Report) : (s.raiseReport r).reply = s.reply := rfl

/-! ### clearFailure -/

@[simp] theorem State.clearFailure_params (s : State) : s.clearFailure.params = s.params := rfl
@[simp] theorem State.clearFailure_buf (s : State) : s.clearFailure.buf = s.buf := rfl
@[simp] theorem State.clearFailure_ofs (s : State) : s.clearFailure.ofs = s.ofs := rfl
@[simp] theorem State.clearFailure_lim (s : State) : s.clearFailure.lim = s.lim := rfl
@[simp] theorem State.clearFailure_val (s : State) : s.clearFailure.val = s.val := rfl
@[simp] theorem State.clearFailure_blob (s : State) : s.clearFailure.blob = s.blob := rfl
@[simp] theorem State.clearFailure_blen (s : State) : s.clearFailure.blen = s.blen := rfl
@[simp] theorem State.clearFailure_role (s : State) : s.clearFailure.role = s.role := rfl
@[simp] theorem State.clearFailure_npt (s : State) : s.clearFailure.npt = s.npt := rfl
@[simp] theorem State.clearFailure_strict (s : State) : s.clearFailure.strict = s.strict := rfl
@[simp] theorem State.clearFailure_ecode (s : State) : s.clearFailure.ecode = 0 := rfl
@[simp] theorem State.clearFailure_eofs (s : State) : s.clearFailure.eofs = 0 := rfl
@[simp] theorem State.clearFailure_eidx (s : State) : s.clearFailure.eidx = 0 := rfl
@[simp] theorem State.clearFailure_scinLo (s : State) : s.clearFailure.scinLo = s.scinLo := rfl
@[simp] theorem State.clearFailure_scinHi (s : State) : s.clearFailure.scinHi = s.scinHi := rfl
@[simp] theorem State.clearFailure_scout (s : State) : s.clearFailure.scout = s.scout := rfl
@[simp] theorem State.clearFailure_slots (s : State) : s.clearFailure.slots = s.slots := rfl
@[simp] theorem State.clearFailure_port (s : State) : s.clearFailure.port = s.port := rfl
@[simp] theorem State.clearFailure_reply (s : State) : s.clearFailure.reply = s.reply := rfl

/-! ### withPort -/

@[simp] theorem State.withPort_params (s : State) (l : List HostEvent) : (s.withPort l).params = s.params := rfl
@[simp] theorem State.withPort_buf (s : State) (l : List HostEvent) : (s.withPort l).buf = s.buf := rfl
@[simp] theorem State.withPort_ofs (s : State) (l : List HostEvent) : (s.withPort l).ofs = s.ofs := rfl
@[simp] theorem State.withPort_lim (s : State) (l : List HostEvent) : (s.withPort l).lim = s.lim := rfl
@[simp] theorem State.withPort_val (s : State) (l : List HostEvent) : (s.withPort l).val = s.val := rfl
@[simp] theorem State.withPort_blob (s : State) (l : List HostEvent) : (s.withPort l).blob = s.blob := rfl
@[simp] theorem State.withPort_blen (s : State) (l : List HostEvent) : (s.withPort l).blen = s.blen := rfl
@[simp] theorem State.withPort_role (s : State) (l : List HostEvent) : (s.withPort l).role = s.role := rfl
@[simp] theorem State.withPort_npt (s : State) (l : List HostEvent) : (s.withPort l).npt = s.npt := rfl
@[simp] theorem State.withPort_strict (s : State) (l : List HostEvent) : (s.withPort l).strict = s.strict := rfl
@[simp] theorem State.withPort_ecode (s : State) (l : List HostEvent) : (s.withPort l).ecode = s.ecode := rfl
@[simp] theorem State.withPort_eofs (s : State) (l : List HostEvent) : (s.withPort l).eofs = s.eofs := rfl
@[simp] theorem State.withPort_eidx (s : State) (l : List HostEvent) : (s.withPort l).eidx = s.eidx := rfl
@[simp] theorem State.withPort_scinLo (s : State) (l : List HostEvent) : (s.withPort l).scinLo = s.scinLo := rfl
@[simp] theorem State.withPort_scinHi (s : State) (l : List HostEvent) : (s.withPort l).scinHi = s.scinHi := rfl
@[simp] theorem State.withPort_scout (s : State) (l : List HostEvent) : (s.withPort l).scout = s.scout := rfl
@[simp] theorem State.withPort_slots (s : State) (l : List HostEvent) : (s.withPort l).slots = s.slots := rfl
@[simp] theorem State.withPort_port (s : State) (l : List HostEvent) : (s.withPort l).port = l := rfl
@[simp] theorem State.withPort_reply (s : State) (l : List HostEvent) : (s.withPort l).reply = none := rfl

/-! ### Slots -/

@[simp] theorem Slot.withBitSeq_nbits (x : Slot) (b : List Bit) : (x.withBitSeq b).nbits = trunc32 b.length := rfl
@[simp] theorem Slot.withBitSeq_bits (x : Slot) (b : List Bit) : (x.withBitSeq b).bits = x.bits.writeSeq 0 b := rfl
@[simp] theorem Slot.withBitSeq_nxi (x : Slot) (b : List Bit) : (x.withBitSeq b).nxi = x.nxi := rfl
@[simp] theorem Slot.withBitSeq_xi (x : Slot) (b : List Bit) : (x.withBitSeq b).xi = x.xi := rfl
@[simp] theorem Slot.withBitSeq_nxv (x : Slot) (b : List Bit) : (x.withBitSeq b).nxv = x.nxv := rfl
@[simp] theorem Slot.withBitSeq_xv (x : Slot) (b : List Bit) : (x.withBitSeq b).xv = x.xv := rfl
@[simp] theorem Slot.commit_nbits (x : Slot) (r : PointRecord) : (x.commit r).nbits = trunc32 r.t := rfl
@[simp] theorem Slot.commit_bits (x : Slot) (r : PointRecord) : (x.commit r).bits = x.bits.writeSeq 0 r.bits := rfl
@[simp] theorem Slot.commit_nxi (x : Slot) (r : PointRecord) : (x.commit r).nxi = trunc32 r.ni := rfl
@[simp] theorem Slot.commit_xi (x : Slot) (r : PointRecord) : (x.commit r).xi = x.xi.writeSeq 0 r.xi := rfl
@[simp] theorem Slot.commit_nxv (x : Slot) (r : PointRecord) : (x.commit r).nxv = trunc32 r.ni := rfl
@[simp] theorem Slot.commit_xv (x : Slot) (r : PointRecord) : (x.commit r).xv = x.xv.writeSeq 0 r.xv := rfl

/-- Reading the slot that was replaced. -/
theorem slotAt_set_same {l : List Slot} {p : Nat} (h : p < l.length) (x : Slot) : slotAt (l.set p x) p = x := by
  simp [slotAt, h]

/-- Replacing one slot leaves the others. -/
theorem slotAt_set_other (l : List Slot) {p q : Nat} (h : p ≠ q) (x : Slot) : slotAt (l.set p x) q = slotAt l q := by
  simp [slotAt, h]

/-- A slot that exists is one of the list. -/
theorem slotAt_mem {l : List Slot} {p : Nat} (h : p < l.length) : slotAt l p ∈ l := by
  simp [slotAt, h]

end Sys2Proof.Machine
end

