-- ==== Sys2Proof/Laws/Memory.lean ====
section
/-!
SUPPORT. Memories: read after write, the frame of a write, sequences, and the canonical form that every operation keeps.
-/

namespace Sys2Proof.Machine

variable {w : Nat}

@[simp] theorem Memory.read_nil (i : Nat) : Memory.read ([] : Memory w) i = 0#w := rfl

/-- An element below every listed index reads as 0. -/
theorem Memory.read_of_lt (m : Memory w) (i : Nat) (h : ∀ c ∈ m, i < c.1) : Memory.read m i = 0#w := by
  induction m with
  | nil => rfl
  | cons c m ih =>
    have hc := h c (by simp)
    rw [Memory.read, if_neg (by omega)]
    exact ih fun d hd => h d (List.mem_cons_of_mem _ hd)

/-- What a memory reads after one write. In a memory in canonical form only the element written changes. -/
theorem Memory.read_write (m : Memory w) (hm : m.wf) (i j : Nat) (v : BitVec w) :
    (m.write i v).read j = if i = j then v else m.read j := by
  induction m with
  | nil => by_cases hv : v = 0#w <;> by_cases hij : i = j <;> simp [Memory.write, Memory.read, hv, hij]
  | cons c m ih =>
    obtain ⟨hp, hz⟩ := hm
    obtain ⟨hc, hp'⟩ := List.pairwise_cons.mp hp
    have ih := ih ⟨hp', fun d hd => hz d (List.mem_cons_of_mem _ hd)⟩
    have hlow : ∀ k, k ≤ c.1 → Memory.read m k = 0#w := fun k hk =>
      Memory.read_of_lt m k fun d hd => lt_of_le_of_lt hk (hc d hd)
    unfold Memory.write
    split
    · next hlt =>
      have h0 : i = j → Memory.read (c :: m) j = 0#w := fun hij => by
        rw [Memory.read, if_neg (by omega)]; exact hlow j (by omega)
      by_cases hv : v = 0#w
      · by_cases hij : i = j
        · simp [hv, hij, h0 hij]
        · simp [hv, hij]
      · rw [if_neg hv]; rw [Memory.read]
    · split
      · next heq =>
        by_cases hv : v = 0#w
        · rw [if_pos hv]
          by_cases hij : i = j
          · rw [if_pos hij, hv]; exact hlow j (by omega)
          · rw [if_neg hij]
            conv => rhs; rw [Memory.read]
            rw [if_neg (by omega)]
        · rw [if_neg hv, Memory.read]
          by_cases hij : i = j
          · simp [hij]
          · simp only [hij, if_false]
            conv => rhs; rw [Memory.read]
            rw [if_neg (by omega)]
      · next hne =>
        rw [Memory.read, Memory.read, ih]
        by_cases hij : i = j
        · rw [if_pos hij, if_pos hij, if_neg (by omega)]
        · simp only [hij, if_false]

theorem Memory.read_write_same (m : Memory w) (hm : m.wf) (i : Nat) (v : BitVec w) : (m.write i v).read i = v := by
  simp [Memory.read_write m hm]

theorem Memory.read_write_other (m : Memory w) (hm : m.wf) {i j : Nat} (h : i ≠ j) (v : BitVec w) :
    (m.write i v).read j = m.read j := by
  simp [Memory.read_write m hm, h]

/-- The entries after a write are the one written and entries there were before. -/
theorem Memory.mem_write (m : Memory w) (i : Nat) (v : BitVec w) (c : Nat × BitVec w) (h : c ∈ m.write i v) :
    (c = (i, v) ∧ v ≠ 0#w) ∨ c ∈ m := by
  induction m with
  | nil => unfold Memory.write at h; split at h <;> simp_all
  | cons d m ih => unfold Memory.write at h; split at h <;> (try split at h) <;> (try split at h) <;> simp_all <;> tauto

/-- A write keeps the canonical form. -/
theorem Memory.write_wf (m : Memory w) (hm : m.wf) (i : Nat) (v : BitVec w) : (m.write i v).wf := by
  refine ⟨?_, fun c hc => ?_⟩
  · induction m with
    | nil => unfold Memory.write; split <;> simp
    | cons c m ih =>
      obtain ⟨hp, hz⟩ := hm
      obtain ⟨hc, hp'⟩ := List.pairwise_cons.mp hp
      have ih := ih ⟨hp', fun d hd => hz d (List.mem_cons_of_mem _ hd)⟩
      unfold Memory.write
      split
      · next hlt =>
        split
        · exact hp
        · refine List.pairwise_cons.mpr ⟨fun d hd => ?_, hp⟩
          rcases List.mem_cons.mp hd with rfl | hd
          · exact hlt
          · exact lt_trans hlt (hc d hd)
      · split
        · next heq =>
          split
          · exact hp'
          · exact List.pairwise_cons.mpr ⟨fun d hd => heq ▸ hc d hd, hp'⟩
        · refine List.pairwise_cons.mpr ⟨fun d hd => ?_, ih⟩
          rcases Memory.mem_write m i v d hd with ⟨rfl, -⟩ | hd
          · simp only; omega
          · exact hc d hd
  · rcases Memory.mem_write m i v c hc with ⟨rfl, hv⟩ | hc
    · exact hv
    · exact hm.2 c hc

/-- A write below `n` keeps a memory below `n`. -/
theorem Memory.write_below {n : Nat} (m : Memory w) (hm : Memory.below n m) {i : Nat} (hi : i < n) (v : BitVec w) :
    Memory.below n (m.write i v) := fun c hc => by
  rcases Memory.mem_write m i v c hc with ⟨rfl, -⟩ | hc
  · exact hi
  · exact hm c hc

/-- What a memory reads after a sequence has been written. -/
theorem Memory.read_writeSeq (m : Memory w) (hm : m.wf) (i j : Nat) (vs : List (BitVec w)) :
    (m.writeSeq i vs).read j = if i ≤ j ∧ j < i + vs.length then vs.getD (j - i) 0#w else m.read j := by
  induction vs generalizing m i with
  | nil => simp only [Memory.writeSeq, List.length_nil, add_zero]; rw [if_neg (by omega)]
  | cons v vs ih =>
    rw [Memory.writeSeq, ih _ (Memory.write_wf m hm i v), Memory.read_write m hm]
    simp only [List.length_cons]
    by_cases h1 : i + 1 ≤ j ∧ j < i + 1 + vs.length
    · rw [if_pos h1, if_pos (by omega)]
      obtain ⟨d, rfl⟩ : ∃ d, j = i + 1 + d := ⟨j - (i + 1), by omega⟩
      rw [show i + 1 + d - (i + 1) = d by omega, show i + 1 + d - i = d + 1 by omega]
      simp
    · rw [if_neg h1]
      by_cases h2 : i = j
      · subst h2; simp
      · rw [if_neg h2, if_neg (by omega)]

/-- Inside the sequence written. -/
theorem Memory.read_writeSeq_in (m : Memory w) (hm : m.wf) (i : Nat) (vs : List (BitVec w)) {k : Nat}
    (hk : k < vs.length) : (m.writeSeq i vs).read (i + k) = vs[k] := by
  rw [Memory.read_writeSeq m hm, if_pos (by omega), show i + k - i = k by omega]; simp [hk]

/-- Outside the sequence written. -/
theorem Memory.read_writeSeq_out (m : Memory w) (hm : m.wf) (i : Nat) (vs : List (BitVec w)) {j : Nat}
    (hj : j < i ∨ i + vs.length ≤ j) : (m.writeSeq i vs).read j = m.read j := by
  rw [Memory.read_writeSeq m hm, if_neg (by omega)]

/-- Writing a sequence keeps the canonical form. -/
theorem Memory.writeSeq_wf (m : Memory w) (hm : m.wf) (i : Nat) (vs : List (BitVec w)) : (m.writeSeq i vs).wf := by
  induction vs generalizing m i with
  | nil => exact hm
  | cons v vs ih => exact ih _ (Memory.write_wf m hm i v) _

/-- Writing a sequence that ends at or below `n` keeps a memory below `n`. -/
theorem Memory.writeSeq_below {n : Nat} (m : Memory w) (hm : Memory.below n m) (i : Nat) (vs : List (BitVec w))
    (h : i + vs.length ≤ n) : Memory.below n (m.writeSeq i vs) := by
  induction vs generalizing m i with
  | nil => exact hm
  | cons v vs ih =>
    simp only [List.length_cons] at h
    exact ih _ (Memory.write_below m hm (by omega) v) _ (by omega)

@[simp] theorem Memory.writeSeq_nil (m : Memory w) (i : Nat) : m.writeSeq i [] = m := rfl

@[simp] theorem Memory.readSeq_length (m : Memory w) (i n : Nat) : (m.readSeq i n).length = n := by
  induction n generalizing i with
  | zero => rfl
  | succ n ih => simp [Memory.readSeq, ih]

/-- Element `k` of a sequence read. -/
theorem Memory.readSeq_getElem (m : Memory w) (i n k : Nat) (h : k < (m.readSeq i n).length) :
    (m.readSeq i n)[k] = m.read (i + k) := by
  induction n generalizing i k with
  | zero => simp [Memory.readSeq] at h
  | succ n ih =>
    cases k with
    | zero => simp [Memory.readSeq]
    | succ k =>
      simp only [Memory.readSeq, List.getElem_cons_succ]
      rw [ih]; congr 1; omega

theorem Memory.readSeq_getD (m : Memory w) (i n k : Nat) :
    (m.readSeq i n).getD k 0#w = if k < n then m.read (i + k) else 0#w := by
  by_cases h : k < n
  · rw [List.getD_eq_getElem _ _ (by simpa using h), Memory.readSeq_getElem, if_pos h]
  · rw [List.getD_eq_default _ _ (by simpa using h), if_neg h]

/-- A sequence read depends only on the elements it reads. -/
theorem Memory.readSeq_congr {m m' : Memory w} {i j n : Nat} (h : ∀ k < n, m.read (i + k) = m'.read (j + k)) :
    m.readSeq i n = m'.readSeq j n := by
  apply List.ext_getElem (by simp)
  intro k hk _
  simpa [Memory.readSeq_getElem] using h k (by simpa using hk)

/-- A sequence that stands in a memory is what reading there gives. -/
theorem Memory.readSeq_eq (m : Memory w) (i : Nat) (vs : List (BitVec w))
    (h : ∀ k, (hk : k < vs.length) → m.read (i + k) = vs[k]) : m.readSeq i vs.length = vs := by
  apply List.ext_getElem (by simp)
  intro k hk _
  rw [Memory.readSeq_getElem]; exact h k (by simpa using hk)

/-- Reading back a sequence just written. -/
theorem Memory.readSeq_writeSeq (m : Memory w) (hm : m.wf) (i : Nat) (vs : List (BitVec w)) :
    (m.writeSeq i vs).readSeq i vs.length = vs :=
  Memory.readSeq_eq _ _ _ fun _ hk => Memory.read_writeSeq_in m hm i vs hk

end Sys2Proof.Machine
end

