-- ==== Sys2Proof/Laws/Bytes.lean ====
section
/-!
SUPPORT. Byte order (rules R42, R49 of `20_memory.md`) and bit order (rules R56, R90, R91): the inverses, and each byte
and each bit of what is written.
-/

namespace Sys2Proof.Machine

@[simp] theorem le32_length (v : Word) : (le32 v).length = 4 := rfl

@[simp] theorem le64_length (v : DWord) : (le64 v).length = 8 := rfl

/-- Byte `k` of an Int Field is `v[8k+7:8k]` (rule R42). -/
theorem le32_getElem (v : Word) (k : Nat) (h : k < (le32 v).length) : (le32 v)[k] = v.extractLsb' (8 * k) 8 := by
  simp only [le32_length] at h
  interval_cases k <;> rfl

/-- Byte `k` of a double is `v[8k+7:8k]` (rule R49). -/
theorem le64_getElem (v : DWord) (k : Nat) (h : k < (le64 v).length) : (le64 v)[k] = v.extractLsb' (8 * k) 8 := by
  simp only [le64_length] at h
  interval_cases k <;> rfl

theorem leNat_lt (b : List Byte) : leNat b < 256 ^ b.length := by
  induction b with
  | nil => simp [leNat]
  | cons x b ih => simp only [leNat, List.length_cons, pow_succ]; have := x.isLt; omega

/-- Reading back an Int Field (rule R42). -/
theorem unle32_le32 (v : Word) : unle32 (le32 v) = v := by
  apply BitVec.eq_of_toNat_eq
  have := v.isLt
  simp only [unle32, leNat, le32, BitVec.toNat_ofNat, BitVec.extractLsb'_toNat, Nat.shiftRight_eq_div_pow]
  omega

/-- Reading back a double (rule R49). -/
theorem unle64_le64 (v : DWord) : unle64 (le64 v) = v := by
  apply BitVec.eq_of_toNat_eq
  have := v.isLt
  simp only [unle64, leNat, le64, BitVec.toNat_ofNat, BitVec.extractLsb'_toNat, Nat.shiftRight_eq_div_pow]
  omega

/-- Four bytes as an Int Field: the byte at the highest offset is the most significant (rule R42). -/
theorem unle32_eq_append (b0 b1 b2 b3 : Byte) : unle32 [b0, b1, b2, b3] = b3 ++ b2 ++ b1 ++ b0 := by
  apply BitVec.eq_of_toNat_eq
  have := b0.isLt; have := b1.isLt; have := b2.isLt; have := b3.isLt
  simp only [unle32, leNat, BitVec.toNat_ofNat, BitVec.toNat_append]
  rw [← Nat.shiftLeft_add_eq_or_of_lt b0.isLt, ← Nat.shiftLeft_add_eq_or_of_lt b1.isLt,
    ← Nat.shiftLeft_add_eq_or_of_lt b2.isLt]
  simp only [Nat.shiftLeft_eq]
  omega

/-- Eight bytes as a double (rule R49). -/
theorem unle64_eq_append (b0 b1 b2 b3 b4 b5 b6 b7 : Byte) :
    unle64 [b0, b1, b2, b3, b4, b5, b6, b7] = b7 ++ b6 ++ b5 ++ b4 ++ b3 ++ b2 ++ b1 ++ b0 := by
  apply BitVec.eq_of_toNat_eq
  have := b0.isLt; have := b1.isLt; have := b2.isLt; have := b3.isLt
  have := b4.isLt; have := b5.isLt; have := b6.isLt; have := b7.isLt
  simp only [unle64, leNat, BitVec.toNat_ofNat, BitVec.toNat_append]
  rw [← Nat.shiftLeft_add_eq_or_of_lt b0.isLt, ← Nat.shiftLeft_add_eq_or_of_lt b1.isLt,
    ← Nat.shiftLeft_add_eq_or_of_lt b2.isLt, ← Nat.shiftLeft_add_eq_or_of_lt b3.isLt,
    ← Nat.shiftLeft_add_eq_or_of_lt b4.isLt, ← Nat.shiftLeft_add_eq_or_of_lt b5.isLt,
    ← Nat.shiftLeft_add_eq_or_of_lt b6.isLt]
  simp only [Nat.shiftLeft_eq]
  omega

/-- The four bytes read at an offset. -/
theorem readSeq_four (m : Memory 8) (o : Nat) :
    m.readSeq o 4 = [m.read o, m.read (o + 1), m.read (o + 2), m.read (o + 3)] := rfl

theorem sext32_ofNat {n : Nat} (h : n < 2147483648) : sext32 (trunc32 n) = n := by
  rw [sext32, trunc32, BitVec.toInt_eq_toNat_cond, BitVec.toNat_ofNat]
  split <;> omega

theorem trunc32_toNat {n : Nat} (h : n < 4294967296) : (trunc32 n).toNat = n := by
  simp only [trunc32, BitVec.toNat_ofNat]; omega

theorem trunc32_of_toNat (v : Word) : trunc32 v.toNat = v := by simp [trunc32]

/-! ### Bits -/

@[simp] theorem packBits_length (b : List Bit) : (packBits b).length = ceilDiv8 b.length := by simp [packBits]

theorem bitNat_lt (b : List Bit) (m : Nat) : bitNat b m < 2 := (b.getD m 0#1).isLt

/-- Element `8*j + i` of the sequence is bit `7 - i` of byte `j` (rule R90). -/
theorem packByte_bit (b : List Bit) (j i : Nat) (h : i < 8) :
    (packByte b j).extractLsb' (7 - i) 1 = b.getD (8 * j + i) 0#1 := by
  apply BitVec.eq_of_toNat_eq
  have key : (b.getD (8 * j + i) 0#1).toNat = bitNat b (8 * j + i) := rfl
  rw [key]
  have h0 := bitNat_lt b (8 * j); have h1 := bitNat_lt b (8 * j + 1); have h2 := bitNat_lt b (8 * j + 2)
  have h3 := bitNat_lt b (8 * j + 3); have h4 := bitNat_lt b (8 * j + 4); have h5 := bitNat_lt b (8 * j + 5)
  have h6 := bitNat_lt b (8 * j + 6); have h7 := bitNat_lt b (8 * j + 7)
  simp only [packByte, BitVec.extractLsb'_toNat, BitVec.toNat_ofNat, Nat.shiftRight_eq_div_pow]
  interval_cases i <;> (try rw [add_zero]) <;> omega

/-- Every element of a packed sequence comes back from the bit it was stored in (rules R90, R91). -/
theorem unpackBit_packBits (b : List Bit) (i : Nat) (h : i < b.length) : unpackBit (packBits b) i = b.getD i 0#1 := by
  have hj : i / 8 < ceilDiv8 b.length := by unfold ceilDiv8; omega
  have : (packBits b).getD (i / 8) 0#8 = packByte b (i / 8) := by
    rw [List.getD_eq_getElem _ _ (by simpa using hj)]; simp [packBits]
  rw [unpackBit, this, packByte_bit b (i / 8) (i % 8) (by omega), show 8 * (i / 8) + i % 8 = i by omega]

/-- Unpack has three outcomes (rule R91): it fails for a negative length and for one that exceeds the bits there are,
and otherwise gives exactly that many. -/
theorem unpackBits_cases (b : List Byte) (t : Int) :
    ((t < 0 ∨ (8 * b.length : Nat) < t) ∧ unpackBits b t = .fail .malformedPacket) ∨
    (0 ≤ t ∧ t ≤ (8 * b.length : Nat) ∧ unpackBits b t = .ok ((List.range t.toNat).map (unpackBit b))) := by
  unfold unpackBits
  split
  · left; simp_all
  · split
    · left; simp_all
    · right; refine ⟨by omega, by omega, rfl⟩

end Sys2Proof.Machine
end

