-- ==== Sys2Proof/Laws/Field.lean ====
section
/-!
SUPPORT. The Field Codec: one lemma per datapath function that says everything it can do (rules R44 to R47 of
`20_memory.md`).
-/

namespace Sys2Proof.Machine

/-- FieldWriteInt writes the four bytes, or fails and writes nothing (rule R44). -/
theorem fieldWriteInt_cases (lim : Nat) (buf : Memory 8) (o : Nat) (v : Word) :
    (o + 4 ≤ lim ∧ fieldWriteInt lim buf o v = (buf.writeSeq o (le32 v), .ok (o + 4))) ∨
    (lim < o + 4 ∧ fieldWriteInt lim buf o v = (buf, .fail ⟨.outOfBounds, o⟩)) := by
  unfold fieldWriteInt
  split
  · exact .inl ⟨‹_›, rfl⟩
  · exact .inr ⟨by simp only [InBounds] at *; omega, rfl⟩

/-- FieldReadInt reads the four bytes, or fails (rule R45). -/
theorem fieldReadInt_cases (lim : Nat) (buf : Memory 8) (o : Nat) :
    (o + 4 ≤ lim ∧ fieldReadInt lim buf o = .ok (o + 4, unle32 (buf.readSeq o 4))) ∨
    (lim < o + 4 ∧ fieldReadInt lim buf o = .fail ⟨.outOfBounds, o⟩) := by
  unfold fieldReadInt
  split
  · exact .inl ⟨‹_›, rfl⟩
  · exact .inr ⟨by simp only [InBounds] at *; omega, rfl⟩

/-- FieldWriteBytes has three outcomes (rule R46): success; a payload that does not fit, with the length field written;
a length field that does not fit, with nothing written. -/
theorem fieldWriteBytes_cases (lim : Nat) (buf : Memory 8) (o : Nat) (b : List Byte) :
    (o + 4 + b.length ≤ lim ∧ fieldWriteBytes lim buf o b =
      ((buf.writeSeq o (le32 (trunc32 b.length))).writeSeq (o + 4) b, .ok (o + 4 + b.length))) ∨
    (o + 4 ≤ lim ∧ lim < o + 4 + b.length ∧ fieldWriteBytes lim buf o b =
      (buf.writeSeq o (le32 (trunc32 b.length)), .fail ⟨.outOfBounds, o⟩)) ∨
    (lim < o + 4 ∧ fieldWriteBytes lim buf o b = (buf, .fail ⟨.outOfBounds, o⟩)) := by
  unfold fieldWriteBytes
  rcases fieldWriteInt_cases lim buf o (trunc32 b.length) with ⟨h, e⟩ | ⟨h, e⟩ <;> rw [e]
  · dsimp only
    split
    · exact .inl ⟨‹_›, rfl⟩
    · exact .inr (.inl ⟨h, by simp only [InBounds] at *; omega, rfl⟩)
  · exact .inr (.inr ⟨h, rfl⟩)

/-- FieldReadBytes has four outcomes (rule R47): a length field that does not fit; a negative length; a payload that
does not fit; success. -/
theorem fieldReadBytes_cases (lim : Nat) (buf : Memory 8) (o : Nat) :
    let v := sext32 (unle32 (buf.readSeq o 4))
    (lim < o + 4 ∧ fieldReadBytes lim buf o = .fail ⟨.outOfBounds, o⟩) ∨
    (o + 4 ≤ lim ∧ v < 0 ∧ fieldReadBytes lim buf o = .fail ⟨.malformedPacket, o⟩) ∨
    (o + 4 ≤ lim ∧ 0 ≤ v ∧ lim < o + 4 + v.toNat ∧ fieldReadBytes lim buf o = .fail ⟨.outOfBounds, o⟩) ∨
    (o + 4 ≤ lim ∧ 0 ≤ v ∧ o + 4 + v.toNat ≤ lim ∧
      fieldReadBytes lim buf o = .ok (o + 4 + v.toNat, buf.readSeq (o + 4) v.toNat)) := by
  intro v
  unfold fieldReadBytes
  rcases fieldReadInt_cases lim buf o with ⟨h, e⟩ | ⟨h, e⟩ <;> rw [e]
  · dsimp only
    split
    · exact .inr (.inl ⟨h, ‹_›, rfl⟩)
    · next hv =>
      split
      · exact .inr (.inr (.inr ⟨h, by omega, ‹_›, rfl⟩))
      · exact .inr (.inr (.inl ⟨h, by omega, by simp only [InBounds] at *; omega, rfl⟩))
  · exact .inl ⟨h, rfl⟩

/-! ### What the write functions keep -/

/-- FieldWriteInt touches only the four bytes of its field, and only below LIM; it keeps the canonical form. -/
theorem fieldWriteInt_frame (lim : Nat) (buf : Memory 8) (o : Nat) (v : Word) (hw : buf.wf) :
    (fieldWriteInt lim buf o v).1.wf ∧
    ∀ a, (a < o ∨ o + 4 ≤ a ∨ lim ≤ a) → (fieldWriteInt lim buf o v).1.read a = buf.read a := by
  rcases fieldWriteInt_cases lim buf o v with ⟨h, e⟩ | ⟨h, e⟩ <;> rw [e]
  · exact ⟨Memory.writeSeq_wf _ hw _ _, fun a ha => Memory.read_writeSeq_out _ hw _ _ (by simp; omega)⟩
  · exact ⟨hw, fun _ _ => rfl⟩

/-- FieldWriteBytes touches only the bytes of its field, and only below LIM; it keeps the canonical form. -/
theorem fieldWriteBytes_frame (lim : Nat) (buf : Memory 8) (o : Nat) (b : List Byte) (hw : buf.wf) :
    (fieldWriteBytes lim buf o b).1.wf ∧
    ∀ a, (a < o ∨ o + 4 + b.length ≤ a ∨ lim ≤ a) → (fieldWriteBytes lim buf o b).1.read a = buf.read a := by
  have hw1 := Memory.writeSeq_wf _ hw o (le32 (trunc32 b.length))
  rcases fieldWriteBytes_cases lim buf o b with ⟨h, e⟩ | ⟨h, h', e⟩ | ⟨h, e⟩ <;> rw [e]
  · refine ⟨Memory.writeSeq_wf _ hw1 _ _, fun a ha => ?_⟩
    rw [Memory.read_writeSeq_out _ hw1 _ _ (by omega), Memory.read_writeSeq_out _ hw _ _ (by simp; omega)]
  · exact ⟨hw1, fun a ha => Memory.read_writeSeq_out _ hw _ _ (by simp; omega)⟩
  · exact ⟨hw, fun _ _ => rfl⟩

/-- FieldWriteInt keeps BUF below any bound at or above LIM. -/
theorem fieldWriteInt_below {n lim : Nat} (hn : lim ≤ n) (buf : Memory 8) (o : Nat) (v : Word)
    (hb : Memory.below n buf) : Memory.below n (fieldWriteInt lim buf o v).1 := by
  rcases fieldWriteInt_cases lim buf o v with ⟨h, e⟩ | ⟨h, e⟩ <;> rw [e]
  · exact Memory.writeSeq_below _ hb _ _ (by simp; omega)
  · exact hb

/-- FieldWriteBytes keeps BUF below any bound at or above LIM. -/
theorem fieldWriteBytes_below {n lim : Nat} (hn : lim ≤ n) (buf : Memory 8) (o : Nat) (b : List Byte)
    (hb : Memory.below n buf) : Memory.below n (fieldWriteBytes lim buf o b).1 := by
  have h4 : o + 4 ≤ lim → Memory.below n (buf.writeSeq o (le32 (trunc32 b.length))) := fun h =>
    Memory.writeSeq_below _ hb _ _ (by simp; omega)
  rcases fieldWriteBytes_cases lim buf o b with ⟨h, e⟩ | ⟨h, h', e⟩ | ⟨h, e⟩ <;> rw [e]
  · exact Memory.writeSeq_below _ (h4 (by omega)) _ _ (by omega)
  · exact h4 h
  · exact hb

end Sys2Proof.Machine
end

