-- ==== Sys2Proof/Laws/Wire.lean ====
section
/-!
SUPPORT. Writing a sequence of fields (rules R46, R51, R100, R110): writing a record and writing a packet are both the
writing of their wire fields one after another, so what such a sequence leaves in BUF is said here once.
-/

namespace Sys2Proof.Machine

/-- Writing one field at an offset (rules R44, R46). -/
def writeField (lim : Nat) (buf : Memory 8) (o : Nat) : WireField → Memory 8 × Result FieldFail Nat
  | .int v => fieldWriteInt lim buf o v
  | .blob b => fieldWriteBytes lim buf o b

/-- Writing a sequence of fields, each with the slot a failure is reported for. -/
def writeFields (lim : Nat) : Memory 8 → Nat → List (Nat × WireField) → Memory 8 × Result Report Nat
  | buf, o, [] => (buf, .ok o)
  | buf, o, (p, f) :: fs =>
    match writeField lim buf o f with
    | (buf', .ok o') => writeFields lim buf' o' fs
    | (buf', .fail e) => (buf', .fail (e.at p))

/-- The bytes of a sequence of fields. -/
def fieldsBytes (fs : List (Nat × WireField)) : List Byte := fs.flatMap fun f => f.2.bytes

@[simp] theorem WireField.bytes_length (f : WireField) : f.bytes.length = f.size := by
  cases f <;> simp [WireField.bytes, WireField.size]

theorem WireField.four_le_size (f : WireField) : 4 ≤ f.size := by
  cases f <;> simp [WireField.size]

@[simp] theorem fieldsBytes_nil : fieldsBytes [] = [] := rfl

@[simp] theorem fieldsBytes_cons (f : Nat × WireField) (fs : List (Nat × WireField)) :
    fieldsBytes (f :: fs) = f.2.bytes ++ fieldsBytes fs := by simp [fieldsBytes]

/-- One field: it fits and its bytes are written; or its payload does not fit and its first four bytes are written; or
nothing of it fits. Nothing outside it is touched. -/
theorem writeField_cases (lim : Nat) (buf : Memory 8) (hw : buf.wf) (o : Nat) (f : WireField) :
    (o + f.size ≤ lim ∧ ∃ b, b.wf ∧ writeField lim buf o f = (b, .ok (o + f.size)) ∧
      (∀ k, (h : k < f.bytes.length) → Memory.read b (o + k) = f.bytes[k]) ∧
      ∀ a, a < o ∨ o + f.size ≤ a → Memory.read b a = Memory.read buf a) ∨
    (o + 4 ≤ lim ∧ lim < o + f.size ∧ ∃ b, b.wf ∧ writeField lim buf o f = (b, .fail ⟨.outOfBounds, o⟩) ∧
      (∀ k, k < 4 → Memory.read b (o + k) = f.bytes.getD k 0#8) ∧
      ∀ a, a < o ∨ o + 4 ≤ a → Memory.read b a = Memory.read buf a) ∨
    (lim < o + 4 ∧ writeField lim buf o f = (buf, .fail ⟨.outOfBounds, o⟩)) := by
  cases f with
  | int v =>
    rcases fieldWriteInt_cases lim buf o v with ⟨h, e⟩ | ⟨h, e⟩
    · refine .inl ⟨h, _, Memory.writeSeq_wf _ hw _ _, e, fun k hk => Memory.read_writeSeq_in _ hw _ _ hk, fun a ha => ?_⟩
      exact Memory.read_writeSeq_out _ hw _ _ (by simpa [WireField.size] using ha)
    · exact .inr (.inr ⟨h, e⟩)
  | blob b =>
    have hw1 := Memory.writeSeq_wf _ hw o (le32 (trunc32 b.length))
    rcases fieldWriteBytes_cases lim buf o b with ⟨h, e⟩ | ⟨h, h', e⟩ | ⟨h, e⟩
    · refine .inl ⟨by simp only [WireField.size]; omega, _, Memory.writeSeq_wf _ hw1 (o + 4) b, ?_, fun k hk => ?_, fun a ha => ?_⟩
      · simp only [writeField, e, WireField.size, Nat.add_assoc]
      · simp only [WireField.bytes]
        by_cases h4 : k < 4
        · rw [Memory.read_writeSeq_out _ hw1 _ _ (by omega), Memory.read_writeSeq_in _ hw _ _ (by simpa using h4),
            List.getElem_append_left (by simpa using h4)]
        · simp only [WireField.bytes, List.length_append, le32_length] at hk
          obtain ⟨d, rfl⟩ : ∃ d, k = 4 + d := ⟨k - 4, by omega⟩
          rw [← Nat.add_assoc, Memory.read_writeSeq_in _ hw1 _ _ (by omega), List.getElem_append_right (by simp)]
          simp
      · simp only [WireField.size] at ha
        rw [Memory.read_writeSeq_out _ hw1 _ _ (by omega), Memory.read_writeSeq_out _ hw _ _ (by simp; omega)]
    · refine .inr (.inl ⟨h, by simp only [WireField.size]; omega, _, hw1, e, fun k hk => ?_, fun a ha => ?_⟩)
      · rw [Memory.read_writeSeq_in _ hw _ _ (by simpa using hk)]
        simp only [WireField.bytes]
        rw [List.getD_eq_getElem _ _ (by simp; omega), List.getElem_append_left (by simpa using hk)]
      · exact Memory.read_writeSeq_out _ hw _ _ (by simpa using ha)
    · exact .inr (.inr ⟨h, e⟩)

/-- Writing two sequences one after the other. -/
theorem writeFields_append (lim : Nat) (buf : Memory 8) (o : Nat) (fs gs : List (Nat × WireField)) :
    writeFields lim buf o (fs ++ gs) =
      match writeFields lim buf o fs with
      | (buf', .ok o') => writeFields lim buf' o' gs
      | (buf', .fail e) => (buf', .fail e) := by
  induction fs generalizing buf o with
  | nil => rfl
  | cons f fs ih =>
    obtain ⟨p, f⟩ := f
    simp only [List.cons_append, writeFields]
    rcases writeField lim buf o f with ⟨b, o' | e⟩
    · exact ih b o'
    · rfl

/-- A sequence of fields that fits: all its bytes are written, one field after another, and nothing else is
touched. -/
theorem writeFields_fits (lim : Nat) (buf : Memory 8) (hw : buf.wf) (o : Nat) (fs : List (Nat × WireField))
    (h : o + (fieldsBytes fs).length ≤ lim) :
    ∃ b, b.wf ∧ writeFields lim buf o fs = (b, .ok (o + (fieldsBytes fs).length)) ∧
      (∀ k, (hk : k < (fieldsBytes fs).length) → Memory.read b (o + k) = (fieldsBytes fs)[k]) ∧
      ∀ a, a < o ∨ o + (fieldsBytes fs).length ≤ a → Memory.read b a = Memory.read buf a := by
  induction fs generalizing buf o with
  | nil => exact ⟨buf, hw, rfl, fun k hk => absurd hk (by simp), fun _ _ => rfl⟩
  | cons f fs ih =>
    obtain ⟨p, f⟩ := f
    simp only [fieldsBytes_cons, List.length_append, WireField.bytes_length] at h ⊢
    rcases writeField_cases lim buf hw o f with ⟨h1, b, hb, e, hin, hout⟩ | ⟨h1, h2, -⟩ | ⟨h1, -⟩
    · obtain ⟨b', hb', e', hin', hout'⟩ := ih b hb (o + f.size) (by omega)
      refine ⟨b', hb', ?_, fun k hk => ?_, fun a ha => ?_⟩
      · simp only [writeFields, e, e']; rw [Nat.add_assoc]
      · by_cases hk' : k < f.size
        · rw [hout' _ (by omega), hin k (by simpa using hk'), List.getElem_append_left (by simpa using hk')]
        · obtain ⟨d, rfl⟩ : ∃ d, k = f.size + d := ⟨k - f.size, by omega⟩
          rw [← Nat.add_assoc, hin' d (by omega), List.getElem_append_right (by simp)]
          simp
      · rw [hout' _ (by omega), hout _ (by omega)]
    · omega
    · have := f.four_le_size; omega

/-- A sequence of fields that ends in `ok` fits. -/
theorem writeFields_ok (lim : Nat) (buf : Memory 8) (hw : buf.wf) (o : Nat) (fs : List (Nat × WireField)) (b : Memory 8)
    (o' : Nat) (h : writeFields lim buf o fs = (b, .ok o')) :
    o' = o + (fieldsBytes fs).length ∧ (fs ≠ [] → o' ≤ lim) := by
  induction fs generalizing buf o with
  | nil => simp [writeFields] at h; simp [h.2]
  | cons f fs ih =>
    obtain ⟨p, f⟩ := f
    rcases writeField_cases lim buf hw o f with ⟨h1, b1, hb, e, -, -⟩ | ⟨h1, h2, b1, hb, e, -⟩ | ⟨h1, e⟩ <;>
      simp only [writeFields, e] at h
    · obtain ⟨h3, h4⟩ := ih b1 hb _ h
      simp only [fieldsBytes_cons, List.length_append, WireField.bytes_length]
      refine ⟨by omega, fun _ => ?_⟩
      cases fs with
      | nil => simp at h3; omega
      | cons g gs => exact h4 (by simp)
    · simp at h
    · simp at h

/-- A sequence of fields keeps the canonical form and BUF within its size, and touches no byte below its start or at
or above LIM. A failure is OutOfBounds at an offset the sequence reaches. -/
theorem writeFields_frame {n lim : Nat} (hn : lim ≤ n) (buf : Memory 8) (hw : buf.wf) (o : Nat)
    (fs : List (Nat × WireField)) :
    (writeFields lim buf o fs).1.wf ∧
    (Memory.below n buf → Memory.below n (writeFields lim buf o fs).1) ∧
    (∀ a, a < o ∨ lim ≤ a → Memory.read (writeFields lim buf o fs).1 a = Memory.read buf a) ∧
    ∀ r, (writeFields lim buf o fs).2 = .fail r →
      r.failure = .outOfBounds ∧ (r.eofs = o ∨ r.eofs ≤ lim) ∧ ∃ f, (r.eidx, f) ∈ fs := by
  induction fs generalizing buf o with
  | nil => exact ⟨hw, id, fun _ _ => rfl, fun r h => by simp [writeFields] at h⟩
  | cons f fs ih =>
    obtain ⟨p, f⟩ := f
    have hf : (writeField lim buf o f).1.wf ∧
        (Memory.below n buf → Memory.below n (writeField lim buf o f).1) ∧
        ∀ a, a < o ∨ lim ≤ a → Memory.read (writeField lim buf o f).1 a = Memory.read buf a := by
      cases f with
      | int v =>
        obtain ⟨h1, h2⟩ := fieldWriteInt_frame lim buf o v hw
        exact ⟨h1, fieldWriteInt_below hn buf o v, fun a ha => h2 a (by omega)⟩
      | blob b =>
        obtain ⟨h1, h2⟩ := fieldWriteBytes_frame lim buf o b hw
        exact ⟨h1, fieldWriteBytes_below hn buf o b, fun a ha => h2 a (by omega)⟩
    rcases writeField_cases lim buf hw o f with ⟨h1, b1, hb, e, -, -⟩ | ⟨h1, h2, b1, hb, e, -⟩ | ⟨h1, e⟩ <;>
      rw [e] at hf <;> simp only [writeFields, e] <;> obtain ⟨f1, f2, f3⟩ := hf
    · obtain ⟨g1, g2, g3, g4⟩ := ih b1 f1 (o + f.size)
      refine ⟨g1, fun h => g2 (f2 h), fun a ha => by rw [g3 a (by omega), f3 a ha], fun r hr => ?_⟩
      obtain ⟨k1, k2, g, k3⟩ := g4 r hr
      exact ⟨k1, by omega, g, List.mem_cons_of_mem _ k3⟩
    · refine ⟨f1, f2, f3, fun r hr => ?_⟩
      obtain rfl : (FieldFail.at p ⟨.outOfBounds, o⟩) = r := by simpa using hr
      exact ⟨rfl, .inl rfl, f, by simp [FieldFail.at]⟩
    · refine ⟨hw, id, fun _ _ => trivial, fun r hr => ?_⟩
      obtain rfl : (FieldFail.at p ⟨.outOfBounds, o⟩) = r := by simpa using hr
      exact ⟨rfl, .inl rfl, f, by simp [FieldFail.at]⟩

end Sys2Proof.Machine
end

