-- ==== Sys2Proof/Laws/Point.lean ====
section
/-!
SUPPORT. The Point Record Codec: writing a record is writing its four wire fields (rule R100 of `42_point_record.md`),
and reading one is one chain of tests (rule R101).
-/

namespace Sys2Proof.Machine

@[simp] theorem Slot.bitSeq_length (x : Slot) : x.bitSeq.length = x.nbits.toNat := by simp [Slot.bitSeq]

@[simp] theorem Slot.xiSeq_length (x : Slot) : x.xiSeq.length = x.nxi.toNat := by simp [Slot.xiSeq]

@[simp] theorem Slot.xvSeq_length (x : Slot) : x.xvSeq.length = x.nxv.toNat := by simp [Slot.xvSeq]

@[simp] theorem doublesBytes_length (v : List DWord) : (doublesBytes v).length = 8 * v.length := by
  induction v with
  | nil => rfl
  | cons d v ih => simp only [doublesBytes, List.flatMap_cons, List.length_append, le64_length] at *; simp; omega

@[simp] theorem doublesOf_length (b : List Byte) (n : Nat) : (doublesOf b n).length = n := by simp [doublesOf]

/-- Reading back an extremum array from its bytes (rules R49, R101). -/
theorem doublesOf_doublesBytes (v : List DWord) : doublesOf (doublesBytes v) v.length = v := by
  apply List.ext_getElem (by simp)
  intro k hk _
  simp only [doublesOf, List.getElem_map, List.getElem_range, Sys2Proof.Machine.doubleAt]
  have hk : k < v.length := by simpa using hk
  have key : ∀ (v : List DWord) (k : Nat) (h : k < v.length),
      ((doublesBytes v).drop (8 * k)).take 8 = le64 v[k] := by
    intro v
    induction v with
    | nil => intro k h; simp at h
    | cons d v ih =>
      intro k h
      cases k with
      | zero => simp [doublesBytes]; rw [List.take_append_of_le_length (by simp)]; simp
      | succ k =>
        have := ih k (by simpa using h)
        simp only [doublesBytes, List.flatMap_cons, List.getElem_cons_succ] at *
        rw [show 8 * (k + 1) = (le64 d).length + 8 * k by simp; omega, List.drop_append,
          List.drop_eq_nil_of_le (by omega), Nat.add_sub_cancel_left, List.nil_append]
        exact this
  rw [key v k hk, unle64_le64]

/-- WritePoint is the writing of the four fields of the slot's touch point (rules R61, R100). -/
theorem writePoint_eq_writeFields (lim : Nat) (buf : Memory 8) (o : Nat) (x : Slot) (p : Nat) :
    ((writePoint lim buf o x).1, (writePoint lim buf o x).2.mapFail (FieldFail.at p)) =
      writeFields lim buf o (x.touchPoint.fields.map fun f => (p, f)) := by
  simp only [writePoint, TouchPoint.fields, Slot.touchPoint, Slot.packedBytes, List.map_cons, List.map_nil, writeFields,
    writeField, Slot.bitSeq_length, trunc32_of_toNat]
  rcases fieldWriteBytes lim buf o (packBits x.bitSeq) with ⟨b1, o1 | e1⟩ <;> simp only [thenWrite]
  · rcases fieldWriteBytes lim b1 o1 (doublesBytes x.xiSeq) with ⟨b2, o2 | e2⟩ <;> simp only
    · rcases fieldWriteBytes lim b2 o2 (doublesBytes x.xvSeq) with ⟨b3, o3 | e3⟩ <;> simp only
      · rcases fieldWriteInt lim b3 o3 x.nbits with ⟨b4, o4 | e4⟩ <;> rfl
      · rfl
    · rfl
  · rfl

/-- The signed length in front of a blob (rule R47). -/
def blobLength (buf : Memory 8) (o : Nat) : Int := sext32 (unle32 (buf.readSeq o 4))

/-- A blob can be read (rule R47). -/
abbrev BlobReads (lim : Nat) (buf : Memory 8) (o : Nat) : Prop :=
  o + 4 ≤ lim ∧ 0 ≤ blobLength buf o ∧ o + 4 + (blobLength buf o).toNat ≤ lim

/-- The offset after a blob. -/
def afterBlob (buf : Memory 8) (o : Nat) : Nat := o + 4 + (blobLength buf o).toNat

/-- A blob read by a composite command: its bytes, or MalformedPacket at its offset (rule R101). -/
theorem malformedAt_fieldReadBytes (lim : Nat) (buf : Memory 8) (o : Nat) :
    malformedAt o (fieldReadBytes lim buf o) =
      if BlobReads lim buf o then .ok (afterBlob buf o, buf.readSeq (o + 4) (blobLength buf o).toNat)
      else .fail ⟨.malformedPacket, o⟩ := by
  rcases fieldReadBytes_cases lim buf o with ⟨h, e⟩ | ⟨h, h2, e⟩ | ⟨h, h2, h3, e⟩ | ⟨h, h2, h3, e⟩ <;> rw [e]
  · rw [if_neg (by unfold BlobReads; omega)]; rfl
  · rw [if_neg (by unfold BlobReads blobLength; omega)]; rfl
  · rw [if_neg (by unfold BlobReads blobLength; omega)]; rfl
  · rw [if_pos ⟨h, h2, h3⟩]; rfl

/-- An Int Field read by a composite command (rule R101). -/
theorem malformedAt_fieldReadInt (lim : Nat) (buf : Memory 8) (o : Nat) :
    malformedAt o (fieldReadInt lim buf o) =
      if o + 4 ≤ lim then .ok (o + 4, unle32 (buf.readSeq o 4)) else .fail ⟨.malformedPacket, o⟩ := by
  rcases fieldReadInt_cases lim buf o with ⟨h, e⟩ | ⟨h, e⟩ <;> rw [e]
  · rw [if_pos h]; rfl
  · rw [if_neg (by omega)]; rfl

/-- The record ReadPoint gives when every test passes, with its blobs at `o`, `o1` and `o2` and BitLength at `o3`. -/
def recordOf (buf : Memory 8) (o : Nat) : PointRecord :=
  let o1 := afterBlob buf o
  let o2 := afterBlob buf o1
  let o3 := afterBlob buf o2
  let t := (blobLength buf o3).toNat
  let n := (blobLength buf o1).toNat / 8
  { next := o3 + 4
    bits := (List.range t).map (unpackBit (buf.readSeq (o + 4) (blobLength buf o).toNat)), t := t
    xi := doublesOf (buf.readSeq (o1 + 4) (blobLength buf o1).toNat) n
    xv := doublesOf (buf.readSeq (o2 + 4) (blobLength buf o2).toNat) n, ni := n }

@[simp] theorem Result.bind_ok {ε α β : Type} (a : α) (f : α → Result ε β) : (Result.ok a).bind f = f a := rfl

@[simp] theorem Result.bind_fail {ε α β : Type} (e : ε) (f : α → Result ε β) :
    (Result.fail e : Result ε α).bind f = .fail e := rfl

/-- ReadPoint as one chain of tests, in the order of rule R134: the first that fails gives MalformedPacket at the start
of its field, and a record that passes them all is `recordOf`. -/
theorem readPoint_eq (lim : Nat) (buf : Memory 8) (o : Nat) :
    readPoint lim buf o =
      let o1 := afterBlob buf o
      let o2 := afterBlob buf o1
      let o3 := afterBlob buf o2
      if ¬ BlobReads lim buf o then .fail ⟨.malformedPacket, o⟩
      else if ¬ BlobReads lim buf o1 then .fail ⟨.malformedPacket, o1⟩
      else if (blobLength buf o1).toNat % 8 ≠ 0 then .fail ⟨.malformedPacket, o1⟩
      else if ¬ BlobReads lim buf o2 then .fail ⟨.malformedPacket, o2⟩
      else if (blobLength buf o2).toNat % 8 ≠ 0 then .fail ⟨.malformedPacket, o2⟩
      else if (blobLength buf o2).toNat ≠ (blobLength buf o1).toNat then .fail ⟨.malformedPacket, o2⟩
      else if lim < o3 + 4 then .fail ⟨.malformedPacket, o3⟩
      else if blobLength buf o3 < 0 ∨ 8 * (blobLength buf o).toNat < blobLength buf o3 then .fail ⟨.malformedPacket, o3⟩
      else .ok (recordOf buf o) := by
  dsimp only
  rw [readPoint, malformedAt_fieldReadBytes]
  by_cases h1 : BlobReads lim buf o
  swap
  · rw [if_neg h1, if_pos h1]; rfl
  rw [if_pos h1, if_neg (not_not.mpr h1), Result.bind_ok]
  dsimp only
  rw [malformedAt_fieldReadBytes]
  by_cases h2 : BlobReads lim buf (afterBlob buf o)
  swap
  · rw [if_neg h2, if_pos h2]; rfl
  rw [if_pos h2, if_neg (not_not.mpr h2), Result.bind_ok]
  simp only [Memory.readSeq_length]
  by_cases h3 : (blobLength buf (afterBlob buf o)).toNat % 8 ≠ 0
  · rw [if_pos h3, if_pos h3]
  rw [if_neg h3, if_neg h3, malformedAt_fieldReadBytes]
  by_cases h4 : BlobReads lim buf (afterBlob buf (afterBlob buf o))
  swap
  · rw [if_neg h4, if_pos h4]; rfl
  rw [if_pos h4, if_neg (not_not.mpr h4), Result.bind_ok]
  simp only [Memory.readSeq_length]
  split
  · rfl
  split
  · rfl
  rw [malformedAt_fieldReadInt]
  by_cases h5 : afterBlob buf (afterBlob buf (afterBlob buf o)) + 4 ≤ lim
  swap
  · rw [if_neg h5, if_pos (by omega)]; rfl
  rw [if_pos h5, if_neg (by omega), Result.bind_ok]
  dsimp only
  have hc := unpackBits_cases (buf.readSeq (o + 4) (blobLength buf o).toNat)
    (blobLength buf (afterBlob buf (afterBlob buf (afterBlob buf o))))
  simp only [Memory.readSeq_length] at hc
  rcases hc with ⟨h, e⟩ | ⟨h, h', e⟩ <;>
    rw [show sext32 (unle32 (buf.readSeq (afterBlob buf (afterBlob buf (afterBlob buf o))) 4)) =
      blobLength buf (afterBlob buf (afterBlob buf (afterBlob buf o))) from rfl, e]
  · rw [if_pos (by push_cast at h; exact h)]; rfl
  · rw [if_neg (by push_cast at h'; omega)]; rfl

/-- A failing ReadPoint is MalformedPacket (rule R101). -/
theorem readPoint_fail (lim : Nat) (buf : Memory 8) (o : Nat) (e : FieldFail) (h : readPoint lim buf o = .fail e) :
    e.failure = .malformedPacket ∧ (e.eofs = o ∨ e.eofs ≤ lim) := by
  rw [readPoint_eq] at h
  dsimp only at h
  split at h
  · simp at h; subst h; exact ⟨rfl, .inl rfl⟩
  next h1 =>
  rw [not_not] at h1
  have g1 : afterBlob buf o ≤ lim := h1.2.2
  split at h
  · simp at h; subst h; exact ⟨rfl, .inr g1⟩
  next h2 =>
  rw [not_not] at h2
  have g2 : afterBlob buf (afterBlob buf o) ≤ lim := h2.2.2
  split at h
  · simp at h; subst h; exact ⟨rfl, .inr g1⟩
  split at h
  · simp at h; subst h; exact ⟨rfl, .inr g2⟩
  next h3 =>
  rw [not_not] at h3
  have g3 : afterBlob buf (afterBlob buf (afterBlob buf o)) ≤ lim := h3.2.2
  split at h
  · simp at h; subst h; exact ⟨rfl, .inr g2⟩
  split at h
  · simp at h; subst h; exact ⟨rfl, .inr g2⟩
  split at h
  · simp at h; subst h; exact ⟨rfl, .inr g3⟩
  split at h
  · simp at h; subst h; exact ⟨rfl, .inr g3⟩
  · simp at h

/-- A successful ReadPoint: the record lies below LIM, its bit sequence has its length, its extremum arrays have equal
length, and both fit a slot of any instance whose capacity is at least LIM (rules R6, R101). -/
theorem readPoint_ok (lim : Nat) (buf : Memory 8) (o : Nat) (r : PointRecord) (h : readPoint lim buf o = .ok r) :
    r = recordOf buf o ∧ r.next ≤ lim ∧ r.bits.length = r.t ∧ r.xi.length = r.ni ∧ r.xv.length = r.ni ∧
    r.t ≤ 8 * lim ∧ r.ni ≤ lim / 8 := by
  rw [readPoint_eq] at h
  dsimp only at h
  split at h
  · simp at h
  next h1 =>
  split at h
  · simp at h
  next h2 =>
  split at h
  · simp at h
  split at h
  · simp at h
  split at h
  · simp at h
  split at h
  · simp at h
  split at h
  · simp at h
  next h7 =>
  split at h
  · simp at h
  next h8 =>
  obtain rfl : recordOf buf o = r := by simpa using h
  rw [not_not] at h1 h2
  obtain ⟨-, -, g1⟩ := h1
  obtain ⟨-, -, g2⟩ := h2
  refine ⟨rfl, by simp only [recordOf]; omega, by simp [recordOf], by simp [recordOf], by simp [recordOf], ?_, ?_⟩
  · simp only [recordOf]; omega
  · simp only [recordOf]; omega

end Sys2Proof.Machine
end

