-- ==== Sys2Proof/Laws/Packet.lean ====
section
/-!
SUPPORT. The Packet Assembler: writing a packet is writing its wire fields (rule R110 of `43_packet_framer.md`), and the
loops of the packet commands over the slots (rules R110 to R112).
-/

namespace Sys2Proof.Machine

/-- The fields of the records of `n` slots from slot `p` on. -/
def recordFields (slots : List Slot) : Nat → Nat → List (Nat × WireField)
  | 0, _ => []
  | n + 1, p => ((slotAt slots p).touchPoint.fields.map fun f => (p, f)) ++ recordFields slots n (p + 1)

/-- The loop of EncodePacket writes the fields of its records one after another (rule R110). -/
theorem encodePoints_eq_writeFields (lim : Nat) (slots : List Slot) (n p o : Nat) (buf : Memory 8) :
    encodePoints lim slots n p o buf = writeFields lim buf o (recordFields slots n p) := by
  induction n generalizing p o buf with
  | zero => rfl
  | succ n ih =>
    rw [encodePoints, recordFields, writeFields_append, ← writePoint_eq_writeFields]
    rcases writePoint lim buf o (slotAt slots p) with ⟨b, o' | e⟩
    · exact ih (p + 1) o' b
    · rfl

/-- EncodePacket writes the role tag and then its records (rules R60, R110). -/
theorem encodePacket_eq_writeFields (lim : Nat) (role : Word) (slots : List Slot) (n : Nat) (buf : Memory 8) :
    encodePacket lim role slots n buf = writeFields lim buf 0 ((0, .int role) :: recordFields slots n 0) := by
  simp only [encodePacket, writeFields, writeField]
  rcases fieldWriteInt lim buf 0 role with ⟨b, o | e⟩
  · exact encodePoints_eq_writeFields lim slots n 0 o b
  · rfl

/-- The slots of the fields of a run of records. -/
theorem recordFields_mem (slots : List Slot) (n p : Nat) (q : Nat) (f : WireField) (h : (q, f) ∈ recordFields slots n p) :
    p ≤ q ∧ q < p + n := by
  induction n generalizing p with
  | zero => simp [recordFields] at h
  | succ n ih =>
    rw [recordFields, List.mem_append] at h
    rcases h with h | h
    · simp at h; omega
    · have := ih (p + 1) h; omega

/-- The test WPKT makes before it writes (rule R112): it finds the lowest slot whose extremum counts differ, if there is
one. -/
theorem firstUnequal_cases (slots : List Slot) (n p : Nat) :
    (firstUnequal slots n p = none ∧ ∀ q, p ≤ q → q < p + n → (slotAt slots q).nxi = (slotAt slots q).nxv) ∨
    ∃ q, firstUnequal slots n p = some q ∧ p ≤ q ∧ q < p + n ∧ (slotAt slots q).nxi ≠ (slotAt slots q).nxv ∧
      ∀ j, p ≤ j → j < q → (slotAt slots j).nxi = (slotAt slots j).nxv := by
  induction n generalizing p with
  | zero => exact .inl ⟨rfl, fun q h h' => by omega⟩
  | succ n ih =>
    by_cases hp : (slotAt slots p).nxi = (slotAt slots p).nxv
    · simp only [firstUnequal, ne_eq, hp, not_true_eq_false, if_false]
      rcases ih (p + 1) with ⟨e, h⟩ | ⟨q, e, h1, h2, h3, h4⟩
      · refine .inl ⟨e, fun q h1 h2 => ?_⟩
        rcases Nat.eq_or_lt_of_le h1 with rfl | h1
        · exact hp
        · exact h q h1 (by omega)
      · refine .inr ⟨q, e, by omega, by omega, h3, fun j h5 h6 => ?_⟩
        rcases Nat.eq_or_lt_of_le h5 with rfl | h5
        · exact hp
        · exact h4 j h5 h6
    · exact .inr ⟨p, by simp [firstUnequal, hp], le_refl _, by omega, hp, fun j h1 h2 => by omega⟩

/-- The offset of the `p`-th record from offset `o` on, each starting where the one before it ends. -/
def nthRecord (buf : Memory 8) (o : Nat) : Nat → Nat
  | 0 => o
  | p + 1 => (recordOf buf (nthRecord buf o p)).next

theorem nthRecord_succ (buf : Memory 8) (o n : Nat) :
    nthRecord buf o (n + 1) = nthRecord buf (recordOf buf o).next n := by
  induction n with
  | zero => rfl
  | succ n ih => rw [nthRecord, ih]; rfl

/-- The loop of DecodePacket (rule R111). Either every record is accepted and committed to its slot, or the first that
is not ends the loop with MalformedPacket, and the slots before it hold their records. Slots outside the loop are
untouched. -/
theorem decodePoints_cases (lim : Nat) (buf : Memory 8) (n p o : Nat) (slots : List Slot) (hl : p + n ≤ slots.length) :
    let d := decodePoints lim buf n p o slots
    let at' := nthRecord buf o
    d.1.length = slots.length ∧
    ((d.2 = .ok (at' n) ∧ (∀ j < n, readPoint lim buf (at' j) = .ok (recordOf buf (at' j))) ∧
        ∀ q, slotAt d.1 q =
          if p ≤ q ∧ q < p + n then (slotAt slots q).commit (recordOf buf (at' (q - p))) else slotAt slots q) ∨
     ∃ j < n, ∃ e, d.2 = .fail (e.at (p + j)) ∧ readPoint lim buf (at' j) = .fail e ∧
        (∀ i < j, readPoint lim buf (at' i) = .ok (recordOf buf (at' i))) ∧
        ∀ q, slotAt d.1 q =
          if p ≤ q ∧ q < p + j then (slotAt slots q).commit (recordOf buf (at' (q - p))) else slotAt slots q) := by
  induction n generalizing p o slots with
  | zero =>
    refine ⟨rfl, .inl ⟨rfl, fun j h => by omega, fun q => ?_⟩⟩
    rw [if_neg (by omega)]; rfl
  | succ n ih =>
    dsimp only
    rcases hr : readPoint lim buf o with r | e
    · obtain rfl := (readPoint_ok lim buf o r hr).1
      set x := (slotAt slots p).commit (recordOf buf o)
      obtain ⟨h1, h2⟩ := ih (p + 1) (recordOf buf o).next (slots.set p x) (by simp; omega)
      simp only [decodePoints, hr]
      have hslot : ∀ q, slotAt (slots.set p x) q = if q = p then x else slotAt slots q := fun q => by
        by_cases hq : q = p
        · subst hq; rw [if_pos rfl]; exact slotAt_set_same (by omega) x
        · rw [if_neg hq]; exact slotAt_set_other slots (fun h => hq h.symm) x
      have hstep : ∀ q m (f : Nat → PointRecord), f 0 = recordOf buf o →
          (if p + 1 ≤ q ∧ q < p + 1 + m then (slotAt (slots.set p x) q).commit (f (q - (p + 1) + 1))
            else slotAt (slots.set p x) q) =
          if p ≤ q ∧ q < p + (m + 1) then (slotAt slots q).commit (f (q - p)) else slotAt slots q := by
        intro q m f hf
        rw [hslot]
        by_cases hq : q = p
        · subst hq; rw [if_neg (by omega), if_pos rfl, if_pos (by omega), Nat.sub_self, hf]
        · rw [if_neg hq]
          by_cases hin : p + 1 ≤ q ∧ q < p + 1 + m
          · rw [if_pos hin, if_pos (by omega), show q - (p + 1) + 1 = q - p by omega]
          · rw [if_neg hin, if_neg (by omega)]
      refine ⟨by simpa using h1, ?_⟩
      rcases h2 with ⟨e1, e2, e3⟩ | ⟨j, hj, e, e1, e2, e3, e4⟩
      · refine .inl ⟨?_, fun j hj => ?_, fun q => ?_⟩
        · rw [e1, nthRecord_succ]
        · cases j with
          | zero => exact hr
          | succ j => rw [nthRecord_succ]; exact e2 j (by omega)
        · rw [e3, ← hstep q n (fun i => recordOf buf (nthRecord buf o i)) rfl]
          simp only [nthRecord_succ]
      · refine .inr ⟨j + 1, by omega, e, ?_, ?_, fun i hi => ?_, fun q => ?_⟩
        · rw [e1, show p + 1 + j = p + (j + 1) by omega]
        · rw [nthRecord_succ]; exact e2
        · cases i with
          | zero => exact hr
          | succ i => rw [nthRecord_succ]; exact e3 i (by omega)
        · rw [e4, ← hstep q j (fun i => recordOf buf (nthRecord buf o i)) rfl]
          simp only [nthRecord_succ]
    · simp only [decodePoints, hr]
      exact ⟨trivial, .inr ⟨0, by omega, e, by simp, hr, fun i hi => by omega, fun q => by rw [if_neg (by omega)]⟩⟩

end Sys2Proof.Machine
end

