-- ==== Sys2Proof/Laws/Inv.lean ====
section
/-!
SUPPORT. What the shared updates need in order to keep the invariant (rules R10, R16, R27, R131).
-/

namespace Sys2Proof.Machine

theorem maxBits_lt {c : Params} (h : c.Legal) : maxBits c < 2 ^ 28 := by
  obtain ⟨-, h, -⟩ := h
  simp only [maxBits]
  omega

theorem maxExt_lt {c : Params} (h : c.Legal) : maxExt c < 2 ^ 28 := by
  obtain ⟨-, h, -⟩ := h
  simp only [maxExt]
  omega

/-- The invariant of a slot, as a computation. -/
def Slot.invCheck (c : Params) (x : Slot) : Bool :=
  decide (x.nbits.toNat ≤ maxBits c ∧ x.nxi.toNat ≤ maxExt c ∧ x.nxv.toNat ≤ maxExt c) &&
  decide (x.bits.wf ∧ Memory.below (maxBits c) x.bits) && decide (x.xi.wf ∧ Memory.below (maxExt c) x.xi) &&
  decide (x.xv.wf ∧ Memory.below (maxExt c) x.xv)

/-- The invariant of a state, as a computation. -/
def State.invCheck (s : State) : Bool :=
  decide s.params.Legal && decide (s.buf.wf ∧ Memory.below s.params.cap s.buf) &&
  decide (s.blob.wf ∧ Memory.below s.params.cap s.blob) &&
  decide (s.lim.toNat ≤ s.params.cap ∧ s.blen.toNat ≤ s.params.cap ∧ s.npt.toNat ≤ s.params.maxPts) &&
  decide (s.ecode.toNat ≤ 5 ∧ (s.ecode = 0 → s.eofs = 0 ∧ s.eidx = 0) ∧ (3 ≤ s.ecode.toNat → s.eofs = 0) ∧
    (s.ecode = 3 ∨ s.ecode = 5 → s.eidx = 0) ∧ s.eidx.toNat < s.params.maxPts) &&
  decide (-32768 ≤ s.scout.toInt ∧ s.scout.toInt ≤ 32767) && decide (s.slots.length = s.params.maxPts) &&
  s.slots.all (Slot.invCheck s.params)

theorem Slot.inv_of_check {c : Params} {x : Slot} (h : x.invCheck c = true) : Slot.Inv c x := by
  simp only [Slot.invCheck, Bool.and_eq_true, decide_eq_true_eq] at h
  obtain ⟨⟨⟨⟨h1, h2, h3⟩, h4, h5⟩, h6, h7⟩, h8, h9⟩ := h
  exact ⟨h1, h2, h3, h4, h5, h6, h7, h8, h9⟩

/-- A state that passes the computation meets the invariant. -/
theorem State.inv_of_check {s : State} (h : s.invCheck = true) : s.Inv := by
  simp only [State.invCheck, Bool.and_eq_true, decide_eq_true_eq, List.all_eq_true] at h
  obtain ⟨⟨⟨⟨⟨⟨⟨h1, h2, h3⟩, h4, h5⟩, h6, h7, h8⟩, h9, h10, h11, h12, h13⟩, h14⟩, h15⟩, h16⟩ := h
  exact ⟨h1, h2, h3, h6, h4, h5, h7, h8, ⟨h9, h10, h11, h12, h13⟩, h14, h15, fun x hx => Slot.inv_of_check (h16 x hx)⟩

/-- An empty slot meets the invariant on every instance. -/
theorem Slot.empty_inv (c : Params) : Slot.Inv c Slot.empty :=
  ⟨Nat.zero_le _, Nat.zero_le _, Nat.zero_le _, ⟨.nil, by simp [Slot.empty]⟩, by simp [Slot.empty],
    ⟨.nil, by simp [Slot.empty]⟩, by simp [Slot.empty], ⟨.nil, by simp [Slot.empty]⟩, by simp [Slot.empty]⟩

/-- Looking up a slot gives one that meets the invariant. -/
theorem State.Inv.slot {s : State} (h : s.Inv) (p : Nat) : Slot.Inv s.params (s.slot p) := by
  unfold State.slot slotAt
  rw [List.getD_eq_getElem?_getD]
  rcases hp : s.slots[p]? with _ | x
  · exact Slot.empty_inv _
  · exact h.slots_inv x (List.mem_of_getElem? hp)

/-- Writing a bit sequence that fits keeps a slot's invariant. -/
theorem Slot.Inv.withBitSeq {c : Params} {x : Slot} (h : Slot.Inv c x) (hc : c.Legal) (b : List Bit)
    (hb : b.length ≤ maxBits c) : Slot.Inv c (x.withBitSeq b) where
  nbits_le := by
    have := maxBits_lt hc
    simp only [Slot.withBitSeq]
    rw [trunc32_toNat (by omega)]
    exact hb
  nxi_le := h.nxi_le
  nxv_le := h.nxv_le
  bits_wf := Memory.writeSeq_wf _ h.bits_wf _ _
  bits_below := Memory.writeSeq_below _ h.bits_below _ _ (by omega)
  xi_wf := h.xi_wf
  xi_below := h.xi_below
  xv_wf := h.xv_wf
  xv_below := h.xv_below

/-- Committing a record whose sequences have the lengths it states, and fit, keeps a slot's invariant. -/
theorem Slot.Inv.commit {c : Params} {x : Slot} (h : Slot.Inv c x) (hc : c.Legal) (r : PointRecord)
    (ht : r.bits.length = r.t) (hi : r.xi.length = r.ni) (hv : r.xv.length = r.ni) (hb : r.t ≤ maxBits c)
    (hn : r.ni ≤ maxExt c) : Slot.Inv c (x.commit r) := by
  have h1 := maxBits_lt hc
  have h2 := maxExt_lt hc
  exact
    { nbits_le := by simp only [Slot.commit]; rw [trunc32_toNat (by omega)]; exact hb
      nxi_le := by simp only [Slot.commit]; rw [trunc32_toNat (by omega)]; exact hn
      nxv_le := by simp only [Slot.commit]; rw [trunc32_toNat (by omega)]; exact hn
      bits_wf := Memory.writeSeq_wf _ h.bits_wf _ _
      bits_below := Memory.writeSeq_below _ h.bits_below _ _ (by omega)
      xi_wf := Memory.writeSeq_wf _ h.xi_wf _ _
      xi_below := Memory.writeSeq_below _ h.xi_below _ _ (by omega)
      xv_wf := Memory.writeSeq_wf _ h.xv_wf _ _
      xv_below := Memory.writeSeq_below _ h.xv_below _ _ (by omega) }

/-- Recording a failure keeps the invariant where its arguments are those of rule R131. -/
theorem State.Inv.raise {s : State} (h : s.Inv) (f : Failure) (eofs eidx : Nat) (h1 : eidx < s.params.maxPts)
    (h2 : f = .unknownRole ∨ f = .illegalCommand ∨ f = .rangeError → eofs = 0)
    (h3 : f = .unknownRole ∨ f = .rangeError → eidx = 0) : (s.raise f eofs eidx).Inv := by
  have hm := h.params_legal.2.2.2
  refine { h with record := ?_ }
  refine { ecode_le := ?_, clear := ?_, no_offset := ?_, no_slot := ?_, eidx_lt := ?_ }
  · show f.code.toNat ≤ 5
    cases f <;> decide
  · intro hc
    exact absurd hc (by show f.code ≠ 0; cases f <;> decide)
  · intro hc
    replace hc : 3 ≤ f.code.toNat := hc
    have he : eofs = 0 := h2 (by clear h2 h3; revert hc; cases f <;> decide)
    subst he; rfl
  · intro hc
    replace hc : f.code = 3 ∨ f.code = 5 := hc
    have he : eidx = 0 := h3 (by clear h2 h3; revert hc; cases f <;> decide)
    subst he; rfl
  · simp only [State.raise]
    rw [trunc32_toNat (by omega)]
    exact h1

/-- Clearing the record keeps the invariant. -/
theorem State.Inv.clearFailure {s : State} (h : s.Inv) : s.clearFailure.Inv :=
  { h with record := ⟨Nat.zero_le _, fun _ => ⟨rfl, rfl⟩, fun _ => rfl, fun _ => rfl, h.params_legal.2.2.1⟩ }

/-- Replacing BUF by a memory in canonical form that fits keeps the invariant. -/
theorem State.Inv.withBuf {s : State} (h : s.Inv) {b : Memory 8} (hw : b.wf) (hb : Memory.below s.params.cap b) :
    (s.withBuf b).Inv := { h with buf_wf := hw, buf_below := hb }

theorem State.Inv.withOfs {s : State} (h : s.Inv) (o : Nat) : (s.withOfs o).Inv := { h with }

theorem State.Inv.withVal {s : State} (h : s.Inv) (v : Word) : (s.withVal v).Inv := { h with }

theorem State.Inv.withRole {s : State} (h : s.Inv) (v : Word) : (s.withRole v).Inv := { h with }

/-- Storing a sample that is in range keeps the invariant. -/
theorem State.Inv.withScout {s : State} (h : s.Inv) {v : Word} (hv : -32768 ≤ v.toInt ∧ v.toInt ≤ 32767) :
    (s.withScout v).Inv := { h with scout_range := hv }

/-- Writing a byte sequence that fits to BLOB keeps the invariant. -/
theorem State.Inv.withBlobSeq {s : State} (h : s.Inv) {b : List Byte} (hb : b.length ≤ s.params.cap) :
    (s.withBlobSeq b).Inv :=
  { h with
    blob_wf := Memory.writeSeq_wf _ h.blob_wf _ _
    blob_below := Memory.writeSeq_below _ h.blob_below _ _ (by omega)
    blen_le := by
      have := h.params_legal.2.1
      simp only [State.withBlobSeq]
      rw [trunc32_toNat (by omega)]
      exact hb }

/-- Replacing the slots by as many that meet their invariant keeps the invariant. -/
theorem State.Inv.withSlots {s : State} (h : s.Inv) {l : List Slot} (hl : l.length = s.params.maxPts)
    (hi : ∀ x ∈ l, Slot.Inv s.params x) : (s.withSlots l).Inv := { h with slots_length := hl, slots_inv := hi }

/-- Replacing one slot by one that meets its invariant keeps the invariant. -/
theorem State.Inv.setSlot {s : State} (h : s.Inv) (p : Nat) {x : Slot} (hx : Slot.Inv s.params x) :
    (s.setSlot p x).Inv :=
  { h with
    slots_length := by simpa [State.setSlot] using h.slots_length
    slots_inv := fun y hy => by
      rcases List.mem_or_eq_of_mem_set hy with hy | rfl
      · exact h.slots_inv y hy
      · exact hx }

/-- Taking an event off the port keeps the invariant. -/
theorem State.Inv.withPort {s : State} (h : s.Inv) (rest : List HostEvent) : (s.withPort rest).Inv := { h with }

end Sys2Proof.Machine
end

