-- ==== Sys2Proof/Laws/PerInstr.lean ====
section
/-!
SUPPORT. Statements made of every command, one lemma per constructor.
-/

namespace Sys2Proof.Laws.EncodesItsRow

/-- The word of a command matches its own row of the opcode table and no other row (rules R64, R65). -/
def Statement (i : Instr) : Prop :=
  ∀ (k : Fin 14) (r : TableRow), opcodeTable[k.val]? = some r →
    (encode i &&& r.mask = r.matchBits ↔ k.val = i.row)

/-- The same as a computation over the fourteen rows. -/
def holds (i : Instr) : Bool :=
  (List.range 14).all fun k =>
    match opcodeTable[k]? with
    | none => true
    | some r => (encode i &&& r.mask == r.matchBits) == (k == i.row)

theorem of_holds (i : Instr) (h : holds i = true) : Statement i := by
  intro k r hr
  have hk := List.all_eq_true.mp h k.val (by simp)
  simp only [hr, beq_iff_eq] at hk
  constructor
  · intro he
    rw [he] at hk
    simpa using hk
  · intro he
    rw [he] at hk
    simpa using hk

theorem nop : Statement .nop := of_holds _ (by decide)
theorem wint : Statement .wint := of_holds _ (by decide)
theorem rint : Statement .rint := of_holds _ (by decide)
theorem wblb : Statement .wblb := of_holds _ (by decide)
theorem rblb : Statement .rblb := of_holds _ (by decide)
theorem pack (p : BitVec 8) : Statement (.pack p) := of_holds _ (by revert p; decide +kernel)
theorem unpk (p : BitVec 8) : Statement (.unpk p) := of_holds _ (by revert p; decide +kernel)
theorem wpnt (p : BitVec 8) : Statement (.wpnt p) := of_holds _ (by revert p; decide +kernel)
theorem rpnt (p : BitVec 8) : Statement (.rpnt p) := of_holds _ (by revert p; decide +kernel)
theorem wpkt : Statement .wpkt := of_holds _ (by decide)
theorem rpkt : Statement .rpkt := of_holds _ (by decide)
theorem ckrl : Statement .ckrl := of_holds _ (by decide)
theorem scal : Statement .scal := of_holds _ (by decide)
theorem clre : Statement .clre := of_holds _ (by decide)

end Sys2Proof.Laws.EncodesItsRow
end

