-- ==== Sys2Proof/Laws/Scale.lean ====
section
/-!
SUPPORT. The sample rescaler: the unit of exact values, and what rounding delivers (rules R121, R122 of
`44_sample_rescale.md`).
-/

namespace Sys2Proof.Machine

theorem unitsPerOne_eq : unitsPerOne = 2 ^ 1074 := by rw [unitsPerOne, ← pow_mul]

theorem unitsPerOne_pos : 0 < unitsPerOne := by rw [unitsPerOne]; positivity

/-- What rounding delivers lies at most a half away, and is even where it lies exactly a half away (rule R122). -/
theorem roundTiesEven_spec (n : Int) (d : Nat) (hd : 0 < d) :
    2 * (n - d * roundTiesEven n d) ≤ d ∧ -(d : Int) ≤ 2 * (n - d * roundTiesEven n d) ∧
    (2 * (n - d * roundTiesEven n d) = d ∨ 2 * (n - d * roundTiesEven n d) = -d → roundTiesEven n d % 2 = 0) := by
  have hq := Int.mul_ediv_add_emod n d
  have h0 := Int.emod_nonneg n (show (d : Int) ≠ 0 by omega)
  have h1 := Int.emod_lt_of_pos n (show (0 : Int) < d by omega)
  unfold roundTiesEven
  generalize n % (d : Int) = m at *
  generalize n / (d : Int) = q at *
  have hs : (d : Int) * (q + 1) = d * q + d := by ring
  split
  · omega
  split
  · rw [hs]; omega
  split
  · omega
  · rw [hs]; omega

end Sys2Proof.Machine
end

