-- ==== Sys2Proof/Tests/Slice0.lean ====
section
/-!
SUPPORT. Tests. Expected values are those of `95_test_vectors.md` (the number stands in each comment) or are worked out by
hand from the encoding tables; the second half shows, for every obligation with hypotheses, that they can be met.
-/

namespace Sys2Proof.Tests

open Sys2Proof Sys2Proof.Machine Sys2Proof.Stated

/-! ### Helpers -/

/-- A small instance after reset: 64 bytes and 2 slots. -/
def tiny : State := State.resetOf { cap := 64, maxPts := 2 }

/-- The command answers a next state of which `p` holds. -/
def runs (i : Instr) (s : State) (p : State → Bool) : Bool :=
  match exec i s with
  | .next t => p t
  | .fault _ => false
  | .refused _ => false

/-- The failure record and the cursor. -/
def record (s : State) : Nat × Nat × Nat × Nat := (s.ecode.toNat, s.eofs.toNat, s.eidx.toNat, s.ofs.toNat)

/-- A byte sequence as the contents of a memory. -/
def fill (b : List Nat) : Memory 8 := Memory.writeSeq [] 0 (b.map (BitVec.ofNat 8))

/-- The record REC of section V3. -/
def rec33 : List Nat :=
  [1, 0, 0, 0, 0xA0, 8, 0, 0, 0, 0, 0, 0, 0, 0, 0, 0xF0, 0x3F] ++
  [8, 0, 0, 0, 0, 0, 0, 0, 0, 0, 0, 0xC0, 3, 0, 0, 0]

/-- The slot REC is the record of. -/
def recSlot : Slot :=
  { nbits := 3, bits := [(0, 1), (2, 1)], nxi := 1, xi := [(0, 0x3FF0000000000000)],
    nxv := 1, xv := [(0, 0xC000000000000000)] }

/-- A slot with the eleven bits of V2.3. -/
def bitSlot : Slot := Slot.withBitSeq Slot.empty [0, 0, 0, 0, 0, 0, 0, 1, 1, 1, 1]

/-! ### Well-formedness: ill-formed commands are refused, at the boundary (rule R67) -/

theorem test_pack_slot_refused : WellFormed Params.reference (.pack 3) = false := by decide
theorem test_unpk_slot_refused : WellFormed Params.reference (.unpk 3) = false := by decide
theorem test_wpnt_slot_refused : WellFormed Params.reference (.wpnt 255) = false := by decide
theorem test_rpnt_slot_refused : WellFormed Params.reference (.rpnt 3) = false := by decide
theorem test_slot_accepted : WellFormed Params.reference (.rpnt 2) = true := by decide
theorem test_plain_accepted : WellFormed { cap := 1, maxPts := 1 } .wpkt = true := by decide

/-! ### Decoding: words written out from the table of rule R65, bits 31:16, A, op -/

theorem test_decode_nop : decode 0b0000000000000000_00000000_00000000 = .ok .nop := by decide
theorem test_decode_wint : decode 0b0000000000000000_00000000_00000001 = .ok .wint := by decide
theorem test_decode_rint : decode 0b0000000000000000_00000000_00000010 = .ok .rint := by decide
theorem test_decode_wblb : decode 0b0000000000000000_00000000_00000011 = .ok .wblb := by decide
theorem test_decode_rblb : decode 0b0000000000000000_00000000_00000100 = .ok .rblb := by decide
theorem test_decode_pack : decode 0b0000000000000000_00000010_00001000 = .ok (.pack 2) := by decide
theorem test_decode_unpk : decode 0b0000000000000000_10000001_00001001 = .ok (.unpk 129) := by decide
theorem test_decode_wpnt : decode 0b0000000000000000_01000000_00010000 = .ok (.wpnt 64) := by decide
theorem test_decode_rpnt : decode 0b0000000000000000_00000001_00010001 = .ok (.rpnt 1) := by decide
theorem test_decode_wpkt : decode 0b0000000000000000_00000000_00011000 = .ok .wpkt := by decide
theorem test_decode_rpkt : decode 0b0000000000000000_00000000_00011001 = .ok .rpkt := by decide
theorem test_decode_ckrl : decode 0b0000000000000000_00000000_00100000 = .ok .ckrl := by decide
theorem test_decode_scal : decode 0b0000000000000000_00000000_00100001 = .ok .scal := by decide
theorem test_decode_clre : decode 0b0000000000000000_00000000_00111111 = .ok .clre := by decide
/-- V6.1: the illegal words of the table, each with its cause. -/
theorem test_decode_rejects :
    decode 0x00000005 = .error .reservedOpcode ∧ decode 0x00000040 = .error .reservedOpcode ∧
    decode 0x000000FF = .error .reservedOpcode ∧ decode 0x00000100 = .error .operandNotZero ∧
    decode 0x00000118 = .error .operandNotZero ∧ decode 0x00010000 = .error .upperBitsNotZero ∧
    decode 0x80000001 = .error .upperBitsNotZero ∧ decode 0x3F00003F = .error .upperBitsNotZero := by decide
/-- No two rows of the opcode table share a word. -/
theorem test_table_rows_disjoint :
    opcodeTable.Pairwise fun r q => r.matchBits &&& q.mask &&& r.mask ≠ q.matchBits &&& r.mask &&& q.mask := by decide
theorem test_table_word : decodeTableWord 32 0x00000109 = some (.unpk 1) ∧ decodeTableWord 32 0x00010009 = none := by
  decide

/-! ### Commands -/

/-- V6.1, word 0: nothing changes. -/
theorem test_nop : runs .nop { tiny with ecode := 3, ofs := 5 } (fun t => t = { tiny with ecode := 3, ofs := 5 }) = true := by
  decide
/-- V1.2: the field ends exactly at LIM. -/
theorem test_wint_exact_fit : runs .wint { tiny with lim := 8, ofs := 4, val := 0x80000000 }
    (fun t => t.buf = [(7, 0x80)] ∧ record t = (0, 0, 0, 8)) = true := by decide
/-- V1.6: the bounds check does not wrap around. -/
theorem test_wint_no_wrap : runs .wint { tiny with lim := 8, ofs := 0xFFFFFFFF }
    (fun t => t.buf = [] ∧ record t = (1, 0xFFFFFFFF, 0, 0xFFFFFFFF)) = true := by decide
/-- V1.7. -/
theorem test_rint : runs .rint { tiny with lim := 8, buf := fill [0x78, 0x56, 0x34, 0x12, 0xFE] }
    (fun t => t.val = 0x12345678 ∧ record t = (0, 0, 0, 4)) = true := by decide
/-- V1.9. -/
theorem test_rint_bounds : runs .rint { tiny with lim := 8, ofs := 8, val := 0xFFFFFFFE }
    (fun t => t.val = 0xFFFFFFFE ∧ record t = (1, 8, 0, 8)) = true := by decide
/-- V1.10. -/
theorem test_wblb : runs .wblb { tiny with lim := 8, blob := fill [0xAA, 0xBB, 0xCC], blen := 3 }
    (fun t => t.buf = fill [3, 0, 0, 0, 0xAA, 0xBB, 0xCC] ∧ record t = (0, 0, 0, 7)) = true := by decide
/-- V1.12: the length stays written, no payload byte is. -/
theorem test_wblb_partial : runs .wblb { tiny with lim := 8, blob := fill [1, 2, 3, 4, 5], blen := 5 }
    (fun t => t.buf = [(0, 5)] ∧ record t = (1, 0, 0, 0)) = true := by decide
/-- V1.15. -/
theorem test_rblb : runs .rblb { tiny with lim := 7, buf := fill [3, 0, 0, 0, 0xAA, 0xBB, 0xCC] }
    (fun t => t.blob = fill [0xAA, 0xBB, 0xCC] ∧ t.blen = 3 ∧ record t = (0, 0, 0, 7)) = true := by decide
/-- V1.18: the most negative length is MalformedPacket. -/
theorem test_rblb_negative : runs .rblb { tiny with lim := 16, buf := fill [0, 0, 0, 0x80] }
    (fun t => t.blen = 0 ∧ record t = (2, 0, 0, 0)) = true := by decide
/-- V2.3a: the first element is the top bit. -/
theorem test_pack : runs (.pack 1) { tiny with slots := [Slot.empty, bitSlot] }
    (fun t => t.blob = fill [0x01, 0xE0] ∧ t.blen = 2) = true := by decide
/-- V2.3g: an operand that names no slot. -/
theorem test_pack_illegal : runs (.pack 2) { tiny with ofs := 3 } (fun t => record t = (4, 0, 0, 3)) = true := by decide
/-- V2.3c. -/
theorem test_unpk : runs (.unpk 1) { tiny with blob := fill [0x01, 0xE0], blen := 2, val := 11 }
    (fun t => t.slot 1 = bitSlot) = true := by decide
/-- V2.3e: 17 bits of 2 bytes. -/
theorem test_unpk_too_long : runs (.unpk 1) { tiny with blob := fill [0x01, 0xE0], blen := 2, val := 17 }
    (fun t => record t = (2, 0, 1, 0) ∧ t.slot 1 = Slot.empty) = true := by decide
/-- V3.1b. -/
theorem test_wpnt : runs (.wpnt 1) { tiny with ofs := 2, slots := [Slot.empty, recSlot] }
    (fun t => t.buf = fill ([0, 0] ++ rec33) ∧ record t = (0, 0, 0, 35)) = true := by decide +kernel
/-- V3.2 with LIM 28: the length of the value blob is written, its payload is not. -/
theorem test_wpnt_partial : runs (.wpnt 0) { tiny with lim := 28, slots := [recSlot, Slot.empty] }
    (fun t => t.buf = fill (rec33.take 21) ∧ record t = (1, 17, 0, 0)) = true := by decide +kernel
/-- V3.3 with LIM 33. -/
theorem test_rpnt : runs (.rpnt 1) { tiny with lim := 33, buf := fill rec33 }
    (fun t => t.slot 1 = recSlot ∧ record t = (0, 0, 0, 33)) = true := by decide +kernel
/-- V3.4b: unequal extremum lengths, at the offset of the value blob. -/
theorem test_rpnt_unequal : runs (.rpnt 0) { tiny with lim := 25, buf := fill (rec33.take 13 ++ [0, 0, 0, 0, 0, 0, 0, 0, 3, 0, 0, 0]) }
    (fun t => record t = (2, 17, 0, 0) ∧ t.slot 0 = Slot.empty) = true := by decide +kernel
/-- S9 with the slot REC in place of its point: role tag and one record. -/
theorem test_wpkt : runs .wpkt { tiny with npt := 1, role := 0xDEADBEEF, slots := [recSlot, Slot.empty] }
    (fun t => t.buf = fill ([0xEF, 0xBE, 0xAD, 0xDE] ++ rec33) ∧ record t = (0, 0, 0, 37)) = true := by decide +kernel
/-- V4.3c: unequal counts, nothing is written. -/
theorem test_wpkt_unequal : runs .wpkt { tiny with npt := 2, slots := [Slot.empty, { recSlot with nxv := 0 }] }
    (fun t => t.buf = [] ∧ record t = (4, 0, 1, 0)) = true := by decide
/-- V4.2d with one point of REC. -/
theorem test_rpkt : runs .rpkt { tiny with npt := 1, lim := 38, buf := fill ([1, 0, 0, 0] ++ rec33) }
    (fun t => t.role = 1 ∧ t.slots = [recSlot, Slot.empty] ∧ record t = (0, 0, 0, 37)) = true := by decide +kernel
/-- V4.2b: STRICT refuses a trailing byte, after everything has been committed. -/
theorem test_rpkt_strict : runs .rpkt { tiny with npt := 1, lim := 38, strict := true, buf := fill ([1, 0, 0, 0] ++ rec33) }
    (fun t => t.role = 1 ∧ t.slots = [recSlot, Slot.empty] ∧ record t = (2, 37, 0, 0)) = true := by decide +kernel
/-- V4.4. -/
theorem test_ckrl : runs .ckrl { tiny with role := 1, ofs := 7 } (fun t => t = { tiny with role := 1, ofs := 7 }) = true := by
  decide
theorem test_ckrl_unknown : runs .ckrl { tiny with role := 0x80000000, ofs := 7 } (fun t => record t = (3, 0, 0, 7)) = true := by
  decide
/-- V5.1: 2.5 is rounded to the even 2. -/
theorem test_scal_tie : runs .scal { tiny with scinHi := 0x3F140000 }
    (fun t => t.scout = 2 ∧ record t = (0, 0, 0, 0)) = true := by decide +kernel
/-- V5.1: just below -32768.5 is rounded to -32769, out of range. -/
theorem test_scal_range : runs .scal { tiny with scinHi := 0xBFF00010, scinLo := 1, scout := 0x1234 }
    (fun t => t.scout = 0x1234 ∧ record t = (5, 0, 0, 0)) = true := by decide +kernel
/-- V6.2. -/
theorem test_clre : runs .clre { tiny with ecode := 1, eofs := 8, eidx := 1, ofs := 8 }
    (fun t => t = { tiny with ofs := 8 }) = true := by decide

/-! ### Steps -/

/-- Placing a word makes the very next step run it: RINT at reset reads 0 and moves the cursor. -/
theorem test_withFetchWord :
    (match step (State.reset.withFetchWord 32 0x00000002) with
      | .next t => decide (t.ofs = 4 ∧ t.port = [])
      | .fault _ => false
      | .refused _ => false) = true := by decide
/-- V6.2: with a failure recorded the words 0x00000099 and 0x0000013F are ignored. -/
theorem test_gate : (match execute 0x0000013F { tiny with ecode := 1, eofs := 2 } with
      | .next t => decide (t = { tiny with ecode := 1, eofs := 2 })
      | .fault _ => false
      | .refused _ => false) = true := by decide

/-! ### Witnesses: for every obligation with hypotheses, inputs that meet them, each clause at a boundary of its range -/

theorem tiny_inv : tiny.Inv := State.inv_of_check (by decide)

/-- The smallest and the largest legal instance, with their last slots. -/
theorem witness_ResetLeavesTheValuesOfTheTable :
    (Params.mk 1 1).Legal ∧ 0 < (Params.mk 1 1).maxPts ∧
    (Params.mk 16777216 255).Legal ∧ 254 < (Params.mk 16777216 255).maxPts := by decide

theorem witness_ResetEventRestoresTheResetState : { tiny with ofs := 9, port := [.reset, .reset] }.port =
    HostEvent.reset :: [HostEvent.reset] := rfl

theorem witness_ResetStateMeetsTheInvariant : Params.reference.Legal := by decide

theorem witness_EveryStepKeepsTheInvariant : ∃ t, { tiny with val := 7, port := [commandEvent 1] }.Inv ∧
    step { tiny with val := 7, port := [commandEvent 1] } = .next t ∧ t.ofs = 4 :=
  ⟨_, State.inv_of_check (by decide), rfl, by decide⟩

theorem witness_NopChangesNothing : ((0x00000100 : Word) = 0x00000100 ∨ (0x00000100 : Word) = 0x00010000) ∧
    tiny.ecode = 0 := by decide

theorem witness_ClreClearsTheRecordAndNothingElse : { tiny with val := 7 }.Inv ∧ { tiny with val := 7 }.ecode = 0 ∧
    { tiny with ecode := 1 }.ecode ≠ 0 ∧ (0x0000013F : Word) ≠ 0x0000003F :=
  ⟨State.inv_of_check (by decide), rfl, by decide, by decide⟩

theorem witness_ParametersNeverChange : ∃ t, step { tiny with port := [commandEvent 1] } = .next t ∧ t.ofs = 4 :=
  ⟨_, rfl, by decide⟩

theorem witness_CanonicalMemoriesThatReadAlikeAreEqual : Memory.wf [(3, 9#8), (5, 1#8)] ∧
    ∀ i, Memory.read [(3, 9#8), (5, 1#8)] i = Memory.read [(3, 9#8), (5, 1#8)] i := ⟨by decide, fun _ => rfl⟩

/-- Each cause of an illegal word, and the legal word next to it, with and without a failure recorded. -/
theorem witness_IllegalWordsAreReportedOrIgnored :
    IllegalWord tiny.params 0x00000005 ∧ IllegalWord tiny.params 0x00010000 ∧ IllegalWord tiny.params 0x00000100 ∧
    IllegalWord tiny.params 0x00000208 ∧ ¬ IllegalWord tiny.params 0x00000108 ∧ ¬ IllegalWord tiny.params 0 ∧
    tiny.ecode = 0 ∧ { tiny with ecode := 5 }.ecode ≠ 0 := by
  refine ⟨?_, ?_, ?_, ?_, ?_, ?_, by decide, by decide⟩ <;> unfold IllegalWord <;> dsimp only <;> decide

theorem witness_StepRunsTheDecodedCommand :
    { tiny with port := [commandEvent 0x00000108] }.port = [commandEvent 0x00000108] ∧
    decode 0x00000108 = .ok (.pack 1) ∧ WellFormed tiny.params (.pack 1) = true ∧ tiny.ecode = 0 := by decide

theorem witness_StepRunsTheDecodedCommand_gated :
    { tiny with ecode := 2, port := [commandEvent 0x3F] }.port = [commandEvent 0x3F] ∧
    decode 0x3F = .ok .clre ∧ WellFormed tiny.params .clre = true := by decide

/-- A host write to another register than CMD: the step stores it. -/
theorem witness_StepRunsTheDecodedCommand_write :
    { tiny with port := [.hostWrite 0 0 0x08 9, .reset] }.port = .hostWrite 0 0 0x08 9 :: [.reset] ∧
    ∃ t, step { tiny with port := [.hostWrite 0 0 0x08 9, .reset] } = .next t ∧ t.ofs = 9 :=
  ⟨rfl, ⟨_, rfl, by decide⟩⟩

theorem witness_EveryStepCompletes : tiny.port = [] ∧ { tiny with port := [.reset] }.port = [.reset] := ⟨rfl, rfl⟩

theorem witness_GateIgnoresEveryWordButClre :
    { tiny with ecode := 1 }.ecode ≠ 0 ∧ (0x0000003E : Word) ≠ 0x0000003F ∧ ¬ ReachesCmd 0 0 0x08 ∧
    ¬ ReachesCmd 1 0 0x07 ∧ (∃ t, hostWrite 0 0 0x08 5 tiny = .next t ∧ t.ofs = 5) ∧
    ¬ (Space.ofBits 0 = .reg ∧ (0x05 : Word).toNat = Reg.status.index) :=
  ⟨by decide, by decide, by decide, by decide, ⟨_, rfl, by decide⟩, by decide⟩

/-- The last slot. -/
theorem witness_RegisterMapReadsAndWrites :
    (1 : BitVec 8).toNat < { tiny with slots := [Slot.empty, recSlot] }.params.maxPts ∧
    hostRead 3 1 0 { tiny with slots := [Slot.empty, recSlot] } = 3 := by decide

/-- Every cause of an illegal transaction, at the first value that is illegal. -/
theorem witness_IllegalTransactionsHaveNoEffect :
    (7 : BitVec 3) = 7 ∧ ((2 : BitVec 3).toNat ≤ 2 ∧ (1 : BitVec 8) ≠ 0) ∧
    (3 ≤ (3 : BitVec 3).toNat ∧ tiny.params.maxPts ≤ (2 : BitVec 8).toNat) ∧ 0x11 ≤ (0x11 : Word).toNat ∧
    tiny.params.cap ≤ (64 : Word).toNat ∧ 3 ≤ (3 : Word).toNat ∧ 8 * tiny.params.cap ≤ (512 : Word).toNat ∧
    tiny.params.cap / 8 ≤ (8 : Word).toNat := by decide

/-- The last element of each memory, and a second access. -/
theorem witness_HostWritesAndReadsMemoryElements : tiny.Inv ∧
    memoryWidth .buf = some 8 ∧ LegalAccess tiny.params .buf 0 63 ∧
    memoryWidth .blob = some 8 ∧ LegalAccess tiny.params .blob 0 63 ∧
    memoryWidth .bits = some 1 ∧ LegalAccess tiny.params .bits 1 511 ∧
    memoryWidth .xi = some 64 ∧ LegalAccess tiny.params .xi 1 7 ∧
    memoryWidth .xv = some 64 ∧ LegalAccess tiny.params .xv 1 7 ∧
    ((Space.buf, (0 : BitVec 8), (62 : Word)) ≠ (Space.buf, 0, 63)) := ⟨tiny_inv, by decide⟩

/-- The last element of each memory. -/
theorem witness_HostWritesAndReadsMemoryElements_reach : tiny.Inv ∧ (63 : Word).toNat < tiny.params.cap ∧
    (1 : BitVec 8).toNat < tiny.params.maxPts ∧ (511 : Word).toNat < 8 * tiny.params.cap ∧
    (7 : Word).toNat < tiny.params.cap / 8 := ⟨tiny_inv, by decide⟩

/-- Rule R71: a byte written through space BUF is the byte of BUF at that index. -/
theorem test_host_write_reaches_buf : ∃ t, hostWrite 1 0 2 0x1AB tiny = .next t ∧ t.buf = [(2, 0xAB)] :=
  ⟨_, rfl, by decide⟩

theorem witness_RestrictedRegistersIgnoreIllegalValues : tiny.Inv ∧ (1 : BitVec 8).toNat < tiny.params.maxPts :=
  ⟨tiny_inv, by decide⟩

theorem witness_HostReadChangesNothing : { tiny with port := [.hostRead 0 0 0] }.port = [.hostRead 0 0 0] := rfl

/-- The longest sequences that fit, the empty one and the last slot. -/
theorem witness_ScriptLinesLoadTheirOperands :
    { tiny with port := (ScriptLine.ldblob (List.replicate 64 1)).expand }.Inv ∧
    (List.replicate 64 (1 : Byte)).length ≤ tiny.params.cap ∧
    { tiny with port := (ScriptLine.ldbits 1 []).expand }.Inv ∧ (1 : BitVec 8).toNat < tiny.params.maxPts ∧
    ([] : List Bit).length ≤ 8 * tiny.params.cap ∧ (List.replicate 8 (1 : DWord)).length ≤ tiny.params.cap / 8 :=
  ⟨State.inv_of_check (by decide), by decide, State.inv_of_check (by decide), by decide⟩

/-! Field codec -/

theorem witness_WintWritesValAtTheCursor :
    { tiny with ofs := 60 }.Inv ∧ ({ tiny with ofs := 60 }.ofs.toNat + 4 ≤ tiny.lim.toNat) ∧
    { tiny with ofs := 61 }.Inv ∧ tiny.lim.toNat < { tiny with ofs := 61 }.ofs.toNat + 4 :=
  ⟨State.inv_of_check (by decide), by decide, State.inv_of_check (by decide), by decide⟩

theorem witness_RintReadsValAtTheCursor :
    ({ tiny with ofs := 60 }.ofs.toNat + 4 ≤ tiny.lim.toNat) ∧
    tiny.lim.toNat < { tiny with ofs := 61 }.ofs.toNat + 4 := by decide

/-- A blob of one byte that just fits; one whose payload does not; a length field that does not. -/
theorem witness_WblbWritesTheBlobAtTheCursor :
    { tiny with ofs := 59, blen := 1 }.Inv ∧ 59 + 4 + (1 : Word).toNat ≤ tiny.lim.toNat ∧
    { tiny with ofs := 60, blen := 1 }.Inv ∧ 60 + 4 ≤ tiny.lim.toNat ∧ tiny.lim.toNat < 60 + 4 + (1 : Word).toNat ∧
    { tiny with ofs := 61, blen := 1 }.Inv ∧ tiny.lim.toNat < 61 + 4 :=
  ⟨State.inv_of_check (by decide), by decide, State.inv_of_check (by decide), by decide, by decide,
    State.inv_of_check (by decide), by decide⟩

/-- LIM 5 and a blob of one byte; LIM 3; a length of -1 at LIM 4; a blob of two bytes at LIM 5. -/
theorem witness_RblbReadsTheBlobAtTheCursor :
    ({ tiny with lim := 5, buf := fill [1, 0, 0, 0, 9] }.Inv ∧ intAt (fill [1, 0, 0, 0, 9]) 0 = 1 ∧
      0 + 4 + (1 : Int).toNat ≤ (5 : Word).toNat) ∧
    ({ tiny with lim := 3 }.Inv ∧ (3 : Word).toNat < 0 + 4) ∧
    ({ tiny with lim := 4, buf := fill [255, 255, 255, 255] }.Inv ∧ 0 + 4 ≤ (4 : Word).toNat ∧
      intAt (fill [255, 255, 255, 255]) 0 = -1) ∧
    { tiny with lim := 5, buf := fill [2, 0, 0, 0, 9] }.Inv ∧ intAt (fill [2, 0, 0, 0, 9]) 0 = 2 ∧
      (5 : Word).toNat < 0 + 4 + (2 : Int).toNat :=
  ⟨⟨State.inv_of_check (by decide), by decide, by decide⟩, ⟨State.inv_of_check (by decide), by decide⟩,
    ⟨State.inv_of_check (by decide), by decide, by decide⟩, State.inv_of_check (by decide), by decide, by decide⟩

theorem witness_FieldsJustWrittenAreReadBack : Memory.wf ([] : Memory 8) ∧
    (∃ m, fieldWriteInt 4 [] 0 7 = (m, .ok 4)) ∧ ([1, 2] : List Byte).length ≤ 2 ^ 24 ∧
    ∃ m, fieldWriteBytes 6 [] 0 [1, 2] = (m, .ok 6) := ⟨by decide, ⟨_, rfl⟩, by decide, ⟨_, rfl⟩⟩

/-! Bit packer -/

/-- Nine elements: the last byte, and its first bit that is an element and last that is not. -/
theorem witness_PackPutsTheFirstElementInTheTopBit : 1 < ((List.replicate 9 (1 : Bit)).length + 7) / 8 ∧ 0 < 8 ∧ 7 < 8 ∧
    8 * 1 + 0 < (List.replicate 9 (1 : Bit)).length ∧ ¬ 8 * 1 + 7 < (List.replicate 9 (1 : Bit)).length := by decide

/-- One byte with -1, 9, 0 and 8 bits asked for. -/
theorem witness_UnpackGivesExactlyTheStatedNumberOfBits : (-1 : Int) < 0 ∧
    8 * (([0xA0] : List Byte).length : Int) < 9 ∧ (0 : Int) ≤ 0 ∧ (8 : Int) ≤ 8 * (([0xA0] : List Byte).length : Int) := by
  decide

theorem witness_PackCommandPacksTheSlot : { tiny with slots := [Slot.empty, bitSlot] }.Inv ∧
    (1 : BitVec 8).toNat < tiny.params.maxPts ∧ tiny.params.maxPts ≤ (2 : BitVec 8).toNat :=
  ⟨State.inv_of_check (by decide), by decide⟩

/-- Two bytes with 16, 17 and -1 bits asked for, and a slot that does not exist. -/
theorem witness_UnpackCommandFillsTheSlot :
    ({ tiny with blen := 2, val := 16 }.Inv ∧ (1 : BitVec 8).toNat < tiny.params.maxPts ∧
      0 ≤ (16 : Word).toInt ∧ (16 : Word).toInt ≤ 8 * ((2 : Word).toNat : Int)) ∧
    ({ tiny with blen := 2, val := 17 }.Inv ∧ 8 * ((2 : Word).toNat : Int) < (17 : Word).toInt) ∧
    ({ tiny with val := 0xFFFFFFFF }.Inv ∧ (0xFFFFFFFF : Word).toInt < 0) ∧
    tiny.params.maxPts ≤ (2 : BitVec 8).toNat :=
  ⟨⟨State.inv_of_check (by decide), by decide⟩, ⟨State.inv_of_check (by decide), by decide⟩,
    ⟨State.inv_of_check (by decide), by decide⟩, by decide⟩

/-! Point records -/

theorem rec33_holds : Holds (fill rec33) 0 recSlot.touchPoint.wire := by
  have h : recSlot.touchPoint.wire = rec33.map (BitVec.ofNat 8) := by decide +kernel
  rw [h]
  exact fun k hk => Memory.read_writeSeq_in _ ⟨.nil, by simp⟩ 0 _ hk

theorem witness_WireRecordHasTheLayoutOfTheTable : (Params.mk 64 2).Legal ∧ recSlot.Inv { cap := 64, maxPts := 2 } ∧
    Holds (fill rec33) 0 recSlot.touchPoint.wire :=
  ⟨by decide, Slot.inv_of_check (by decide), rec33_holds⟩

/-- REC at the highest offset where it fits; LIM 28, where the payload of its third field does not; unequal counts; a
slot that does not exist. -/
theorem witness_WpntWritesTheRecordAtTheCursor :
    ({ tiny with ofs := 31, slots := [Slot.empty, recSlot] }.Inv ∧ (1 : BitVec 8).toNat < tiny.params.maxPts ∧
      recSlot.nxi = recSlot.nxv ∧ (31 : Word).toNat + recordSize recSlot ≤ tiny.lim.toNat) ∧
    ({ tiny with lim := 28, slots := [recSlot, Slot.empty] }.Inv ∧
      writeStop 28 0 (recSlot.touchPoint.fields.map fun f => (0, f)) = some (0, 17, 21)) ∧
    ({ tiny with slots := [{ recSlot with nxv := 0 }, Slot.empty] }.Inv ∧ recSlot.nxi ≠ 0) ∧
    tiny.params.maxPts ≤ (2 : BitVec 8).toNat :=
  ⟨⟨State.inv_of_check (by decide), by decide⟩, ⟨State.inv_of_check (by decide), by decide +kernel⟩,
    ⟨State.inv_of_check (by decide), by decide⟩, by decide⟩

/-- REC below LIM 33 and below LIM 32. -/
theorem witness_RpntReadsTheRecordAtTheCursor :
    ({ tiny with lim := 33, buf := fill rec33 }.Inv ∧ (1 : BitVec 8).toNat < tiny.params.maxPts ∧
      pointFault 33 (fill rec33) 0 = none) ∧
    ({ tiny with lim := 32, buf := fill rec33 }.Inv ∧ pointFault 32 (fill rec33) 0 = some 29) ∧
    tiny.params.maxPts ≤ (2 : BitVec 8).toNat :=
  ⟨⟨State.inv_of_check (by decide +kernel), by decide, by decide +kernel⟩,
    ⟨State.inv_of_check (by decide +kernel), by decide +kernel⟩, by decide⟩

/-- An empty slot written at 0 and read by an instance whose LIM is where the record ends. -/
theorem witness_PointRecordRoundTrip : ∃ t : State, tiny.Inv ∧ { tiny with lim := 16 }.Inv ∧ tiny.ecode = 0 ∧
    (1 : BitVec 8).toNat < tiny.params.maxPts ∧ exec (.wpnt 1) tiny = .next t ∧ t.ecode = 0 ∧
    { tiny with lim := 16 }.ofs = tiny.ofs ∧ t.ofs.toNat ≤ { tiny with lim := 16 }.lim.toNat ∧
    ∀ a, tiny.ofs.toNat ≤ a → a < t.ofs.toNat → Memory.read { tiny with lim := 16 }.buf a = Memory.read t.buf a :=
  ⟨tiny.withOfs 16, tiny_inv, State.inv_of_check (by decide), by decide, by decide, rfl, by decide, by decide, by decide,
    fun _ _ _ => rfl⟩

/-! Packets -/

/-- Two empty slots: the packet is 36 bytes, and fits below LIM 36; below LIM 35 its last field does not; unequal counts
in slot 1. -/
theorem witness_WpktWritesThePacket :
    ({ tiny with npt := 2, lim := 36 }.Inv ∧ (∀ p < (2 : Word).toNat, (tiny.slot p).nxi = (tiny.slot p).nxv) ∧
      packetOffset { tiny with npt := 2, lim := 36 } 2 ≤ (36 : Word).toNat) ∧
    ({ tiny with npt := 2, lim := 35 }.Inv ∧
      writeStop 35 0 (packetFields { tiny with npt := 2, lim := 35 }) = some (1, 32, 32)) ∧
    ({ tiny with npt := 2, slots := [Slot.empty, { Slot.empty with nxi := 1 }] }.Inv ∧
      (slotAt [Slot.empty, { Slot.empty with nxi := 1 }] 1).nxi ≠ 0) :=
  ⟨⟨State.inv_of_check (by decide), by decide, by decide⟩, ⟨State.inv_of_check (by decide), by decide +kernel⟩,
    ⟨State.inv_of_check (by decide), by decide⟩⟩

/-- Zero bytes are a packet of empty records: 36 of them with STRICT below LIM 36 and below LIM 37; below LIM 35, where
the second record does not fit; and LIM 3. -/
theorem witness_RpktReadsThePacket :
    ({ tiny with npt := 2, lim := 36, strict := true }.Inv ∧ 4 ≤ (36 : Word).toNat ∧
      (∀ p < 2, pointFault 36 [] (recordStart [] p) = none) ∧ recordStart [] 2 = 36) ∧
    ({ tiny with npt := 2, lim := 37, strict := true }.Inv ∧
      (∀ p < 2, pointFault 37 [] (recordStart [] p) = none) ∧ recordStart [] 2 ≠ 37) ∧
    ({ tiny with npt := 2, lim := 35 }.Inv ∧ 1 < (2 : Word).toNat ∧
      (∀ p < 1, pointFault 35 [] (recordStart [] p) = none) ∧ pointFault 35 [] (recordStart [] 1) = some 32) ∧
    { tiny with lim := 3 }.Inv ∧ (3 : Word).toNat < 4 :=
  ⟨⟨State.inv_of_check (by decide), by decide, by decide, by decide⟩,
    ⟨State.inv_of_check (by decide), by decide, by decide⟩,
    ⟨State.inv_of_check (by decide), by decide, by decide, by decide⟩, State.inv_of_check (by decide), by decide⟩

/-- A packet of one empty point, read by an instance whose LIM is its length, with STRICT set. -/
theorem witness_PacketRoundTrip : ∃ t r : State, { tiny with npt := 1 }.Inv ∧ r.Inv ∧ tiny.ecode = 0 ∧
    exec .wpkt { tiny with npt := 1 } = .next t ∧ t.ecode = 0 ∧ r.npt = 1 ∧
    (∀ a < t.ofs.toNat, Memory.read r.buf a = Memory.read t.buf a) ∧ t.ofs.toNat ≤ r.lim.toNat ∧ r.strict = true ∧
    r.lim = t.ofs :=
  ⟨{ tiny with npt := 1 }.withOfs 20, { tiny with npt := 1, lim := 20, strict := true }, State.inv_of_check (by decide),
    State.inv_of_check (by decide), by decide, rfl, by decide, by decide, fun _ _ => rfl, by decide, rfl, by decide⟩

/-- A packet of one empty point: 20 zero bytes. -/
theorem witness_RpktAcceptsEveryPacketOfTheGrammar : ∃ points : List TouchPoint,
    { tiny with npt := 1, lim := 20, strict := true }.Inv ∧ (1 : Word).toNat = points.length ∧
    (∀ p ∈ points, p.xi.length = p.xv.length) ∧ packetSize points = (20 : Word).toNat ∧
    Holds [] 0 (packetWire 0 points) := by
  refine ⟨[⟨[], [], []⟩], State.inv_of_check (by decide), by decide, by decide, by decide, ?_⟩
  have h : packetWire 0 [⟨[], [], []⟩] = List.replicate 20 0 := by decide
  rw [h]
  exact fun k hk => (List.getElem_replicate hk).symm

theorem witness_CkrlReportsEveryOtherRole : (1 : Word).toInt = 1 ∧ (2 : Word).toInt ≠ 0 ∧ (2 : Word).toInt ≠ 1 ∧
    (0xFFFFFFFF : Word).toInt ≠ 0 := by decide

theorem witness_PacketCommandsDoNotReadTheCursor : tiny.ecode = 0 ∧ (∃ t, exec .wpkt tiny = .next t ∧ t.ecode = 0) ∧
    ∃ t, exec .rpkt { tiny with lim := 3 } = .next t ∧ t.ecode ≠ 0 :=
  ⟨by decide, ⟨_, rfl, by decide⟩, ⟨_, rfl, by decide⟩⟩

/-! Rescaling -/

/-- An infinity; and 2^-1, whose value is a number. -/
theorem witness_ScalDeliversTheNearestSample : realValue 0x7FF0000000000000 = none ∧
    realValue 0x3FE0000000000000 = some (1 / 2) := by
  unfold realValue
  norm_num

/-! Rules over all commands -/

theorem witness_NoCommandWritesAtOrAboveLim : { tiny with lim := 4 }.Inv ∧
    (∃ t, exec .wint { tiny with lim := 4 } = .next t ∧ t.ofs = 4) ∧ (4 : Word).toNat ≤ 4 ∧ writesBuf .rint = false :=
  ⟨State.inv_of_check (by decide), ⟨_, rfl, by decide⟩, by decide, by decide⟩

/-- Two buffers that differ in the first byte at LIM. -/
theorem witness_NoCommandReadsAtOrAboveLim : { tiny with lim := 4 }.Inv ∧ Memory.wf [(4, 7#8)] ∧
    (∀ a < (4 : Word).toNat, Memory.read [(4, 7#8)] a = Memory.read tiny.buf a) ∧
    ∃ t, exec .rint { tiny with lim := 4 } = .next t ∧ t.ofs = 4 :=
  ⟨State.inv_of_check (by decide), by decide, by decide, ⟨_, rfl, by decide⟩⟩

/-- Slots and blobs that differ only in elements at their counts. -/
def staleSlots : List Slot := [{ Slot.empty with bits := [(0, 1)] }, { Slot.empty with xi := [(0, 1)] }]

/-- An RBLB over a blob with a stale element, an RPNT over slots with stale elements, and the commands that only read. -/
theorem witness_StaleElementsAreNeverRead :
    staleSlots.length = tiny.slots.length ∧
    (∀ p < 2, SameTouchPoint (tiny.slot p) (slotAt staleSlots p)) ∧
    (∀ a < tiny.blen.toNat, Memory.read [(0, 1#8)] a = Memory.read tiny.blob a) ∧
    tiny.Inv ∧ State.Inv { tiny with blob := [(0, 1)], slots := staleSlots } ∧
    (∃ t, exec .wblb tiny = .next t ∧ t.ofs = 4) ∧ (∃ t, exec (.wpnt 1) tiny = .next t ∧ t.ofs = 16) ∧
    (∃ t, exec .rblb tiny = .next t ∧ t.ofs = 4) ∧ ∃ t, exec (.rpnt 1) tiny = .next t ∧ t.ofs = 16 := by
  refine ⟨by decide, ?_, by decide, State.inv_of_check (by decide), State.inv_of_check (by decide), ⟨_, rfl, by decide⟩,
    ⟨_, rfl, by decide⟩, ⟨_, rfl, by decide⟩, ⟨_, rfl, by decide⟩⟩
  unfold SameTouchPoint
  decide

theorem witness_FailingCommandKeepsCursorAndOperands : tiny.ecode = 0 ∧
    ∃ t, exec .wblb { tiny with lim := 4, blen := 1 } = .next t ∧ t.ecode = 1 ∧ t.buf ≠ tiny.buf :=
  ⟨by decide, ⟨_, rfl, by decide, by decide⟩⟩

/-- WBLB that ends exactly at LIM. -/
theorem witness_SuccessKeepsOfsWithinLimAndTheRecord : { tiny with lim := 5, blen := 1 }.Inv ∧ tiny.ecode = 0 ∧
    ∃ t, exec .wblb { tiny with lim := 5, blen := 1 } = .next t ∧ t.ecode = 0 ∧ t.ofs.toNat = 5 :=
  ⟨State.inv_of_check (by decide), by decide, ⟨_, rfl, by decide, by decide⟩⟩

theorem witness_EachCommandRaisesOnlyItsFailures : tiny.ecode = 0 ∧
    ∃ t, exec .ckrl { tiny with role := 2 } = .next t ∧ t.ecode = 3 :=
  ⟨by decide, ⟨_, rfl, by decide⟩⟩

/-- RINT; an UNPK and an RPNT, with another slot beside theirs; an RPKT with NPT = 1; a CLRE; a CKRL that fails. -/
theorem witness_EachCommandWritesOnlyItsOwnState :
    (∃ t, exec .rint tiny = .next t ∧ t.ofs = 4) ∧
    (∃ t, exec (.unpk 1) { tiny with val := 8, blen := 1 } = .next t ∧ (t.slot 1).nbits = 8 ∧ 0 ≠ (1 : BitVec 8).toNat) ∧
    (∃ t, exec (.rpnt 1) tiny = .next t ∧ t.ofs = 16) ∧
    (∃ t, exec .rpkt { tiny with npt := 1 } = .next t ∧ t.ofs = 20 ∧ { tiny with npt := 1 }.npt.toNat ≤ 1) ∧
    (∃ t, exec .clre { tiny with ecode := 1, eofs := 8 } = .next t ∧ t.eofs = 0) ∧
    ∃ t, exec .ckrl { tiny with role := 2 } = .next t ∧ t.ecode ∈ failuresOf .ckrl :=
  ⟨⟨_, rfl, by decide⟩, ⟨_, rfl, by decide, by decide⟩, ⟨_, rfl, by decide⟩, ⟨_, rfl, by decide, by decide⟩,
    ⟨_, rfl, by decide⟩, ⟨_, rfl, by decide⟩⟩

end Sys2Proof.Tests
end

section
/-!
SUPPORT. Completion: the reset state meets the invariant, every event at the port is carried out to completion, and what
the carrying out leaves alone at the port (rules R5, R7, R27, R30, R73).
-/

namespace Sys2Proof.Machine

/-! ### The reset state -/

/-- The reset state of legal parameters meets the invariant (rules R27, R30): of the ranges only LIM = CAP is not 0. -/
theorem State.resetOf_inv {c : Params} (hc : c.Legal) : (State.resetOf c).Inv where
  params_legal := hc
  buf_wf := ⟨.nil, by simp [State.resetOf]⟩
  buf_below := by simp [State.resetOf]
  lim_le := Nat.mod_le _ _
  blob_wf := ⟨.nil, by simp [State.resetOf]⟩
  blob_below := by simp [State.resetOf]
  blen_le := Nat.zero_le _
  npt_le := Nat.zero_le _
  record := ⟨Nat.zero_le _, fun _ => ⟨rfl, rfl⟩, fun _ => rfl, fun _ => rfl, hc.2.2.1⟩
  scout_range := by simp [State.resetOf]
  slots_length := List.length_replicate
  slots_inv := fun _ hx => List.eq_of_mem_replicate hx ▸ Slot.empty_inv c

theorem Params.reference_legal : Params.reference.Legal := by decide

/-! ### What commands and host writes leave alone: the parameters, the pending events and the reply -/

/-- The parts of a state that no command and no host write touches: the parameters (rule R28) and the two sides of the
host port. -/
structure KeepsPort (s t : State) : Prop where
  params : t.params = s.params
  port : t.port = s.port
  reply : t.reply = s.reply

/-- An outcome that is a next state with the same parameters and the same port. -/
def CompletesAtPort (s : State) (o : Host.Outcome State Fault Refusal) : Prop := ∃ t, o = .next t ∧ KeepsPort s t

theorem KeepsPort.refl (s : State) : KeepsPort s s := ⟨rfl, rfl, rfl⟩

theorem KeepsPort.completes {s t : State} (h : KeepsPort s t) : CompletesAtPort s (.next t) := ⟨t, rfl, h⟩

theorem KeepsPort.raise (s : State) (f : Failure) (eofs eidx : Nat) : KeepsPort s (s.raise f eofs eidx) :=
  ⟨rfl, rfl, rfl⟩

theorem KeepsPort.finishWrite (s : State) (w : Memory 8 × Result Report Nat) : KeepsPort s (s.finishWrite w) := by
  obtain ⟨buf, o | r⟩ := w <;> exact ⟨rfl, rfl, rfl⟩

theorem KeepsPort.withSlotOperand {s : State} (a : BitVec 8) {k : Nat → State} (h : ∀ p, KeepsPort s (k p)) :
    KeepsPort s (s.withSlotOperand a k) := by
  unfold State.withSlotOperand
  split
  · exact h _
  · exact .raise s _ _ _

/-! ### Every command completes (rule R130) -/

theorem execRint_completes (s : State) : CompletesAtPort s (execRint s) := by
  unfold execRint
  split <;> exact ⟨_, rfl, rfl, rfl, rfl⟩

theorem execRblb_completes (s : State) : CompletesAtPort s (execRblb s) := by
  unfold execRblb
  split <;> exact ⟨_, rfl, rfl, rfl, rfl⟩

theorem execPack_completes (a : BitVec 8) (s : State) : CompletesAtPort s (execPack a s) :=
  KeepsPort.completes (.withSlotOperand a fun _ => ⟨rfl, rfl, rfl⟩)

theorem execUnpk_completes (a : BitVec 8) (s : State) : CompletesAtPort s (execUnpk a s) := by
  refine (KeepsPort.withSlotOperand a fun p => ?_).completes
  split <;> exact ⟨rfl, rfl, rfl⟩

theorem execWpnt_completes (a : BitVec 8) (s : State) : CompletesAtPort s (execWpnt a s) := by
  refine (KeepsPort.withSlotOperand a fun p => ?_).completes
  split
  · exact .raise s _ _ _
  · exact .finishWrite s _

theorem execRpnt_completes (a : BitVec 8) (s : State) : CompletesAtPort s (execRpnt a s) := by
  refine (KeepsPort.withSlotOperand a fun p => ?_).completes
  split <;> exact ⟨rfl, rfl, rfl⟩

theorem execWpkt_completes (s : State) : CompletesAtPort s (execWpkt s) := by
  unfold execWpkt
  split
  · exact (KeepsPort.raise s _ _ _).completes
  · exact (KeepsPort.finishWrite s _).completes

theorem execRpkt_completes (s : State) : CompletesAtPort s (execRpkt s) := by
  unfold execRpkt
  dsimp only
  split <;> exact ⟨_, rfl, rfl, rfl, rfl⟩

theorem execCkrl_completes (s : State) : CompletesAtPort s (execCkrl s) := by
  unfold execCkrl
  split
  · exact (KeepsPort.refl s).completes
  · exact (KeepsPort.raise s _ _ _).completes

theorem execScal_completes (s : State) : CompletesAtPort s (execScal s) := by
  unfold execScal
  split
  · exact (KeepsPort.raise s _ _ _).completes
  · split
    · exact (KeepsPort.raise s _ _ _).completes
    · exact ⟨_, rfl, rfl, rfl, rfl⟩

/-- Every command ends in a next state, from every state, and leaves the port alone. -/
theorem exec_completes (i : Instr) (s : State) : CompletesAtPort s (exec i s) := by
  cases i with
  | nop => exact (KeepsPort.refl s).completes
  | wint => exact (KeepsPort.finishWrite s _).completes
  | rint => exact execRint_completes s
  | wblb => exact (KeepsPort.finishWrite s _).completes
  | rblb => exact execRblb_completes s
  | pack a => exact execPack_completes a s
  | unpk a => exact execUnpk_completes a s
  | wpnt a => exact execWpnt_completes a s
  | rpnt a => exact execRpnt_completes a s
  | wpkt => exact execWpkt_completes s
  | rpkt => exact execRpkt_completes s
  | ckrl => exact execCkrl_completes s
  | scal => exact execScal_completes s
  | clre => exact ⟨_, rfl, rfl, rfl, rfl⟩

/-- Every command word completes: gated, illegal or performed (rules R66, R67, R135). -/
theorem execute_completes (w : Word) (s : State) : CompletesAtPort s (execute w s) := by
  unfold execute
  split
  · split
    · exact exec_completes .clre s
    · exact (KeepsPort.refl s).completes
  · split
    · exact (KeepsPort.raise s _ _ _).completes
    · exact exec_completes _ s

/-! ### Every event completes (rules R72, R73) -/

theorem KeepsPort.writeReg (s : State) (r : Reg) (v : Word) : KeepsPort s (s.writeReg r v) := by
  cases r with
  | lim | blen | npt =>
    unfold State.writeReg
    dsimp only
    split <;> exact ⟨rfl, rfl, rfl⟩
  | _ => exact ⟨rfl, rfl, rfl⟩

theorem KeepsPort.store (s : State) (sp : Space) (slot index : Nat) (data : DWord) :
    KeepsPort s (s.store sp slot index data) := by
  cases sp with
  | reg =>
    unfold State.store
    dsimp only
    split
    · exact .writeReg s _ _
    · exact .refl s
  | slotReg =>
    unfold State.store
    dsimp only
    split <;> exact ⟨rfl, rfl, rfl⟩
  | _ => exact ⟨rfl, rfl, rfl⟩

theorem hostWrite_completes (sp : BitVec 3) (p : BitVec 8) (ix : Word) (d : DWord) (s : State) :
    CompletesAtPort s (hostWrite sp p ix d s) := by
  unfold hostWrite
  split
  · exact execute_completes _ s
  · split
    · exact (KeepsPort.store s _ _ _ _).completes
    · exact (KeepsPort.refl s).completes

/-- Every event is carried out to a next state with the same parameters and the same events pending, a reset among them
(log entry 2). The reply is the event's own. -/
theorem takeEvent_completes (e : HostEvent) (s : State) :
    ∃ t, takeEvent e s = .next t ∧ t.params = s.params ∧ t.port = s.port := by
  cases e with
  | hostWrite sp p ix d =>
    obtain ⟨t, ht, hk⟩ := hostWrite_completes sp p ix d s
    exact ⟨t, ht, hk.params, hk.port⟩
  | hostRead sp p ix => exact ⟨_, rfl, rfl, rfl⟩
  | reset => exact ⟨_, rfl, rfl, rfl⟩

/-! ### Steps and runs -/

/-- Rule R7: the block takes no action of its own. -/
theorem step_of_idle {s : State} (h : s.port = []) : step s = .next s := by
  unfold step
  rw [h]

theorem step_of_event {s : State} {e : HostEvent} {rest : List HostEvent} (h : s.port = e :: rest) :
    step s = takeEvent e (s.withPort rest) := by
  unfold step
  rw [h]

/-- With nothing at the port `tail` is empty too, so one statement serves both cases of `step`. -/
theorem step_completes (s : State) : ∃ t, step s = .next t ∧ t.params = s.params ∧ t.port = s.port.tail := by
  cases h : s.port with
  | nil => exact ⟨s, step_of_idle h, rfl, h⟩
  | cons e rest =>
    rw [step_of_event h]
    exact takeEvent_completes e (s.withPort rest)

/-- One step more in front of a run. -/
theorem core_run_succ (M : Host.Core) {k : Nat} {s t : M.State} (h : M.step s = .next t) :
    M.run (k + 1) s = M.run k t := by
  rw [Host.Core.run, h]

/-- A run of any length from any state is safe. -/
theorem safeRun (k : Nat) (s : State) : SafeRun k s := by
  induction k generalizing s with
  | zero => exact ⟨s, rfl⟩
  | succ k ih =>
    obtain ⟨t, ht, -⟩ := step_completes s
    obtain ⟨u, hu⟩ := ih t
    exact ⟨u, (core_run_succ Sys2Proof.core ht).trans hu⟩

end Sys2Proof.Machine
end

section
/-!
PROOFS. The obligations of `00_scope.md`.
-/

namespace Sys2Proof.Proofs

open Sys2Proof.Machine

/-- Settles O3: the invariant of `State.resetOf` for all legal parameters, at the reference values of rule R5 for
`State.reset`. -/
theorem resetStateMeetsTheInvariant : Obligations.ResetStateMeetsTheInvariant :=
  ⟨fun _ => State.resetOf_inv, rfl, State.resetOf_inv Params.reference_legal⟩

/-- Settles O10: a step does nothing at an idle port and completes the oldest event otherwise; runs by induction on
their length. -/
theorem everyStepCompletes : Obligations.EveryStepCompletes := by
  refine ⟨fun s => step_of_idle, fun s e rest h => ?_, safeRun⟩
  obtain ⟨t, ht, -, hp⟩ := step_completes s
  exact ⟨t, ht, by rw [hp, h, List.tail_cons]⟩

end Sys2Proof.Proofs
end

section
/-!
SUPPORT. What a command can do, said once: `Runs s i t` lists the ways in which command `i` ends, from state `s`, in
state `t`, and `exec_eq_next_iff` ties the list to `exec`. A rule over all commands goes through this list.
-/

namespace Sys2Proof.Machine

open Sys2Proof.Stated

@[simp] theorem Failure.code_ne_zero (f : Failure) : f.code ≠ 0 := by cases f <;> decide

/-! ### The records a packet command reads -/

/-- Commit to the slot of index `q` the record that was read for it, if there is one. -/
def commitAt (rs : Nat → Option PointRecord) (q : Nat) (x : Slot) : Slot := (rs q).elim x x.commit

/-- The loop of DecodePacket (rule R111) over `n` records from slot `p` and offset `o` on, apart from the slots: `rs`
are the records it accepts, each for its slot, and `res` is how it ends. -/
structure ReadsRecords (lim : Nat) (buf : Memory 8) (n p o : Nat) (rs : Nat → Option PointRecord)
    (res : Result Report Nat) : Prop where
  in_range : ∀ q r, rs q = some r → p ≤ q ∧ q < p + n
  accepted : ∀ q r, rs q = some r → ∃ a, readPoint lim buf a = .ok r
  ok : ∀ o', res = .ok o' → o' = o ∨ o' ≤ lim
  fail : ∀ r, res = .fail r → r.failure = .malformedPacket ∧ r.eidx < p + n
  decodes : ∀ slots, decodePoints lim buf n p o slots = (slots.mapIdx (commitAt rs), res)

/-- Committing to slot `p` first and then to the slots above it is committing to each slot once. -/
theorem mapIdx_commitAt_set (slots : List Slot) (p : Nat) (r : PointRecord) (rs : Nat → Option PointRecord)
    (hp : rs p = none) :
    (slots.set p ((slotAt slots p).commit r)).mapIdx (commitAt rs) =
      slots.mapIdx (commitAt (Function.update rs p (some r))) := by
  refine List.ext_getElem (by simp) fun q hq _ => ?_
  replace hq : q < slots.length := by simpa using hq
  by_cases h : p = q
  · subst h
    simp [commitAt, hp, slotAt, hq]
  · simp [commitAt, h, Function.update_of_ne (Ne.symm h)]

theorem mapIdx_commitAt_none (slots : List Slot) : slots.mapIdx (commitAt fun _ => none) = slots :=
  List.ext_getElem (by simp) fun _ _ _ => by simp [commitAt]

/-- The loop of DecodePacket reads its records whatever the slots hold. -/
theorem decodePoints_reads (lim : Nat) (buf : Memory 8) (n p o : Nat) :
    ∃ rs res, ReadsRecords lim buf n p o rs res := by
  induction n generalizing p o with
  | zero =>
    exact ⟨fun _ => none, .ok o,
      { in_range := nofun, accepted := nofun, fail := nofun, ok := fun _ h => .inl (by cases h; rfl)
        decodes := fun slots => by rw [mapIdx_commitAt_none]; rfl }⟩
  | succ n ih =>
    cases hr : readPoint lim buf o with
    | fail e =>
      refine ⟨fun _ => none, .fail (e.at p),
        { in_range := nofun, accepted := nofun, ok := nofun, fail := ?_, decodes := fun slots => ?_ }⟩
      · rintro _ ⟨⟩
        exact ⟨(readPoint_fail lim buf o e hr).1, by simp [FieldFail.at]⟩
      · rw [mapIdx_commitAt_none, decodePoints, hr]
    | ok r =>
      obtain ⟨rs, res, h⟩ := ih (p + 1) r.next
      have hnext : r.next ≤ lim := (readPoint_ok lim buf o r hr).2.1
      have hp : rs p = none := by
        by_contra hne
        obtain ⟨x, hx⟩ := Option.ne_none_iff_exists'.mp hne
        have := h.in_range p x hx
        omega
      have hupd : ∀ q x, Function.update rs p (some r) q = some x → (q = p ∧ x = r) ∨ rs q = some x := by
        intro q x hx
        by_cases hq : q = p
        · subst hq
          rw [Function.update_self, Option.some.injEq] at hx
          exact .inl ⟨rfl, hx.symm⟩
        · rw [Function.update_of_ne hq] at hx
          exact .inr hx
      refine ⟨Function.update rs p (some r), res,
        { in_range := fun q x hx => ?_, accepted := fun q x hx => ?_, ok := fun o' ho => ?_, fail := fun e he => ?_,
          decodes := fun slots => ?_ }⟩
      · rcases hupd q x hx with ⟨rfl, -⟩ | hx
        · omega
        · have := h.in_range q x hx
          omega
      · rcases hupd q x hx with ⟨-, rfl⟩ | hx
        · exact ⟨o, hr⟩
        · exact h.accepted q x hx
      · rcases h.ok o' ho with rfl | hle
        · exact .inr hnext
        · exact .inr hle
      · obtain ⟨hf, hq⟩ := h.fail e he
        exact ⟨hf, by omega⟩
      · rw [decodePoints, hr, ← mapIdx_commitAt_set slots p r rs hp]
        exact h.decodes _

/-- Where the slots of the state stand after the records have been committed. -/
theorem slotAt_mapIdx (f : Nat → Slot → Slot) (slots : List Slot) (q : Nat) :
    slotAt (slots.mapIdx f) q = if q < slots.length then f q (slotAt slots q) else Slot.empty := by
  by_cases h : q < slots.length
  · simp [slotAt, h]
  · simp [slotAt, h]

/-- The STRICT test, made on the result of the loop, fails only with MalformedPacket and passes an offset on. -/
theorem strictTest_ok {strict : Bool} {lim o : Nat} {res : Result Report Nat} (h : strictTest strict lim res = .ok o) :
    res = .ok o := by
  cases res with
  | fail e => cases h
  | ok o' =>
    simp only [strictTest, Result.bind_ok] at h
    split at h
    · cases h
    · exact h

theorem strictTest_fail {strict : Bool} {lim : Nat} {r : Report} {res : Result Report Nat}
    (h : strictTest strict lim res = .fail r) :
    res = .fail r ∨ (r.failure = .malformedPacket ∧ r.eidx = 0) := by
  cases res with
  | fail e => exact .inl h
  | ok o' =>
    simp only [strictTest, Result.bind_ok] at h
    split at h
    · cases h; exact .inr ⟨rfl, rfl⟩
    · cases h

/-! ### The commands that write BUF -/

/-- Command `i`, not refused, writes the fields `fs` from offset `o` on (rules R80, R82, R102, R112). -/
inductive Writes (s : State) : Instr → Nat → List (Nat × WireField) → Prop where
  | wint : Writes s .wint s.ofs.toNat [(0, .int s.val)]
  | wblb : Writes s .wblb s.ofs.toNat [(0, .blob s.blobSeq)]
  | wpnt {a : BitVec 8} (ha : a.toNat < s.params.maxPts) (h : (s.slot a.toNat).nxi = (s.slot a.toNat).nxv) :
      Writes s (.wpnt a) s.ofs.toNat ((s.slot a.toNat).touchPoint.fields.map fun f => (a.toNat, f))
  | wpkt (h : firstUnequal s.slots s.npt.toNat 0 = none) :
      Writes s .wpkt 0 ((0, .int s.role) :: recordFields s.slots s.npt.toNat 0)

/-- A single field is written as its own function writes it. -/
theorem writeFields_singleton (lim : Nat) (buf : Memory 8) (o p : Nat) (f : WireField) :
    writeFields lim buf o [(p, f)] =
      ((writeField lim buf o f).1, (writeField lim buf o f).2.mapFail (FieldFail.at p)) := by
  simp only [writeFields]
  rcases writeField lim buf o f with ⟨b, o' | e⟩ <;> rfl

theorem withSlotOperand_of_lt {s : State} {a : BitVec 8} (h : a.toNat < s.params.maxPts) (k : Nat → State) :
    s.withSlotOperand a k = k a.toNat := if_pos h

theorem withSlotOperand_of_le {s : State} {a : BitVec 8} (h : s.params.maxPts ≤ a.toNat) (k : Nat → State) :
    s.withSlotOperand a k = s.raise .illegalCommand 0 0 := if_neg (Nat.not_lt.mpr h)

/-- A command that writes fields ends as `finishWrite` says (rules R12, R137). -/
theorem Writes.exec_eq {s : State} {i : Instr} {o : Nat} {fs : List (Nat × WireField)} (h : Writes s i o fs) :
    exec i s = .next (s.finishWrite (writeFields s.lim.toNat s.buf o fs)) := by
  cases h with
  | wint => rw [writeFields_singleton]; rfl
  | wblb => rw [writeFields_singleton]; rfl
  | wpnt ha heq =>
    show execWpnt _ s = _
    rw [execWpnt, withSlotOperand_of_lt ha, if_neg (not_not.mpr heq), ← writePoint_eq_writeFields]
  | wpkt heq =>
    show execWpkt s = _
    rw [execWpkt, heq, ← encodePacket_eq_writeFields]

/-- A field is reported for a slot the command works on, or for 0. -/
theorem Writes.eidx_cases {s : State} {i : Instr} {o : Nat} {fs : List (Nat × WireField)} (h : Writes s i o fs)
    {q : Nat} {f : WireField} (hq : (q, f) ∈ fs) : q = 0 ∨ q < s.params.maxPts ∨ q < s.npt.toNat := by
  cases h with
  | wint | wblb =>
    simp only [List.mem_singleton, Prod.mk.injEq] at hq
    exact .inl hq.1
  | wpnt ha _ =>
    obtain ⟨g, -, hg⟩ := List.mem_map.mp hq
    cases hg
    exact .inr (.inl ha)
  | wpkt _ =>
    rcases List.mem_cons.mp hq with hq | hq
    · cases hq
      exact .inl rfl
    · have := recordFields_mem _ _ _ _ _ hq
      exact .inr (.inr (by omega))

theorem Writes.ne_nil {s : State} {i : Instr} {o : Nat} {fs : List (Nat × WireField)} (h : Writes s i o fs) :
    fs ≠ [] := by
  cases h <;> simp [TouchPoint.fields]

theorem writeField_fail {lim : Nat} {buf b : Memory 8} {o : Nat} {f : WireField} {e : FieldFail}
    (h : writeField lim buf o f = (b, .fail e)) : e.failure = .outOfBounds := by
  cases f with
  | int v =>
    rcases fieldWriteInt_cases lim buf o v with ⟨-, h'⟩ | ⟨-, h'⟩ <;> rw [writeField, h'] at h <;> cases h
    rfl
  | blob v =>
    rcases fieldWriteBytes_cases lim buf o v with ⟨-, h'⟩ | ⟨-, -, h'⟩ | ⟨-, h'⟩ <;>
      rw [writeField, h'] at h <;> cases h <;> rfl

/-- A field that does not fit is the only thing that stops the writing, in any buffer (rules R44, R46). -/
theorem writeFields_fail {lim : Nat} {buf b : Memory 8} {o : Nat} {fs : List (Nat × WireField)} {r : Report}
    (h : writeFields lim buf o fs = (b, .fail r)) : r.failure = .outOfBounds ∧ ∃ f, (r.eidx, f) ∈ fs := by
  induction fs generalizing buf o with
  | nil => cases h
  | cons f fs ih =>
    obtain ⟨p, f⟩ := f
    rw [writeFields] at h
    rcases hw : writeField lim buf o f with ⟨c, o' | e⟩ <;> rw [hw] at h
    · obtain ⟨h1, g, hg⟩ := ih h
      exact ⟨h1, g, List.mem_cons_of_mem _ hg⟩
    · cases h
      exact ⟨writeField_fail hw, f, List.mem_cons_self⟩

/-- The buffer a sequence of fields leaves, finished or stopped: canonical, within its size, and as before from LIM
on. -/
theorem writeFields_buf {n lim : Nat} (hn : lim ≤ n) {buf b : Memory 8} (hw : buf.wf) {o : Nat}
    {fs : List (Nat × WireField)} {res : Result Report Nat} (h : writeFields lim buf o fs = (b, res)) :
    b.wf ∧ (Memory.below n buf → Memory.below n b) ∧ ∀ a, lim ≤ a → Memory.read b a = Memory.read buf a := by
  obtain ⟨hwf, hb, hf, -⟩ := writeFields_frame hn buf hw o fs
  rw [h] at hwf hb hf
  exact ⟨hwf, hb, fun a ha => hf a (.inr ha)⟩

/-! ### Commands that fail with nothing but the record changed -/

/-- Command `i` fails with `raise f(e, q)` and changes nothing else (rules R131 to R133). -/
inductive Rejects (s : State) : Instr → Failure → Nat → Nat → Prop where
  | noSlot {i : Instr} {a : BitVec 8} (hi : i.slot? = some a) (ha : s.params.maxPts ≤ a.toNat) :
      Rejects s i .illegalCommand 0 0
  | rint {e : FieldFail} (h : fieldReadInt s.lim.toNat s.buf s.ofs.toNat = .fail e) :
      Rejects s .rint e.failure e.eofs 0
  | rblb {e : FieldFail} (h : fieldReadBytes s.lim.toNat s.buf s.ofs.toNat = .fail e) :
      Rejects s .rblb e.failure e.eofs 0
  | unpk {a : BitVec 8} {f : Failure} (ha : a.toNat < s.params.maxPts)
      (h : unpackBits s.blobSeq (sext32 s.val) = .fail f) : Rejects s (.unpk a) f 0 a.toNat
  | wpnt {a : BitVec 8} (ha : a.toNat < s.params.maxPts) (h : (s.slot a.toNat).nxi ≠ (s.slot a.toNat).nxv) :
      Rejects s (.wpnt a) .illegalCommand 0 a.toNat
  | rpnt {a : BitVec 8} {e : FieldFail} (ha : a.toNat < s.params.maxPts)
      (h : readPoint s.lim.toNat s.buf s.ofs.toNat = .fail e) : Rejects s (.rpnt a) e.failure e.eofs a.toNat
  | wpkt {q : Nat} (h : firstUnequal s.slots s.npt.toNat 0 = some q) : Rejects s .wpkt .illegalCommand 0 q
  | rpkt {e : FieldFail} (h : fieldReadInt s.lim.toNat s.buf 0 = .fail e) : Rejects s .rpkt .malformedPacket 0 0
  | ckrl (h : RoleTag.ofWord s.role = none) : Rejects s .ckrl .unknownRole 0 0
  | scal (h : ∀ r, rescale s.scin = some r → r < -32768 ∨ 32767 < r) : Rejects s .scal .rangeError 0 0

theorem exec_noSlot {s : State} {i : Instr} {a : BitVec 8} (hi : i.slot? = some a) (ha : s.params.maxPts ≤ a.toNat) :
    exec i s = .next (s.raise .illegalCommand 0 0) := by
  cases i with
  | pack p | unpk p | wpnt p | rpnt p =>
    cases hi
    exact congrArg Host.Outcome.next (withSlotOperand_of_le ha _)
  | _ => cases hi

theorem Rejects.exec_eq {s : State} {i : Instr} {f : Failure} {e q : Nat} (h : Rejects s i f e q) :
    exec i s = .next (s.raise f e q) := by
  cases h with
  | noSlot hi ha => exact exec_noSlot hi ha
  | rint h => show execRint s = _; rw [execRint, h]; rfl
  | rblb h => show execRblb s = _; rw [execRblb, h]; rfl
  | unpk ha h => show execUnpk _ s = _; rw [execUnpk, withSlotOperand_of_lt ha, h]
  | wpnt ha h => show execWpnt _ s = _; rw [execWpnt, withSlotOperand_of_lt ha, if_pos h]
  | rpnt ha h => show execRpnt _ s = _; rw [execRpnt, withSlotOperand_of_lt ha, h]; rfl
  | wpkt h => show execWpkt s = _; rw [execWpkt, h]
  | rpkt h => show execRpkt s = _; rw [execRpkt, decodePacket, h]; rfl
  | ckrl h => show execCkrl s = _; rw [execCkrl, h]
  | scal h =>
    show execScal s = _
    rw [execScal]
    cases hr : rescale s.scin with
    | none => rfl
    | some r => exact if_pos (h r hr)

theorem fieldReadInt_fail {lim : Nat} {buf : Memory 8} {o : Nat} {e : FieldFail}
    (h : fieldReadInt lim buf o = .fail e) : e = ⟨.outOfBounds, o⟩ := by
  rcases fieldReadInt_cases lim buf o with ⟨-, h'⟩ | ⟨-, h'⟩ <;> rw [h'] at h <;> cases h
  rfl

theorem fieldReadBytes_fail {lim : Nat} {buf : Memory 8} {o : Nat} {e : FieldFail}
    (h : fieldReadBytes lim buf o = .fail e) : e = ⟨.outOfBounds, o⟩ ∨ e = ⟨.malformedPacket, o⟩ := by
  rcases fieldReadBytes_cases lim buf o with ⟨-, h'⟩ | ⟨-, -, h'⟩ | ⟨-, -, -, h'⟩ | ⟨-, -, -, h'⟩ <;> rw [h'] at h <;>
    cases h
  · exact .inl rfl
  · exact .inr rfl
  · exact .inl rfl

theorem unpackBits_fail {b : List Byte} {t : Int} {f : Failure} (h : unpackBits b t = .fail f) :
    f = .malformedPacket := by
  rcases unpackBits_cases b t with ⟨-, h'⟩ | ⟨-, -, h'⟩ <;> rw [h'] at h <;> cases h
  rfl

theorem illegalCommand_mem_failuresOf {i : Instr} {a : BitVec 8} (hi : i.slot? = some a) :
    Failure.illegalCommand.code ∈ failuresOf i := by
  cases i with
  | pack | unpk | wpnt | rpnt => simp [failuresOf, Failure.code]
  | _ => cases hi

/-- The failure is one that rule R132 lists for the command. -/
theorem Rejects.code_mem {s : State} {i : Instr} {f : Failure} {e q : Nat} (h : Rejects s i f e q) :
    f.code ∈ failuresOf i := by
  cases h with
  | noSlot hi _ => exact illegalCommand_mem_failuresOf hi
  | rint h => rw [fieldReadInt_fail h]; simp [failuresOf, Failure.code]
  | rblb h => rcases fieldReadBytes_fail h with rfl | rfl <;> simp [failuresOf, Failure.code]
  | unpk ha h => rw [unpackBits_fail h]; simp [failuresOf, Failure.code]
  | rpnt ha h => rw [(readPoint_fail _ _ _ _ h).1]; simp [failuresOf, Failure.code]
  | _ => simp [failuresOf, Failure.code]

/-- The arguments of `raise` are those of rule R131. -/
theorem Rejects.record {s : State} {i : Instr} {f : Failure} {e q : Nat} (h : Rejects s i f e q) :
    (f = .unknownRole ∨ f = .illegalCommand ∨ f = .rangeError → e = 0) ∧ (f = .unknownRole ∨ f = .rangeError → q = 0) ∧
    (q = 0 ∨ q < s.params.maxPts ∨ q < s.npt.toNat) := by
  cases h with
  | rint h => rw [fieldReadInt_fail h]; simp
  | rblb h => rcases fieldReadBytes_fail h with rfl | rfl <;> simp
  | unpk ha h => rw [unpackBits_fail h]; simp [ha]
  | wpnt ha _ => simp [ha]
  | rpnt ha h => rw [(readPoint_fail _ _ _ _ h).1]; simp [ha]
  | wpkt h =>
    rcases firstUnequal_cases s.slots s.npt.toNat 0 with ⟨h', -⟩ | ⟨p, h', -, hp, -⟩ <;> rw [h'] at h <;> cases h
    simp only [Nat.zero_add] at hp
    simp [hp]
  | _ => simp

/-! ### All commands -/

/-- The ways in which command `i`, from state `s`, ends in state `t`. -/
inductive Runs (s : State) : Instr → State → Prop where
  | nop : Runs s .nop s
  | clre : Runs s .clre s.clearFailure
  | rejected {i : Instr} {f : Failure} {e q : Nat} (h : Rejects s i f e q) : Runs s i (s.raise f e q)
  | wrote {i : Instr} {o o' : Nat} {fs : List (Nat × WireField)} {b : Memory 8} (h : Writes s i o fs)
      (hw : writeFields s.lim.toNat s.buf o fs = (b, .ok o')) : Runs s i ((s.withBuf b).withOfs o')
  | stopped {i : Instr} {o : Nat} {fs : List (Nat × WireField)} {b : Memory 8} {r : Report} (h : Writes s i o fs)
      (hw : writeFields s.lim.toNat s.buf o fs = (b, .fail r)) : Runs s i ((s.withBuf b).raiseReport r)
  | rint {o : Nat} {v : Word} (h : fieldReadInt s.lim.toNat s.buf s.ofs.toNat = .ok (o, v)) :
      Runs s .rint ((s.withVal v).withOfs o)
  | rblb {o : Nat} {b : List Byte} (h : fieldReadBytes s.lim.toNat s.buf s.ofs.toNat = .ok (o, b)) :
      Runs s .rblb ((s.withBlobSeq b).withOfs o)
  | pack {a : BitVec 8} (ha : a.toNat < s.params.maxPts) :
      Runs s (.pack a) (s.withBlobSeq (packBits (s.slot a.toNat).bitSeq))
  | unpk {a : BitVec 8} {bits : List Bit} (ha : a.toNat < s.params.maxPts)
      (h : unpackBits s.blobSeq (sext32 s.val) = .ok bits) :
      Runs s (.unpk a) (s.setSlot a.toNat ((s.slot a.toNat).withBitSeq bits))
  | rpnt {a : BitVec 8} {r : PointRecord} (ha : a.toNat < s.params.maxPts)
      (h : readPoint s.lim.toNat s.buf s.ofs.toNat = .ok r) :
      Runs s (.rpnt a) ((s.setSlot a.toNat ((s.slot a.toNat).commit r)).withOfs r.next)
  | rpkt {o o' : Nat} {v : Word} {rs : Nat → Option PointRecord} {res : Result Report Nat}
      (hv : fieldReadInt s.lim.toNat s.buf 0 = .ok (o, v))
      (hr : ReadsRecords s.lim.toNat s.buf s.npt.toNat 0 o rs res)
      (hs : strictTest s.strict s.lim.toNat res = .ok o') :
      Runs s .rpkt (((s.withRole v).withSlots (s.slots.mapIdx (commitAt rs))).withOfs o')
  | rpktStopped {o : Nat} {v : Word} {rs : Nat → Option PointRecord} {res : Result Report Nat} {r : Report}
      (hv : fieldReadInt s.lim.toNat s.buf 0 = .ok (o, v))
      (hr : ReadsRecords s.lim.toNat s.buf s.npt.toNat 0 o rs res)
      (hs : strictTest s.strict s.lim.toNat res = .fail r) :
      Runs s .rpkt (((s.withRole v).withSlots (s.slots.mapIdx (commitAt rs))).raiseReport r)
  | ckrl {tag : RoleTag} (h : RoleTag.ofWord s.role = some tag) : Runs s .ckrl s
  | scal {r : Int} (h : rescale s.scin = some r) (hr : -32768 ≤ r ∧ r ≤ 32767) :
      Runs s .scal (s.withScout (BitVec.ofInt 32 r))

theorem Runs.exec_eq {s t : State} {i : Instr} (h : Runs s i t) : exec i s = .next t := by
  cases h with
  | nop | clre => rfl
  | rejected h => exact h.exec_eq
  | wrote h hw => rw [h.exec_eq, hw]; rfl
  | stopped h hw => rw [h.exec_eq, hw]; rfl
  | rint h => show execRint s = _; rw [execRint, h]
  | rblb h => show execRblb s = _; rw [execRblb, h]
  | pack ha => show execPack _ s = _; rw [execPack, withSlotOperand_of_lt ha]
  | unpk ha h => show execUnpk _ s = _; rw [execUnpk, withSlotOperand_of_lt ha, h]
  | rpnt ha h => show execRpnt _ s = _; rw [execRpnt, withSlotOperand_of_lt ha, h]
  | rpkt hv hr hs => show execRpkt s = _; rw [execRpkt, decodePacket, hv]; dsimp only; rw [hr.decodes, hs]
  | rpktStopped hv hr hs => show execRpkt s = _; rw [execRpkt, decodePacket, hv]; dsimp only; rw [hr.decodes, hs]
  | ckrl h => show execCkrl s = _; rw [execCkrl, h]
  | scal h hr => show execScal s = _; rw [execScal, h]; exact if_neg (by omega)

/-- A command that writes fields runs, to its end or to the field that does not fit. -/
theorem Writes.runs {s : State} {i : Instr} {o : Nat} {fs : List (Nat × WireField)} (h : Writes s i o fs) :
    ∃ t, Runs s i t := by
  rcases hw : writeFields s.lim.toNat s.buf o fs with ⟨b, o' | r⟩
  · exact ⟨_, .wrote h hw⟩
  · exact ⟨_, .stopped h hw⟩

/-- A slot command runs if it does so for an operand that names a slot. -/
theorem runs_of_slot {s : State} {i : Instr} {a : BitVec 8} (hi : i.slot? = some a)
    (h : a.toNat < s.params.maxPts → ∃ t, Runs s i t) : ∃ t, Runs s i t := by
  by_cases ha : a.toNat < s.params.maxPts
  · exact h ha
  · exact ⟨_, .rejected (.noSlot hi (Nat.not_lt.mp ha))⟩

theorem runs_rpkt (s : State) : ∃ t, Runs s .rpkt t := by
  cases hv : fieldReadInt s.lim.toNat s.buf 0 with
  | fail e => exact ⟨_, .rejected (.rpkt hv)⟩
  | ok ov =>
    obtain ⟨rs, res, hr⟩ := decodePoints_reads s.lim.toNat s.buf s.npt.toNat 0 ov.1
    cases hs : strictTest s.strict s.lim.toNat res with
    | ok o => exact ⟨_, .rpkt hv hr hs⟩
    | fail r => exact ⟨_, .rpktStopped hv hr hs⟩

theorem runs_scal (s : State) : ∃ t, Runs s .scal t := by
  cases h : rescale s.scin with
  | none => exact ⟨_, .rejected (.scal fun r hr => by rw [h] at hr; cases hr)⟩
  | some r =>
    by_cases hr : -32768 ≤ r ∧ r ≤ 32767
    · exact ⟨_, .scal h hr⟩
    · exact ⟨_, .rejected (.scal fun r' hr' => by rw [h] at hr'; cases hr'; omega)⟩

/-- Every command, from every state, is in the list. -/
theorem exists_runs (i : Instr) (s : State) : ∃ t, Runs s i t := by
  cases i with
  | nop => exact ⟨_, .nop⟩
  | clre => exact ⟨_, .clre⟩
  | wint => exact Writes.wint.runs
  | wblb => exact Writes.wblb.runs
  | rint =>
    cases h : fieldReadInt s.lim.toNat s.buf s.ofs.toNat with
    | ok ov => exact ⟨_, .rint h⟩
    | fail e => exact ⟨_, .rejected (.rint h)⟩
  | rblb =>
    cases h : fieldReadBytes s.lim.toNat s.buf s.ofs.toNat with
    | ok ob => exact ⟨_, .rblb h⟩
    | fail e => exact ⟨_, .rejected (.rblb h)⟩
  | pack a => exact runs_of_slot rfl fun ha => ⟨_, .pack ha⟩
  | unpk a =>
    refine runs_of_slot rfl fun ha => ?_
    cases h : unpackBits s.blobSeq (sext32 s.val) with
    | ok bits => exact ⟨_, .unpk ha h⟩
    | fail f => exact ⟨_, .rejected (.unpk ha h)⟩
  | wpnt a =>
    refine runs_of_slot rfl fun ha => ?_
    by_cases h : (s.slot a.toNat).nxi = (s.slot a.toNat).nxv
    · exact (Writes.wpnt ha h).runs
    · exact ⟨_, .rejected (.wpnt ha h)⟩
  | rpnt a =>
    refine runs_of_slot rfl fun ha => ?_
    cases h : readPoint s.lim.toNat s.buf s.ofs.toNat with
    | ok r => exact ⟨_, .rpnt ha h⟩
    | fail e => exact ⟨_, .rejected (.rpnt ha h)⟩
  | wpkt =>
    cases h : firstUnequal s.slots s.npt.toNat 0 with
    | none => exact (Writes.wpkt h).runs
    | some q => exact ⟨_, .rejected (.wpkt h)⟩
  | rpkt => exact runs_rpkt s
  | ckrl =>
    cases h : RoleTag.ofWord s.role with
    | some tag => exact ⟨_, .ckrl h⟩
    | none => exact ⟨_, .rejected (.ckrl h)⟩
  | scal => exact runs_scal s

/-- What a command can do. -/
theorem exec_eq_next_iff {i : Instr} {s t : State} : exec i s = .next t ↔ Runs s i t := by
  refine ⟨fun h => ?_, Runs.exec_eq⟩
  obtain ⟨t', ht⟩ := exists_runs i s
  have he : Host.Outcome.next t = .next t' := h.symm.trans ht.exec_eq
  cases he
  exact ht

/-- A field that stops the writing is OutOfBounds, which is among the failures of every command that writes fields. -/
theorem Writes.stopped_report {s : State} {i : Instr} {o : Nat} {fs : List (Nat × WireField)} (h : Writes s i o fs)
    {b : Memory 8} {r : Report} (hw : writeFields s.lim.toNat s.buf o fs = (b, .fail r)) :
    r.failure = .outOfBounds ∧ r.failure.code ∈ failuresOf i ∧
    (r.eidx = 0 ∨ r.eidx < s.params.maxPts ∨ r.eidx < s.npt.toNat) := by
  obtain ⟨hf, f, hm⟩ := writeFields_fail hw
  refine ⟨hf, ?_, h.eidx_cases hm⟩
  rw [hf]
  cases h <;> simp [failuresOf, Failure.code]

/-- A failing RPKT reports MalformedPacket for a slot it works on, or for 0. -/
theorem ReadsRecords.stopped_report {lim n o : Nat} {buf : Memory 8} {rs : Nat → Option PointRecord}
    {res : Result Report Nat} (hr : ReadsRecords lim buf n 0 o rs res) {strict : Bool} {r : Report}
    (hs : strictTest strict lim res = .fail r) : r.failure = .malformedPacket ∧ (r.eidx = 0 ∨ r.eidx < n) := by
  rcases strictTest_fail hs with h | ⟨hf, hq⟩
  · obtain ⟨hf, hq⟩ := hr.fail r h
    exact ⟨hf, .inr (by omega)⟩
  · exact ⟨hf, .inl hq⟩

/-- A packet that is read ends at or below LIM. -/
theorem ReadsRecords.end_le {lim n o o' : Nat} {v : Word} {buf : Memory 8} {rs : Nat → Option PointRecord}
    {res : Result Report Nat} (hr : ReadsRecords lim buf n 0 o rs res) (hv : fieldReadInt lim buf 0 = .ok (o, v))
    {strict : Bool} (hs : strictTest strict lim res = .ok o') : o' ≤ lim := by
  rcases hr.ok o' (strictTest_ok hs) with rfl | h
  · rcases fieldReadInt_cases lim buf 0 with ⟨h4, h⟩ | ⟨-, h⟩ <;> rw [h] at hv <;> cases hv
    exact h4
  · exact h

end Sys2Proof.Machine
end

section
/-!
SUPPORT. Every step keeps the invariant (rules R10, R16, R27, R131): first every command, by the list of what commands
can do, then every host write and every event at the port.
-/

namespace Sys2Proof.Machine

/-! ### Commands -/

/-- What the record may report as its slot is a slot of the block. -/
theorem State.Inv.eidx_lt {s : State} (h : s.Inv) {q : Nat} (hq : q = 0 ∨ q < s.params.maxPts ∨ q < s.npt.toNat) :
    q < s.params.maxPts := by
  have h1 := h.params_legal.2.2.1
  have h2 := h.npt_le
  omega

/-- Recording a failure that a field or record function found keeps the invariant: such a failure may report any
offset. -/
theorem State.Inv.raiseReport {s : State} (h : s.Inv) {r : Report}
    (hf : r.failure = .outOfBounds ∨ r.failure = .malformedPacket) (hq : r.eidx < s.params.maxPts) :
    (s.raiseReport r).Inv := by
  refine State.Inv.raise h _ _ _ hq ?_ ?_ <;> rcases hf with hf | hf <;> simp [hf]

/-- The blob that FieldReadBytes returns is no longer than LIM. -/
theorem fieldReadBytes_ok {lim : Nat} {buf : Memory 8} {o o' : Nat} {b : List Byte}
    (h : fieldReadBytes lim buf o = .ok (o', b)) : b.length ≤ lim ∧ o' ≤ lim := by
  rcases fieldReadBytes_cases lim buf o with ⟨-, h'⟩ | ⟨-, -, h'⟩ | ⟨-, -, -, h'⟩ | ⟨-, -, hle, h'⟩ <;> rw [h'] at h <;>
    cases h
  rw [Memory.readSeq_length]
  omega

theorem fieldReadInt_ok {lim : Nat} {buf : Memory 8} {o o' : Nat} {v : Word}
    (h : fieldReadInt lim buf o = .ok (o', v)) : o' ≤ lim := by
  rcases fieldReadInt_cases lim buf o with ⟨hle, h'⟩ | ⟨-, h'⟩ <;> rw [h'] at h <;> cases h
  exact hle

theorem unpackBits_ok {b : List Byte} {t : Int} {bits : List Bit} (h : unpackBits b t = .ok bits) :
    bits.length ≤ 8 * b.length := by
  rcases unpackBits_cases b t with ⟨-, h'⟩ | ⟨h0, hle, h'⟩ <;> rw [h'] at h <;> cases h
  simp only [List.length_map, List.length_range]
  omega

/-- A record that was read below LIM fits every slot of the block. -/
theorem State.Inv.commit {s : State} (h : s.Inv) {x : Slot} (hx : Slot.Inv s.params x) {buf : Memory 8} {a : Nat}
    {r : PointRecord} (hr : readPoint s.lim.toNat buf a = .ok r) : Slot.Inv s.params (x.commit r) := by
  obtain ⟨-, -, hb, hi, hv, ht, hn⟩ := readPoint_ok _ _ _ _ hr
  have hlim := h.lim_le
  exact hx.commit h.params_legal r hb hi hv (by simp only [maxBits]; omega) (by simp only [maxExt]; omega)

/-- Committing the records of a packet keeps the invariant. -/
theorem State.Inv.commitAll {s : State} (h : s.Inv) (v : Word) {buf : Memory 8} {n p o : Nat}
    {rs : Nat → Option PointRecord} {res : Result Report Nat} (hr : ReadsRecords s.lim.toNat buf n p o rs res) :
    ((s.withRole v).withSlots (s.slots.mapIdx (commitAt rs))).Inv := by
  refine (h.withRole v).withSlots (by simpa using h.slots_length) fun x hx => ?_
  obtain ⟨q, hq, rfl⟩ := List.mem_mapIdx.mp hx
  have hslot := h.slots_inv _ (List.getElem_mem hq)
  cases hc : rs q with
  | none => simpa [commitAt, hc] using hslot
  | some r =>
    obtain ⟨a, ha⟩ := hr.accepted q r hc
    simpa [commitAt, hc] using h.commit hslot ha

/-- Every command keeps the invariant. -/
theorem Runs.inv {s t : State} {i : Instr} (h : Runs s i t) (hs : s.Inv) : t.Inv := by
  cases h with
  | nop | ckrl => exact hs
  | clre => exact hs.clearFailure
  | rejected h =>
    obtain ⟨h1, h2, h3⟩ := h.record
    exact hs.raise _ _ _ (hs.eidx_lt h3) h1 h2
  | wrote h hw =>
    obtain ⟨hwf, hb, -⟩ := writeFields_buf hs.lim_le hs.buf_wf hw
    exact (hs.withBuf hwf (hb hs.buf_below)).withOfs _
  | stopped h hw =>
    obtain ⟨hf, -, hq⟩ := h.stopped_report hw
    obtain ⟨hwf, hb, -⟩ := writeFields_buf hs.lim_le hs.buf_wf hw
    exact (hs.withBuf hwf (hb hs.buf_below)).raiseReport (.inl hf) (hs.eidx_lt hq)
  | rint _ => exact (hs.withVal _).withOfs _
  | rblb h => exact (hs.withBlobSeq ((fieldReadBytes_ok h).1.trans hs.lim_le)).withOfs _
  | @pack a _ =>
    have hn := (hs.slot a.toNat).nbits_le
    refine hs.withBlobSeq ?_
    rw [packBits_length, Slot.bitSeq_length, ceilDiv8]
    unfold maxBits at hn
    omega
  | unpk ha h =>
    have hlen := unpackBits_ok h
    rw [State.blobSeq, Memory.readSeq_length] at hlen
    have hb := hs.blen_le
    exact hs.setSlot _ ((hs.slot _).withBitSeq hs.params_legal _ (by unfold maxBits; omega))
  | rpnt ha h => exact (hs.setSlot _ (hs.commit (hs.slot _) h)).withOfs _
  | rpkt _ hr _ => exact (hs.commitAll _ hr).withOfs _
  | rpktStopped _ hr hst =>
    obtain ⟨hf, hq⟩ := hr.stopped_report hst
    exact (hs.commitAll _ hr).raiseReport (.inr hf) (hs.eidx_lt (hq.imp_right .inr))
  | scal _ hr =>
    refine hs.withScout ?_
    rw [BitVec.toInt_ofInt, Int.bmod_eq_of_le (by omega) (by omega)]
    exact hr

theorem exec_inv {i : Instr} {s t : State} (hs : s.Inv) (h : exec i s = .next t) : t.Inv :=
  (exec_eq_next_iff.mp h).inv hs

theorem execute_inv {w : Word} {s t : State} (hs : s.Inv) (h : execute w s = .next t) : t.Inv := by
  unfold execute at h
  split at h
  · split at h
    · exact exec_inv hs h
    · cases h
      exact hs
  · split at h
    · cases h
      exact hs.raise _ _ _ hs.params_legal.2.2.1 (fun _ => rfl) (fun _ => rfl)
    · exact exec_inv hs h

/-! ### Host writes -/

/-- A register takes only values in its range (rule R27). -/
theorem State.Inv.writeReg {s : State} (hs : s.Inv) (r : Reg) (v : Word) : (s.writeReg r v).Inv := by
  cases r with
  | lim =>
    rw [State.writeReg]
    split
    · next h => exact { hs with lim_le := h }
    · exact hs
  | blen =>
    rw [State.writeReg]
    split
    · next h => exact { hs with blen_le := h }
    · exact hs
  | npt =>
    rw [State.writeReg]
    split
    · next h => exact { hs with npt_le := h }
    · exact hs
  | ctrl | ofs | val | role | scinLo | scinHi => exact { hs with }
  | _ => exact hs

/-- A count register takes only counts in its range (rules R23, R27). -/
theorem Slot.Inv.writeCount {c : Params} {x : Slot} (hx : Slot.Inv c x) (r : CountReg) (v : Word) :
    Slot.Inv c (x.writeCount c r v) := by
  cases r <;> rw [Slot.writeCount] <;> split
  · next h => exact { hx with nbits_le := h }
  · exact hx
  · next h => exact { hx with nxi_le := h }
  · exact hx
  · next h => exact { hx with nxv_le := h }
  · exact hx

/-- Storing to an element the space has keeps the invariant. -/
theorem State.Inv.store {s : State} (hs : s.Inv) {sp : Space} {p ix : Nat} (h : LegalAccess s.params sp p ix)
    (d : DWord) : (s.store sp p ix d).Inv := by
  obtain ⟨-, hix⟩ := h
  have hx := hs.slot p
  cases sp with
  | reg =>
    rw [State.store]
    split
    · exact hs.writeReg _ _
    · exact hs
  | buf => exact hs.withBuf (Memory.write_wf _ hs.buf_wf _ _) (Memory.write_below _ hs.buf_below hix _)
  | blob =>
    exact { hs with
      blob_wf := Memory.write_wf _ hs.blob_wf _ _
      blob_below := Memory.write_below _ hs.blob_below hix _ }
  | slotReg =>
    rw [State.store]
    split
    · exact hs.setSlot p (hx.writeCount _ _)
    · exact hs
  | bits =>
    exact hs.setSlot p { hx with
      bits_wf := Memory.write_wf _ hx.bits_wf _ _
      bits_below := Memory.write_below _ hx.bits_below hix _ }
  | xi =>
    exact hs.setSlot p { hx with
      xi_wf := Memory.write_wf _ hx.xi_wf _ _
      xi_below := Memory.write_below _ hx.xi_below hix _ }
  | xv =>
    exact hs.setSlot p { hx with
      xv_wf := Memory.write_wf _ hx.xv_wf _ _
      xv_below := Memory.write_below _ hx.xv_below hix _ }
  | reserved => exact hs

theorem hostWrite_inv {sp : BitVec 3} {p : BitVec 8} {ix : Word} {d : DWord} {s t : State} (hs : s.Inv)
    (h : hostWrite sp p ix d s = .next t) : t.Inv := by
  unfold hostWrite at h
  split at h
  · exact execute_inv hs h
  · split at h
    · next hl =>
      cases h
      exact hs.store hl d
    · cases h
      exact hs

/-! ### Events -/

theorem takeEvent_inv {e : HostEvent} {s t : State} (hs : s.Inv) (h : takeEvent e s = .next t) : t.Inv := by
  cases e with
  | hostWrite sp p ix d => exact hostWrite_inv hs h
  | hostRead sp p ix =>
    cases h
    exact { hs with }
  | reset =>
    cases h
    exact { State.resetOf_inv hs.params_legal with }

theorem step_inv {s t : State} (hs : s.Inv) (h : step s = .next t) : t.Inv := by
  cases hp : s.port with
  | nil =>
    rw [step_of_idle hp] at h
    cases h
    exact hs
  | cons e rest =>
    rw [step_of_event hp] at h
    exact takeEvent_inv (hs.withPort rest) h

end Sys2Proof.Machine
end

section
/-!
SUPPORT. What each command leaves as it was (rules R11 to R24, R133), read off the list of what commands can do.
-/

namespace Sys2Proof.Machine

open Sys2Proof.Stated

variable {s t : State} {i : Instr}

theorem Writes.writesBuf {o : Nat} {fs : List (Nat × WireField)} (h : Writes s i o fs) : writesBuf i = true := by
  cases h <;> rfl

/-- A single Int Field that does not fit leaves BUF as it was (rule R44). -/
theorem writeFields_int_fail {lim : Nat} {buf b : Memory 8} {o p : Nat} {v : Word} {r : Report}
    (h : writeFields lim buf o [(p, .int v)] = (b, .fail r)) : b = buf := by
  rw [writeFields_singleton, writeField] at h
  rcases fieldWriteInt_cases lim buf o v with ⟨-, h'⟩ | ⟨-, h'⟩ <;> rw [h'] at h <;> cases h
  rfl

/-! ### Registers and memories -/

/-- What no command writes. -/
theorem Runs.untouched (h : Runs s i t) :
    t.params = s.params ∧ t.lim = s.lim ∧ t.npt = s.npt ∧ t.strict = s.strict ∧ t.scinLo = s.scinLo ∧
    t.scinHi = s.scinHi ∧ t.port = s.port ∧ t.reply = s.reply := by
  cases h <;> exact ⟨rfl, rfl, rfl, rfl, rfl, rfl, rfl, rfl⟩

theorem Runs.buf_eq (h : Runs s i t) (hi : Stated.writesBuf i = false) : t.buf = s.buf := by
  cases h with
  | wrote h _ | stopped h _ => rw [h.writesBuf] at hi; cases hi
  | _ => rfl

theorem Runs.val_eq (h : Runs s i t) (hi : i ≠ .rint) : t.val = s.val := by
  cases h with
  | rint _ => exact absurd rfl hi
  | _ => rfl

theorem Runs.blob_eq (h : Runs s i t) (hi : i ≠ .rblb) (hp : ∀ p, i ≠ .pack p) : t.blob = s.blob ∧ t.blen = s.blen := by
  cases h with
  | rblb _ => exact absurd rfl hi
  | pack _ => exact absurd rfl (hp _)
  | _ => exact ⟨rfl, rfl⟩

theorem Runs.role_eq (h : Runs s i t) (hi : i ≠ .rpkt) : t.role = s.role := by
  cases h with
  | rpkt _ _ _ | rpktStopped _ _ _ => exact absurd rfl hi
  | _ => rfl

theorem Runs.scout_eq (h : Runs s i t) (hi : i ≠ .scal) : t.scout = s.scout := by
  cases h with
  | scal _ _ => exact absurd rfl hi
  | _ => rfl

theorem Runs.ofs_eq (h : Runs s i t)
    (hi : (∃ p, i = .pack p) ∨ (∃ p, i = .unpk p) ∨ i = .ckrl ∨ i = .scal ∨ i = .nop ∨ i = .clre) : t.ofs = s.ofs := by
  cases h with
  | wrote h _ => cases h <;> simp at hi
  | rint _ | rblb _ | rpnt _ _ | rpkt _ _ _ => simp at hi
  | _ => rfl

/-- Only CLRE changes the record without recording a failure, and a failure is one of the command's own (rule R132). -/
theorem Runs.record_cases (h : Runs s i t) (hi : i ≠ .clre) :
    (t.ecode = s.ecode ∧ t.eofs = s.eofs ∧ t.eidx = s.eidx) ∨ t.ecode ∈ failuresOf i := by
  cases h with
  | clre => exact absurd rfl hi
  | rejected h => exact .inr h.code_mem
  | stopped h hw => exact .inr (h.stopped_report hw).2.1
  | rpktStopped _ hr hs =>
    refine .inr ?_
    rw [State.raiseReport_ecode, (hr.stopped_report hs).1]
    simp [failuresOf, Failure.code]
  | _ => exact .inl ⟨rfl, rfl, rfl⟩

/-! ### Slots -/

/-- Replacing a slot leaves every other slot, and the replaced one too where it does not exist. -/
theorem slot_setSlot_cases (s : State) (p : Nat) (x : Slot) (q : Nat) :
    (s.setSlot p x).slot q = s.slot q ∨ (q = p ∧ (s.setSlot p x).slot q = x) := by
  by_cases h : p = q
  · subst h
    by_cases hp : p < s.slots.length
    · exact .inr ⟨rfl, slotAt_set_same hp x⟩
    · refine .inl ?_
      rw [State.slot, State.slot, State.setSlot_slots, List.set_eq_of_length_le (Nat.not_lt.mp hp)]
  · exact .inl (slotAt_set_other _ h _)

/-- A packet of `n` records is committed to no slot from `n` on. -/
theorem ReadsRecords.slotAt_of_le {lim n o : Nat} {buf : Memory 8} {rs : Nat → Option PointRecord}
    {res : Result Report Nat} (hr : ReadsRecords lim buf n 0 o rs res) (slots : List Slot) {q : Nat} (hq : n ≤ q) :
    slotAt (slots.mapIdx (commitAt rs)) q = slotAt slots q := by
  have hnone : rs q = none := by
    by_contra hne
    obtain ⟨r, h⟩ := Option.ne_none_iff_exists'.mp hne
    have := hr.in_range q r h
    omega
  rw [slotAt_mapIdx]
  split
  · rw [commitAt, hnone]; rfl
  · next h => simp [slotAt, h]

theorem Runs.slots_eq (h : Runs s i t) (hi : i ≠ .rpkt) (hu : ∀ p, i ≠ .unpk p) (hr : ∀ p, i ≠ .rpnt p) :
    t.slots = s.slots := by
  cases h with
  | unpk _ _ => exact absurd rfl (hu _)
  | rpnt _ _ => exact absurd rfl (hr _)
  | rpkt _ _ _ | rpktStopped _ _ _ => exact absurd rfl hi
  | _ => rfl

theorem Runs.slots_length (h : Runs s i t) : t.slots.length = s.slots.length := by
  cases h with
  | unpk _ _ | rpnt _ _ => exact List.length_set
  | rpkt _ _ _ | rpktStopped _ _ _ => exact List.length_mapIdx
  | _ => rfl

theorem Runs.slot_eq_of_ne {a : BitVec 8} (h : Runs s i t) (hi : i = .unpk a ∨ i = .rpnt a) {q : Nat}
    (hq : q ≠ a.toNat) : t.slot q = s.slot q := by
  cases h with
  | unpk _ _ | rpnt _ _ =>
    simp only [Instr.unpk.injEq, Instr.rpnt.injEq, reduceCtorEq, or_false, false_or] at hi
    subst hi
    exact slotAt_set_other _ (Ne.symm hq) _
  | rpkt _ _ _ | rpktStopped _ _ _ => simp at hi
  | _ => rfl

/-- UNPK writes no extremum part. -/
theorem Runs.unpk_slot {a : BitVec 8} (h : Runs s (.unpk a) t) (q : Nat) :
    t.slot q = { s.slot q with nbits := (t.slot q).nbits, bits := (t.slot q).bits } := by
  cases h with
  | rejected _ => rfl
  | wrote h _ | stopped h _ => cases h
  | unpk _ _ =>
    rcases slot_setSlot_cases s a.toNat _ q with h | ⟨rfl, h⟩ <;> rw [h]
    rfl

theorem Runs.rpkt_slot (h : Runs s .rpkt t) {q : Nat} (hq : s.npt.toNat ≤ q) : t.slot q = s.slot q := by
  cases h with
  | rejected _ => rfl
  | wrote h _ | stopped h _ => cases h
  | rpkt _ hr _ | rpktStopped _ hr _ => exact hr.slotAt_of_le _ hq

/-! ### Bounds, success and failure -/

/-- No byte of BUF at or above LIM is written (rule R11). -/
theorem Runs.read_buf_of_lim_le (h : Runs s i t) (hw : s.buf.wf) {a : Nat} (ha : s.lim.toNat ≤ a) :
    Memory.read t.buf a = Memory.read s.buf a := by
  cases h with
  | wrote _ he | stopped _ he =>
    exact (writeFields_buf (Nat.le_refl _) hw he).2.2 a ha
  | _ => rfl

theorem trunc32_toNat_le {o : Nat} {v : Word} (h : o ≤ v.toNat) : (trunc32 o).toNat ≤ v.toNat := by
  rw [trunc32, BitVec.toNat_ofNat]
  exact (Nat.mod_le _ _).trans h

/-- OFS stays or ends at or below LIM (rules R12, R48). -/
theorem Runs.ofs_le (h : Runs s i t) (hw : s.buf.wf) : t.ofs = s.ofs ∨ t.ofs.toNat ≤ s.lim.toNat := by
  cases h with
  | wrote h he => exact .inr (trunc32_toNat_le ((writeFields_ok _ _ hw _ _ _ _ he).2 h.ne_nil))
  | rint h => exact .inr (trunc32_toNat_le (fieldReadInt_ok h))
  | rblb h => exact .inr (trunc32_toNat_le (fieldReadBytes_ok h).2)
  | rpnt _ h => exact .inr (trunc32_toNat_le (readPoint_ok _ _ _ _ h).2.1)
  | rpkt hv hr hs => exact .inr (trunc32_toNat_le (hr.end_le hv hs))
  | _ => exact .inl rfl

theorem zero_notMem_failuresOf (i : Instr) : (0 : BitVec 4) ∉ failuresOf i := by cases i <;> simp [failuresOf]

/-- What a failing command may have changed (rules R12, R133, R137). -/
theorem Runs.failed (h : Runs s i t) (hs : s.ecode = 0) (ht : t.ecode ≠ 0) :
    t = { s with buf := t.buf, role := t.role, slots := t.slots, ecode := t.ecode, eofs := t.eofs, eidx := t.eidx } ∧
    (i ≠ .wblb → i ≠ .wpkt → (∀ p, i ≠ .wpnt p) → t.buf = s.buf) ∧ (t.ecode ≠ 1 → t.buf = s.buf) ∧
    (i ≠ .rpkt → t.role = s.role ∧ t.slots = s.slots) := by
  cases h with
  | clre => exact absurd rfl ht
  | rejected _ => exact ⟨rfl, fun _ _ _ => rfl, fun _ => rfl, fun _ => ⟨rfl, rfl⟩⟩
  | stopped h he =>
    refine ⟨rfl, fun h1 h2 h3 => ?_, fun h1 => absurd ?_ h1, fun _ => ⟨rfl, rfl⟩⟩
    · cases h with
      | wint => exact writeFields_int_fail he
      | wblb => exact absurd rfl h1
      | wpnt _ _ => exact absurd rfl (h3 _)
      | wpkt _ => exact absurd rfl h2
    · rw [State.raiseReport_ecode, (h.stopped_report he).1]
      rfl
  | rpktStopped _ _ _ => exact ⟨rfl, fun _ _ _ => rfl, fun _ => rfl, fun hi => absurd rfl hi⟩
  | _ => exact absurd hs ht

end Sys2Proof.Machine
end

section
/-!
SUPPORT. What a command's outcome does not depend on: the bytes of BUF at or above LIM (rules R11, R43), the elements of
BLOB and of the slots at or above their counts (rules R19, R24), and, for the packet commands, OFS (rules R12, R161).
-/

namespace Sys2Proof.Machine

open Sys2Proof.Stated

variable {s t : State} {i : Instr}

/-! ### The bytes of BUF at or above LIM -/

section BelowLim

variable {lim : Nat} {m buf : Memory 8} (hm : ∀ a < lim, Memory.read m a = Memory.read buf a)
include hm

theorem fieldReadInt_congr (o : Nat) : fieldReadInt lim m o = fieldReadInt lim buf o := by
  unfold fieldReadInt
  split
  · next h => rw [Memory.readSeq_congr fun k hk => hm (o + k) (by unfold InBounds at h; omega)]
  · rfl

theorem fieldReadBytes_congr (o : Nat) : fieldReadBytes lim m o = fieldReadBytes lim buf o := by
  unfold fieldReadBytes
  rw [fieldReadInt_congr hm o]
  split
  · rfl
  · next o1 v _ =>
    split
    · rfl
    · split
      · next h => rw [Memory.readSeq_congr fun k hk => hm (o1 + k) (by unfold InBounds at h; omega)]
      · rfl

theorem readPoint_congr (o : Nat) : readPoint lim m o = readPoint lim buf o := by
  simp only [readPoint, fieldReadBytes_congr hm, fieldReadInt_congr hm]

theorem decodePoints_congr (n p o : Nat) (slots : List Slot) :
    decodePoints lim m n p o slots = decodePoints lim buf n p o slots := by
  induction n generalizing p o slots with
  | zero => rfl
  | succ n ih => simp only [decodePoints, readPoint_congr hm, ih]

theorem ReadsRecords.congr {n p o : Nat} {rs : Nat → Option PointRecord} {res : Result Report Nat}
    (h : ReadsRecords lim buf n p o rs res) : ReadsRecords lim m n p o rs res :=
  { h with
    accepted := fun q r hr => by simpa only [readPoint_congr hm] using h.accepted q r hr
    decodes := fun slots => (decodePoints_congr hm n p o slots).trans (h.decodes slots) }

end BelowLim

/-- Two memories that read alike at an index still do after the same sequence has been written to both. -/
theorem Memory.read_writeSeq_congr {w : Nat} {m m' : Memory w} (hw : m.wf) (hw' : m'.wf) (i : Nat)
    (vs : List (BitVec w)) {a : Nat} (h : m.read a = m'.read a) :
    (m.writeSeq i vs).read a = (m'.writeSeq i vs).read a := by
  rw [Memory.read_writeSeq m hw, Memory.read_writeSeq m' hw', h]

/-- A field is written alike into two buffers: how it ends does not depend on the buffer, and neither does what it
writes. -/
theorem writeField_congr (lim : Nat) {m buf : Memory 8} (hm : m.wf) (hb : buf.wf) (o : Nat) (f : WireField) :
    (writeField lim m o f).2 = (writeField lim buf o f).2 ∧
    ∀ a, Memory.read m a = Memory.read buf a →
      Memory.read (writeField lim m o f).1 a = Memory.read (writeField lim buf o f).1 a := by
  cases f with
  | int v =>
    simp only [writeField, fieldWriteInt]
    split
    · exact ⟨rfl, fun a ha => Memory.read_writeSeq_congr hm hb _ _ ha⟩
    · exact ⟨rfl, fun a ha => ha⟩
  | blob b =>
    have hread := fun a ha => Memory.read_writeSeq_congr (a := a) hm hb o (le32 (trunc32 b.length)) ha
    simp only [writeField, fieldWriteBytes, fieldWriteInt]
    by_cases h4 : InBounds lim o 4
    · simp only [if_pos h4]
      split
      · exact ⟨rfl, fun a ha => Memory.read_writeSeq_congr (Memory.writeSeq_wf _ hm _ _)
          (Memory.writeSeq_wf _ hb _ _) _ _ (hread a ha)⟩
      · exact ⟨rfl, hread⟩
    · simp only [if_neg h4]
      exact ⟨trivial, fun a ha => ha⟩

/-- A field keeps the canonical form of the buffer. -/
theorem writeField_wf (lim : Nat) {buf : Memory 8} (hw : buf.wf) (o : Nat) (f : WireField) :
    (writeField lim buf o f).1.wf := by
  cases f with
  | int v => exact (fieldWriteInt_frame lim buf o v hw).1
  | blob b => exact (fieldWriteBytes_frame lim buf o b hw).1

/-- A sequence of fields is written alike into two buffers. -/
theorem writeFields_congr (lim : Nat) {m buf : Memory 8} (hm : m.wf) (hb : buf.wf) (o : Nat)
    (fs : List (Nat × WireField)) :
    (writeFields lim m o fs).2 = (writeFields lim buf o fs).2 ∧
    ∀ a, Memory.read m a = Memory.read buf a →
      Memory.read (writeFields lim m o fs).1 a = Memory.read (writeFields lim buf o fs).1 a := by
  induction fs generalizing m buf o with
  | nil => exact ⟨rfl, fun a ha => ha⟩
  | cons f fs ih =>
    obtain ⟨p, f⟩ := f
    obtain ⟨hres, hread⟩ := writeField_congr lim hm hb o f
    have hm' := writeField_wf lim hm o f
    have hb' := writeField_wf lim hb o f
    rw [writeFields, writeFields]
    generalize writeField lim buf o f = w at *
    generalize writeField lim m o f = w' at *
    obtain ⟨c, r⟩ := w
    obtain ⟨c', r'⟩ := w'
    obtain rfl : r' = r := hres
    cases r' with
    | ok o' =>
      obtain ⟨hres, hread'⟩ := ih hm' hb' o'
      exact ⟨hres, fun a ha => hread' a (hread a ha)⟩
    | fail e => exact ⟨rfl, hread⟩

/-- The fields a command writes are the same whatever BUF holds. -/
theorem Writes.withBuf {o : Nat} {fs : List (Nat × WireField)} (h : Writes s i o fs) (m : Memory 8) :
    Writes (s.withBuf m) i o fs := by
  cases h with
  | wint => exact .wint (s := s.withBuf m)
  | wblb => exact .wblb (s := s.withBuf m)
  | wpnt ha h => exact .wpnt (s := s.withBuf m) ha h
  | wpkt h => exact .wpkt (s := s.withBuf m) h

/-- A refusal does not depend on the bytes of BUF at or above LIM. -/
theorem Rejects.withBuf {f : Failure} {e q : Nat} (h : Rejects s i f e q) {m : Memory 8}
    (hm : ∀ a < s.lim.toNat, Memory.read m a = Memory.read s.buf a) : Rejects (s.withBuf m) i f e q := by
  cases h with
  | noSlot hi ha => exact .noSlot hi ha
  | rint h => exact .rint ((fieldReadInt_congr hm _).trans h)
  | rblb h => exact .rblb ((fieldReadBytes_congr hm _).trans h)
  | unpk ha h => exact .unpk ha h
  | wpnt ha h => exact .wpnt ha h
  | rpnt ha h => exact .rpnt ha ((readPoint_congr hm _).trans h)
  | wpkt h => exact .wpkt h
  | rpkt h => exact .rpkt ((fieldReadInt_congr hm _).trans h)
  | ckrl h => exact .ckrl h
  | scal h => exact .scal h

/-- The same fields written into a buffer that agrees below LIM: they end alike, the two buffers agree below LIM again,
and the bytes at and above LIM stay. -/
theorem writeFields_agree {lim o : Nat} {m buf b : Memory 8} {fs : List (Nat × WireField)} {res : Result Report Nat}
    (hm : m.wf) (hb : buf.wf) (hagree : ∀ a < lim, Memory.read m a = Memory.read buf a)
    (hw : writeFields lim buf o fs = (b, res)) :
    ∃ m', writeFields lim m o fs = (m', res) ∧ (∀ a < lim, Memory.read m' a = Memory.read b a) ∧ SameFrom m m' lim := by
  obtain ⟨hres, hread⟩ := writeFields_congr lim hm hb o fs
  rw [hw] at hres hread
  have he : writeFields lim m o fs = ((writeFields lim m o fs).1, res) := Prod.ext rfl hres
  exact ⟨_, he, fun a ha => hread a (hagree a ha), (writeFields_buf (Nat.le_refl _) hm he).2.2⟩

/-- A command comes out alike from two buffers that agree below LIM. -/
theorem Runs.withBuf (h : Runs s i t) {m : Memory 8} (hs : s.buf.wf) (hm : m.wf)
    (hagree : ∀ a < s.lim.toNat, Memory.read m a = Memory.read s.buf a) :
    ∃ m', Runs (s.withBuf m) i (t.withBuf m') ∧ (∀ a < s.lim.toNat, Memory.read m' a = Memory.read t.buf a) ∧
      SameFrom m m' s.lim.toNat := by
  have hsame : SameFrom m m s.lim.toNat := fun _ _ => rfl
  cases h with
  | nop => exact ⟨m, .nop, hagree, hsame⟩
  | clre => exact ⟨m, .clre (s := s.withBuf m), hagree, hsame⟩
  | rejected h => exact ⟨m, .rejected (h.withBuf hagree), hagree, hsame⟩
  | wrote h hw =>
    obtain ⟨m', hw', hbelow, habove⟩ := writeFields_agree hm hs hagree hw
    exact ⟨m', .wrote (h.withBuf m) hw', hbelow, habove⟩
  | stopped h hw =>
    obtain ⟨m', hw', hbelow, habove⟩ := writeFields_agree hm hs hagree hw
    exact ⟨m', .stopped (h.withBuf m) hw', hbelow, habove⟩
  | rint h => exact ⟨m, .rint (s := s.withBuf m) ((fieldReadInt_congr hagree _).trans h), hagree, hsame⟩
  | rblb h => exact ⟨m, .rblb (s := s.withBuf m) ((fieldReadBytes_congr hagree _).trans h), hagree, hsame⟩
  | pack ha => exact ⟨m, .pack (s := s.withBuf m) ha, hagree, hsame⟩
  | unpk ha h => exact ⟨m, .unpk (s := s.withBuf m) ha h, hagree, hsame⟩
  | rpnt ha h => exact ⟨m, .rpnt (s := s.withBuf m) ha ((readPoint_congr hagree _).trans h), hagree, hsame⟩
  | rpkt hv hr hst =>
    exact ⟨m, .rpkt (s := s.withBuf m) ((fieldReadInt_congr hagree _).trans hv) (hr.congr hagree) hst, hagree, hsame⟩
  | rpktStopped hv hr hst =>
    exact ⟨m, .rpktStopped (s := s.withBuf m) ((fieldReadInt_congr hagree _).trans hv) (hr.congr hagree) hst, hagree,
      hsame⟩
  | ckrl h => exact ⟨m, .ckrl (s := s.withBuf m) h, hagree, hsame⟩
  | scal h hr => exact ⟨m, .scal (s := s.withBuf m) h hr, hagree, hsame⟩

/-! ### OFS, for the packet commands -/

/-- WPKT and RPKT work from offset 0 on, whatever OFS holds, and a failing one leaves OFS as it was. -/
theorem Runs.atCursor (h : Runs s i t) (hi : i = .wpkt ∨ i = .rpkt) (hs : s.ecode = 0) (o : Word) :
    (t.ecode = 0 → Runs { s with ofs := o } i t) ∧ (t.ecode ≠ 0 → Runs { s with ofs := o } i { t with ofs := o }) := by
  cases h with
  | rejected h =>
    refine ⟨fun h0 => absurd h0 (Failure.code_ne_zero _), fun _ => .rejected (s := { s with ofs := o }) ?_⟩
    cases h with
    | wpkt h => exact .wpkt h
    | rpkt h => exact .rpkt h
    | noSlot hslot _ => rcases hi with rfl | rfl <;> cases hslot
    | _ => simp at hi
  | wrote h hw =>
    refine ⟨fun _ => ?_, fun h0 => absurd hs h0⟩
    cases h with
    | wpkt h => exact .wrote (s := { s with ofs := o }) (.wpkt h) hw
    | _ => simp at hi
  | stopped h hw =>
    refine ⟨fun h0 => absurd h0 (Failure.code_ne_zero _), fun _ => ?_⟩
    cases h with
    | wpkt h => exact .stopped (s := { s with ofs := o }) (.wpkt h) hw
    | _ => simp at hi
  | rpkt hv hr hst => exact ⟨fun _ => .rpkt (s := { s with ofs := o }) hv hr hst, fun h0 => absurd hs h0⟩
  | rpktStopped hv hr hst =>
    exact ⟨fun h0 => absurd h0 (Failure.code_ne_zero _), fun _ => .rpktStopped (s := { s with ofs := o }) hv hr hst⟩
  | _ => simp at hi

/-! ### Elements at or above a count -/

/-- The state with another BLOB and other slots. -/
def State.withStaging (s : State) (b : Memory 8) (l : List Slot) : State := { s with blob := b, slots := l }

/-- BLOB `b` and the slots `l` show the same bytes and the same touch points as those of the state. -/
structure ShowsSame (s : State) (b : Memory 8) (l : List Slot) : Prop where
  length : l.length = s.slots.length
  slots : ∀ p, SameTouchPoint (s.slot p) (slotAt l p)
  blob : ∀ a < s.blen.toNat, Memory.read b a = Memory.read s.blob a

theorem sameTouchPoint_refl (x : Slot) : SameTouchPoint x x :=
  ⟨rfl, fun _ _ => rfl, rfl, fun _ _ => rfl, rfl, fun _ _ => rfl⟩

theorem touchPoint_eq_of_sameTouchPoint {x y : Slot} (h : SameTouchPoint x y) : y.touchPoint = x.touchPoint := by
  obtain ⟨hn, hb, hni, hxi, hnv, hxv⟩ := h
  simp only [Slot.touchPoint, Slot.bitSeq, Slot.xiSeq, Slot.xvSeq, hn, hni, hnv]
  rw [Memory.readSeq_congr fun k hk => hb (0 + k) (by omega), Memory.readSeq_congr fun k hk => hxi (0 + k) (by omega),
    Memory.readSeq_congr fun k hk => hxv (0 + k) (by omega)]

section ShownAlike

variable {b : Memory 8} {l : List Slot} (h : ShowsSame s b l)
include h

theorem ShowsSame.blobSeq_eq : (s.withStaging b l).blobSeq = s.blobSeq :=
  Memory.readSeq_congr fun k hk => h.blob (0 + k) (by rw [Nat.zero_add]; exact hk)

theorem ShowsSame.touchPoint_eq (p : Nat) : (slotAt l p).touchPoint = (s.slot p).touchPoint :=
  touchPoint_eq_of_sameTouchPoint (h.slots p)

theorem ShowsSame.bitSeq_eq (p : Nat) : (slotAt l p).bitSeq = (s.slot p).bitSeq :=
  congrArg TouchPoint.bits (h.touchPoint_eq p)

theorem ShowsSame.counts_eq (p : Nat) : (slotAt l p).nxi = (s.slot p).nxi ∧ (slotAt l p).nxv = (s.slot p).nxv := by
  obtain ⟨-, -, hi, -, hv, -⟩ := h.slots p
  exact ⟨hi, hv⟩

theorem ShowsSame.recordFields_eq (n p : Nat) : recordFields l n p = recordFields s.slots n p := by
  induction n generalizing p with
  | zero => rfl
  | succ n ih => rw [recordFields, recordFields, ih, h.touchPoint_eq]; rfl

theorem ShowsSame.firstUnequal_eq (n p : Nat) : firstUnequal l n p = firstUnequal s.slots n p := by
  induction n generalizing p with
  | zero => rfl
  | succ n ih => rw [firstUnequal, firstUnequal, ih, (h.counts_eq p).1, (h.counts_eq p).2]; rfl

/-- The fields a command writes are those the staging memories show. -/
theorem Writes.withStaging {o : Nat} {fs : List (Nat × WireField)} (hw : Writes s i o fs) :
    Writes (s.withStaging b l) i o fs := by
  cases hw with
  | wint => exact .wint (s := s.withStaging b l)
  | wblb =>
    rw [← h.blobSeq_eq]
    exact .wblb (s := s.withStaging b l)
  | @wpnt a ha heq =>
    rw [← h.touchPoint_eq]
    refine .wpnt (s := s.withStaging b l) ha ?_
    obtain ⟨hi, hv⟩ := h.counts_eq a.toNat
    exact hi.trans (heq.trans hv.symm)
  | wpkt heq =>
    rw [← h.recordFields_eq]
    exact .wpkt (s := s.withStaging b l) ((h.firstUnequal_eq _ _).trans heq)

/-- A refusal depends only on what the staging memories show. -/
theorem Rejects.withStaging {f : Failure} {e q : Nat} (hr : Rejects s i f e q) :
    Rejects (s.withStaging b l) i f e q := by
  cases hr with
  | noSlot hi ha => exact .noSlot hi ha
  | rint hr => exact .rint hr
  | rblb hr => exact .rblb hr
  | unpk ha hr =>
    rw [← h.blobSeq_eq] at hr
    exact .unpk ha hr
  | @wpnt a ha hne =>
    refine .wpnt ha fun heq => hne ?_
    obtain ⟨hi, hv⟩ := h.counts_eq a.toNat
    exact hi.symm.trans (heq.trans hv)
  | rpnt ha hr => exact .rpnt ha hr
  | wpkt hr => exact .wpkt ((h.firstUnequal_eq _ _).trans hr)
  | rpkt hr => exact .rpkt hr
  | ckrl hr => exact .ckrl hr
  | scal hr => exact .scal hr

/-- The commands that write BUF do the same and leave both staging memories. -/
theorem Runs.withStaging_of_writesBuf (hr : Runs s i t) (hi : writesBuf i = true) :
    Runs (s.withStaging b l) i (t.withStaging b l) := by
  cases hr with
  | rejected hr => exact .rejected (hr.withStaging h)
  | wrote hw he => exact .wrote (hw.withStaging h) he
  | stopped hw he => exact .stopped (hw.withStaging h) he
  | _ => cases hi

end ShownAlike

theorem Runs.staging_eq_of_writesBuf (hr : Runs s i t) (hi : writesBuf i = true) :
    t.blob = s.blob ∧ t.slots = s.slots := by
  cases hr with
  | rblb _ | pack _ | unpk _ _ | rpnt _ _ | rpkt _ _ _ | rpktStopped _ _ _ => cases hi
  | _ => exact ⟨rfl, rfl⟩

/-- A slot that does not exist is empty in both lists, so the touch points are the same at every index. -/
theorem showsSame_of_lt {b : Memory 8} {l : List Slot} (hl : l.length = s.slots.length)
    (hp : ∀ p < l.length, SameTouchPoint (s.slot p) (slotAt l p))
    (hb : ∀ a < s.blen.toNat, Memory.read b a = Memory.read s.blob a) : ShowsSame s b l := by
  refine ⟨hl, fun p => ?_, hb⟩
  by_cases h : p < l.length
  · exact hp p h
  · have hs : s.slot p = slotAt l p := by simp [State.slot, slotAt, ← hl, h]
    rw [hs]
    exact sameTouchPoint_refl _

theorem ShowsSame.blob_only {b : Memory 8} (h : ∀ a < s.blen.toNat, Memory.read b a = Memory.read s.blob a) :
    ShowsSame s b s.slots := ⟨rfl, fun _ => sameTouchPoint_refl _, h⟩

/-- The commands that write BUF do the same whatever BLOB holds from BLEN on. -/
theorem Runs.withBlob_of_writesBuf (hr : Runs s i t) (hi : writesBuf i = true) {b : Memory 8}
    (h : ∀ a < s.blen.toNat, Memory.read b a = Memory.read s.blob a) :
    Runs { s with blob := b } i { t with blob := b } := by
  have ht : t.withStaging b s.slots = { t with blob := b } := by rw [← (hr.staging_eq_of_writesBuf hi).2]; rfl
  exact ht ▸ hr.withStaging_of_writesBuf (.blob_only h) hi

/-- The commands that write BUF do the same whatever the slots hold from their counts on. -/
theorem Runs.withSlots_of_writesBuf (hr : Runs s i t) (hi : writesBuf i = true) {l : List Slot}
    (h : ShowsSame s s.blob l) : Runs { s with slots := l } i { t with slots := l } := by
  have ht : t.withStaging s.blob l = { t with slots := l } := by rw [← (hr.staging_eq_of_writesBuf hi).1]; rfl
  exact ht ▸ hr.withStaging_of_writesBuf h hi

/-- UNPK does the same whatever BLOB holds from BLEN on. -/
theorem Runs.unpk_withBlob {a : BitVec 8} (hr : Runs s (.unpk a) t) {b : Memory 8}
    (h : ∀ a < s.blen.toNat, Memory.read b a = Memory.read s.blob a) :
    Runs { s with blob := b } (.unpk a) { t with blob := b } := by
  cases hr with
  | rejected hr => exact .rejected (hr.withStaging (.blob_only h))
  | wrote hw _ | stopped hw _ => cases hw
  | unpk ha hu =>
    rw [← (ShowsSame.blob_only h).blobSeq_eq] at hu
    exact .unpk (s := { s with blob := b }) ha hu

/-- PACK does the same whatever the slots hold from their counts on. -/
theorem Runs.pack_withSlots {a : BitVec 8} (hr : Runs s (.pack a) t) {l : List Slot} (h : ShowsSame s s.blob l) :
    Runs { s with slots := l } (.pack a) { t with slots := l } := by
  cases hr with
  | rejected hr => exact .rejected (hr.withStaging h)
  | wrote hw _ | stopped hw _ => cases hw
  | pack ha =>
    rw [← h.bitSeq_eq]
    exact .pack (s := { s with slots := l }) ha

/-- Memory `b'`, which was `b`, shows the same `n` elements as memory `m` and has its own elements from `n` on. -/
def ElementsRefreshed {w : Nat} (n : Word) (m b b' : Memory w) : Prop :=
  (∀ a < n.toNat, Memory.read b' a = Memory.read m a) ∧ SameFrom b b' n.toNat

/-- Slot `z`, which was `y`, shows the same touch point as slot `x` and has its own elements from the counts on. -/
def SlotRefreshed (x y z : Slot) : Prop := SameTouchPoint x z ∧ SameStaleElements x y z

theorem elementsRefreshed_self {w : Nat} {n : Word} {m b : Memory w}
    (h : ∀ a < n.toNat, Memory.read b a = Memory.read m a) : ElementsRefreshed n m b b := ⟨h, fun _ _ => rfl⟩

/-- Writing one sequence, and its length, over two memories. -/
theorem elementsRefreshed_writeSeq {w : Nat} {m b : Memory w} (hm : m.wf) (hb : b.wf) {vs : List (BitVec w)} {n : Nat}
    (hn : vs.length = n) (hlt : n < 4294967296) :
    ElementsRefreshed (trunc32 n) (m.writeSeq 0 vs) b (b.writeSeq 0 vs) := by
  unfold ElementsRefreshed
  rw [trunc32_toNat hlt]
  constructor
  · intro a ha
    rw [Memory.read_writeSeq b hb, Memory.read_writeSeq m hm, if_pos (by omega), if_pos (by omega)]
  · exact fun a ha => Memory.read_writeSeq_out b hb 0 vs (.inr (by omega))

theorem slotRefreshed_self {x y : Slot} (h : SameTouchPoint x y) : SlotRefreshed x y y :=
  ⟨h, fun _ _ => rfl, fun _ _ => rfl, fun _ _ => rfl⟩

/-- A slot is refreshed when its three memories are, under equal counts. -/
theorem slotRefreshed_of_elements {x y z : Slot} (hn : z.nbits = x.nbits) (hni : z.nxi = x.nxi) (hnv : z.nxv = x.nxv)
    (hb : ElementsRefreshed x.nbits x.bits y.bits z.bits) (hi : ElementsRefreshed x.nxi x.xi y.xi z.xi)
    (hv : ElementsRefreshed x.nxv x.xv y.xv z.xv) : SlotRefreshed x y z :=
  ⟨⟨hn, hb.1, hni, hi.1, hnv, hv.1⟩, hb.2, hi.2, hv.2⟩

theorem slotRefreshed_withBitSeq {c : Params} {x y : Slot} (h : SameTouchPoint x y) (hx : Slot.Inv c x)
    (hy : Slot.Inv c y) {bits : List Bit} (hlt : bits.length < 4294967296) :
    SlotRefreshed (x.withBitSeq bits) y (y.withBitSeq bits) := by
  obtain ⟨-, -, hni, hxi, hnv, hxv⟩ := h
  exact slotRefreshed_of_elements rfl hni hnv (elementsRefreshed_writeSeq hx.bits_wf hy.bits_wf rfl hlt)
    (elementsRefreshed_self hxi) (elementsRefreshed_self hxv)

theorem slotRefreshed_commit {c : Params} {x y : Slot} (hx : Slot.Inv c x) (hy : Slot.Inv c y) {lim a : Nat}
    (hlim : lim ≤ 16777216) {buf : Memory 8} {r : PointRecord} (hr : readPoint lim buf a = .ok r) :
    SlotRefreshed (x.commit r) y (y.commit r) := by
  obtain ⟨-, -, hb, hi, hv, ht, hn⟩ := readPoint_ok _ _ _ _ hr
  exact slotRefreshed_of_elements rfl rfl rfl (elementsRefreshed_writeSeq hx.bits_wf hy.bits_wf hb (by omega))
    (elementsRefreshed_writeSeq hx.xi_wf hy.xi_wf hi (by omega))
    (elementsRefreshed_writeSeq hx.xv_wf hy.xv_wf hv (by omega))

/-- The slots `l'`, which were `l`, are refreshed one by one from the slots `m`. -/
def SlotsRefreshed (m l l' : List Slot) : Prop :=
  l'.length = l.length ∧ ∀ p, SlotRefreshed (slotAt m p) (slotAt l p) (slotAt l' p)

theorem slotsRefreshed_self {b : Memory 8} {l : List Slot} (h : ShowsSame s b l) : SlotsRefreshed s.slots l l :=
  ⟨rfl, fun p => slotRefreshed_self (h.slots p)⟩

theorem slotsRefreshed_set {b : Memory 8} {l : List Slot} (h : ShowsSame s b l) {p : Nat} (hp : p < s.slots.length)
    {x y : Slot} (hxy : SlotRefreshed x (slotAt l p) y) : SlotsRefreshed (s.slots.set p x) l (l.set p y) := by
  refine ⟨List.length_set, fun q => ?_⟩
  by_cases hq : p = q
  · subst hq
    rw [slotAt_set_same hp, slotAt_set_same (h.length ▸ hp)]
    exact hxy
  · rw [slotAt_set_other _ hq, slotAt_set_other _ hq]
    exact slotRefreshed_self (h.slots q)

/-- Committing the records of one packet over two sets of slots. -/
theorem slotsRefreshed_commitAll {b : Memory 8} {l : List Slot} (h : ShowsSame s b l) (hs : s.Inv)
    (hs' : (s.withStaging b l).Inv) {buf : Memory 8} {n p o : Nat} {rs : Nat → Option PointRecord}
    {res : Result Report Nat} (hr : ReadsRecords s.lim.toNat buf n p o rs res) :
    SlotsRefreshed (s.slots.mapIdx (commitAt rs)) l (l.mapIdx (commitAt rs)) := by
  refine ⟨List.length_mapIdx, fun q => ?_⟩
  have hlim := hs.lim_le.trans hs.params_legal.2.1
  rw [slotAt_mapIdx, slotAt_mapIdx, h.length]
  split
  · unfold commitAt
    cases hc : rs q with
    | none => exact slotRefreshed_self (h.slots q)
    | some r =>
      obtain ⟨a, ha⟩ := hr.accepted q r hc
      exact slotRefreshed_commit (hs.slot q) (hs'.slot q) hlim ha
  · exact ⟨sameTouchPoint_refl _, by simp [slotAt, h.length, *, SameStaleElements, SameFrom]⟩

/-- A command comes out alike from staging memories that show the same, and they show the same again, each with its own
elements from the counts on. -/
theorem Runs.withStaging (hr : Runs s i t) {b : Memory 8} {l : List Slot} (h : ShowsSame s b l) (hs : s.Inv)
    (hs' : (s.withStaging b l).Inv) :
    ∃ b' l', Runs (s.withStaging b l) i (t.withStaging b' l') ∧ ElementsRefreshed t.blen t.blob b b' ∧
      SlotsRefreshed t.slots l l' := by
  have hb : ElementsRefreshed s.blen s.blob b b := elementsRefreshed_self h.blob
  have hl : SlotsRefreshed s.slots l l := slotsRefreshed_self h
  have hcap := hs.params_legal.2.1
  have hlim := hs.lim_le
  have hlen : ∀ a, a < s.params.maxPts → a < s.slots.length := fun a ha => hs.slots_length.symm ▸ ha
  cases hr with
  | nop => exact ⟨b, l, .nop, hb, hl⟩
  | clre => exact ⟨b, l, .clre (s := s.withStaging b l), hb, hl⟩
  | rejected hr => exact ⟨b, l, .rejected (hr.withStaging h), hb, hl⟩
  | wrote hw he => exact ⟨b, l, .wrote (hw.withStaging h) he, hb, hl⟩
  | stopped hw he => exact ⟨b, l, .stopped (hw.withStaging h) he, hb, hl⟩
  | rint hr => exact ⟨b, l, .rint (s := s.withStaging b l) hr, hb, hl⟩
  | rblb hr =>
    have hle := (fieldReadBytes_ok hr).1
    exact ⟨_, l, .rblb (s := s.withStaging b l) hr,
      elementsRefreshed_writeSeq hs.blob_wf hs'.blob_wf rfl (by omega), hl⟩
  | @pack a ha =>
    have hle := (hs.slot a.toNat).nbits_le
    have hlt := maxBits_lt hs.params_legal
    refine ⟨_, l, ?_, elementsRefreshed_writeSeq hs.blob_wf hs'.blob_wf rfl ?_, hl⟩
    · rw [← h.bitSeq_eq]
      exact .pack (s := s.withStaging b l) ha
    · rw [packBits_length, Slot.bitSeq_length, ceilDiv8]
      omega
  | unpk ha hu =>
    have hle := unpackBits_ok hu
    have hblen := hs.blen_le
    rw [State.blobSeq, Memory.readSeq_length] at hle
    rw [← h.blobSeq_eq] at hu
    exact ⟨b, _, .unpk (s := s.withStaging b l) ha hu, hb, slotsRefreshed_set h (hlen _ ha)
      (slotRefreshed_withBitSeq (h.slots _) (hs.slot _) (hs'.slot _) (by omega))⟩
  | rpnt ha hr =>
    exact ⟨b, _, .rpnt (s := s.withStaging b l) ha hr, hb, slotsRefreshed_set h (hlen _ ha)
      (slotRefreshed_commit (hs.slot _) (hs'.slot _) (hlim.trans hcap) hr)⟩
  | rpkt hv hr hst =>
    exact ⟨b, _, .rpkt (s := s.withStaging b l) hv hr hst, hb, slotsRefreshed_commitAll h hs hs' hr⟩
  | rpktStopped hv hr hst =>
    exact ⟨b, _, .rpktStopped (s := s.withStaging b l) hv hr hst, hb, slotsRefreshed_commitAll h hs hs' hr⟩
  | ckrl hr => exact ⟨b, l, .ckrl (s := s.withStaging b l) hr, hb, hl⟩
  | scal hr hrange => exact ⟨b, l, .scal (s := s.withStaging b l) hr hrange, hb, hl⟩

end Sys2Proof.Machine
end

section
/-!
SUPPORT. The host port: which register a transaction reaches (rules R26, R71), and which word starts a command (rule
R66).
-/

namespace Sys2Proof.Machine

/-! ### Registers -/

/-- A host read of a register of the map. -/
theorem hostRead_reg (s : State) (r : Reg) : hostRead 0 0 (trunc32 r.index) s = (s.readReg r).setWidth 64 := by
  cases r <;> rfl

/-- A host write to a register other than CMD. -/
theorem hostWrite_reg (s : State) {r : Reg} (hr : r ≠ .cmd) (d : DWord) :
    hostWrite 0 0 (trunc32 r.index) d s = .next (s.writeReg r (d.setWidth 32)) := by
  cases r with
  | cmd => exact absurd rfl hr
  | _ => rfl

/-- A host write to CMD executes bits 31:0 of the data. -/
theorem hostWrite_cmd (s : State) (d : DWord) :
    hostWrite 0 0 (trunc32 Reg.cmd.index) d s = execute (d.setWidth 32) s := rfl

theorem countReg_legal {s : State} {p : BitVec 8} (hp : p.toNat < s.params.maxPts) (r : CountReg) :
    LegalAccess s.params (Space.ofBits 3) p.toNat (trunc32 r.index).toNat := by
  refine ⟨hp, ?_⟩
  show (trunc32 r.index).toNat < 3
  cases r <;> decide

/-- A host read of a count register of a slot. -/
theorem hostRead_count (s : State) {p : BitVec 8} (hp : p.toNat < s.params.maxPts) (r : CountReg) :
    hostRead 3 p (trunc32 r.index) s = ((s.slot p.toNat).readCount r).setWidth 64 := by
  rw [hostRead, if_pos (countReg_legal hp r)]
  cases r <;> rfl

/-- A host write to a count register of a slot. -/
theorem hostWrite_count (s : State) {p : BitVec 8} (hp : p.toNat < s.params.maxPts) (r : CountReg) (d : DWord) :
    hostWrite 3 p (trunc32 r.index) d s =
      .next (s.setSlot p.toNat ((s.slot p.toNat).writeCount s.params r (d.setWidth 32))) := by
  have hcmd : ¬ ReachesCmd 3 p (trunc32 r.index) := fun h => absurd h.1 (by decide)
  rw [hostWrite, if_neg hcmd, if_pos (countReg_legal hp r)]
  cases r <;> rfl

/-- Replacing a slot by itself changes nothing, whether it exists or not. -/
theorem setSlot_slot (s : State) (p : Nat) : s.setSlot p (s.slot p) = s := by
  have h : s.slots.set p (slotAt s.slots p) = s.slots := by
    by_cases hp : p < s.slots.length
    · simp [slotAt, hp]
    · exact List.set_eq_of_length_le (Nat.not_lt.mp hp)
  exact congrArg s.withSlots h

/-- A slot kept under a condition is a state kept under it. -/
theorem setSlot_ite (s : State) (p : Nat) (c : Prop) [Decidable c] (x : Slot) :
    s.setSlot p (if c then x else s.slot p) = if c then s.setSlot p x else s := by
  split
  · rfl
  · exact setSlot_slot s p

/-- A constant read through its register. -/
theorem setWidth_trunc32 (n : Nat) : (trunc32 n).setWidth 64 = BitVec.ofNat 64 (n % 2 ^ 32) := by
  apply BitVec.eq_of_toNat_eq
  simp [trunc32]

/-! ### Command words -/

/-- The opcode and the operand a command was decoded from are its own (rule R65). -/
theorem decodeOp_ok {op a : BitVec 8} {i : Instr} (h : decodeOp op a = .ok i) :
    op = opcode i ∧ a = i.slot?.getD 0 := by
  have hop : ∀ n, op.toNat = n → op = BitVec.ofNat 8 n := fun n hn => by
    rw [← hn, BitVec.ofNat_toNat, BitVec.setWidth_eq]
  have hplain : ∀ j, noOperand a j = .ok i → a = 0 ∧ i = j := fun j hj => by
    unfold noOperand at hj
    split at hj
    · cases hj
      exact ⟨‹_›, rfl⟩
    · cases hj
  -- the rows of rule R65 in their order: the sixth to the ninth take any operand, the last is every reserved opcode
  unfold decodeOp at h
  split at h
  case h_6 hn | h_7 hn | h_8 hn | h_9 hn =>
    cases h
    exact ⟨hop _ hn, rfl⟩
  case h_15 => cases h
  all_goals
    obtain ⟨rfl, rfl⟩ := hplain _ h
    exact ⟨hop _ ‹_›, rfl⟩

/-- A command word is its three fields (rule R64). -/
theorem fields_append (w : Word) : zeroField w ++ operandField w ++ opField w = w := by
  unfold zeroField operandField opField
  rw [BitVec.extractLsb'_append_extractLsb'_eq_extractLsb' (show 16 = 8 + 8 from rfl),
    BitVec.extractLsb'_append_extractLsb'_eq_extractLsb' (show 8 = 0 + 8 from rfl)]
  simp

/-- A word that decodes to a command is the word of that command (rules R64 to R66). -/
theorem eq_encode_of_decode {w : Word} {i : Instr} (h : decode w = .ok i) : w = encode i := by
  unfold decode at h
  split at h
  · cases h
  · next hz =>
    obtain ⟨hop, ha⟩ := decodeOp_ok h
    rw [encode, ← hop, ← ha, ← show zeroField w = 0#16 from not_not.mp hz, fields_append]

/-- A step on a host write at the port carries the write out. -/
theorem step_of_hostWrite {s : State} {sp : BitVec 3} {p : BitVec 8} {ix : Word} {d : DWord} {rest : List HostEvent}
    (h : s.port = .hostWrite sp p ix d :: rest) :
    step s = hostWrite sp p ix d { s with port := rest, reply := none } := step_of_event h

/-- A step on a command word at the port executes the word. -/
theorem step_of_command {s : State} {w : Word} {rest : List HostEvent} (h : s.port = commandEvent w :: rest) :
    step s = execute w { s with port := rest, reply := none } := by
  have hw : (w.setWidth 64).setWidth 32 = w := by simp
  rw [step_of_hostWrite h]
  exact (hostWrite_cmd _ _).trans (by rw [hw])

/-- A word that passes the gate and the decoder runs its command (rules R66, R135). -/
theorem execute_of_decode {s : State} {w : Word} {i : Instr} (hd : decode w = .ok i) (hg : s.ecode = 0 ∨ i = .clre) :
    execute w s = exec i s := by
  unfold execute
  split
  · next hgated =>
    rcases hg with h0 | rfl
    · simp [State.gated, h0] at hgated
    · exact if_pos (eq_encode_of_decode hd)
  · rw [hd]

end Sys2Proof.Machine
end

section
/-!
PROOFS. The obligations of `10_state.md`.
-/

namespace Sys2Proof.Proofs

open Sys2Proof Sys2Proof.Machine Sys2Proof.Stated

/-- Settles O4: commands by the list of what they can do, host writes by their spaces, a reset by the reset state. -/
theorem everyStepKeepsTheInvariant : Obligations.EveryStepKeepsTheInvariant := fun _ _ => step_inv

/-- Settles O14: each restricted register under its range, through the register its index names. -/
theorem restrictedRegistersIgnoreIllegalValues : Obligations.RestrictedRegistersIgnoreIllegalValues := by
  intro s d _ v
  have hreg : ∀ {r c} {t : State} [Decidable c], r ≠ .cmd → s.writeReg r v = (if c then t else s) →
      hostWrite 0 0 (trunc32 r.index) d s = .next (if c then t else s) :=
    fun hr h => (hostWrite_reg s hr d).trans (congrArg _ h)
  refine ⟨hreg (r := .lim) nofun rfl, hreg (r := .blen) nofun rfl, hreg (r := .npt) nofun rfl, fun p hp => ?_⟩
  have hcount : ∀ r {c} {x : Slot} [Decidable c], (s.slot p.toNat).writeCount s.params r v =
      (if c then x else s.slot p.toNat) →
      hostWrite 3 p (trunc32 r.index) d s = .next (if c then s.setSlot p.toNat x else s) := fun r c x _ h => by
    rw [hostWrite_count s hp, ← setSlot_ite, ← h]
  exact ⟨hcount .nbits rfl, hcount .nxi rfl, hcount .nxv rfl⟩

/-- Settles O40: the packet commands start at offset 0. -/
theorem packetCommandsDoNotReadTheCursor : Obligations.PacketCommandsDoNotReadTheCursor := by
  intro s t o i hi hs he
  obtain ⟨hok, hfail⟩ := (exec_eq_next_iff.mp he).atCursor hi hs o
  split
  · next h => exact (hok h).exec_eq
  · next h => exact (hfail h).exec_eq

/-- Settles O42: only the writing of fields writes BUF, and it stays below LIM. -/
theorem noCommandWritesAtOrAboveLim : Obligations.NoCommandWritesAtOrAboveLim := by
  intro s t i hs he
  have h := exec_eq_next_iff.mp he
  exact ⟨fun a => h.read_buf_of_lim_le hs.buf_wf, h.buf_eq⟩

/-- Settles O43: every read and every write of BUF passes the bounds check of rule R43. -/
theorem noCommandReadsAtOrAboveLim : Obligations.NoCommandReadsAtOrAboveLim := by
  intro s t i m hs hm hagree he
  obtain ⟨m', hr, h⟩ := (exec_eq_next_iff.mp he).withBuf hs.buf_wf hm hagree
  exact ⟨m', hr.exec_eq, h⟩

/-- Settles O44: a command reads of BLOB and of the slots only what they show, and overwrites them up to the new
counts. -/
theorem staleElementsAreNeverRead : Obligations.StaleElementsAreNeverRead := by
  intro s t i l b hl hp hb
  refine ⟨?_, ?_, ?_⟩
  · rintro (rfl | ⟨p, rfl⟩) he
    · exact ((exec_eq_next_iff.mp he).withBlob_of_writesBuf rfl hb).exec_eq
    · exact ((exec_eq_next_iff.mp he).unpk_withBlob hb).exec_eq
  · have h : ShowsSame s s.blob l := showsSame_of_lt hl hp fun _ _ => rfl
    rintro (rfl | ⟨p, rfl⟩ | ⟨p, rfl⟩) he
    · exact ((exec_eq_next_iff.mp he).withSlots_of_writesBuf rfl h).exec_eq
    · exact ((exec_eq_next_iff.mp he).withSlots_of_writesBuf rfl h).exec_eq
    · exact ((exec_eq_next_iff.mp he).pack_withSlots h).exec_eq
  · intro hs hs' he
    obtain ⟨b', l', hr, ⟨hb1, hb2⟩, hl1, hl2⟩ := (exec_eq_next_iff.mp he).withStaging (showsSame_of_lt hl hp hb) hs hs'
    exact ⟨b', l', hr.exec_eq, hb1, hb2, hl1, hl2⟩

/-- Settles O45: a command that fails was refused, or was stopped while it wrote fields or read records. -/
theorem failingCommandKeepsCursorAndOperands : Obligations.FailingCommandKeepsCursorAndOperands :=
  fun _ _ _ hs he ht => (exec_eq_next_iff.mp he).failed hs ht

/-- Settles O46: every command that moves OFS ends at an offset it has checked against LIM. -/
theorem successKeepsOfsWithinLimAndTheRecord : Obligations.SuccessKeepsOfsWithinLimAndTheRecord := by
  intro s t i hs _ he ht
  have h := exec_eq_next_iff.mp he
  refine ⟨h.ofs_le hs.buf_wf, fun hi => ?_⟩
  rcases h.record_cases hi with ⟨-, hrec⟩ | hmem
  · exact hrec
  · rw [ht] at hmem
    exact absurd hmem (zero_notMem_failuresOf i)

/-- Settles O48: piece by piece of the state, over the list of what commands can do. -/
theorem eachCommandWritesOnlyItsOwnState : Obligations.EachCommandWritesOnlyItsOwnState := by
  intro s t i he
  have h := exec_eq_next_iff.mp he
  obtain ⟨h1, h2, h3, h4, h5, h6, h7, h8⟩ := h.untouched
  refine ⟨h1, h2, h3, h4, h5, h6, h7, h8, h.buf_eq, h.val_eq, h.blob_eq, h.role_eq, h.scout_eq, h.slots_eq,
    h.slots_length, fun a q hi hq => h.slot_eq_of_ne hi hq, fun a q hi => ?_, fun hi q hq => ?_, h.ofs_eq, fun hi => ?_,
    h.record_cases⟩
  · subst hi
    exact h.unpk_slot q
  · subst hi
    exact h.rpkt_slot hq
  · subst hi
    cases he
    exact ⟨rfl, rfl, rfl⟩

/-- Settles O1: the reset state holds the table's values by definition; LIM and the constants fit 32 bits because the
parameters are legal. -/
theorem resetLeavesTheValuesOfTheTable : Obligations.ResetLeavesTheValuesOfTheTable := by
  rintro c ⟨-, hcap, -, hpts⟩ s
  have hslot : ∀ p < c.maxPts, s.slot p = Slot.empty := fun p hp => by
    simp [s, State.slot, slotAt, State.resetOf, hp]
  refine ⟨fun _ => rfl, rfl, trunc32_toNat (by omega), rfl, rfl, rfl, rfl, rfl, rfl, rfl, rfl, rfl, rfl, rfl,
    fun _ => rfl, List.length_replicate, fun p hp => ?_, rfl, trunc32_toNat ?_, trunc32_toNat ?_⟩
  · rw [hslot p hp]
    exact ⟨rfl, rfl, rfl, fun _ => ⟨rfl, rfl, rfl⟩⟩
  · show c.cap < 4294967296
    omega
  · show c.maxPts < 4294967296
    omega

/-- Settles O9: a write to CMD reaches `execute`, and only the word of CLRE decodes to CLRE. -/
theorem stepRunsTheDecodedCommand : Obligations.StepRunsTheDecodedCommand := by
  refine ⟨fun s sp p ix d rest => step_of_hostWrite, fun s w rest => step_of_command, ?_⟩
  intro s w i rest hp hd _ hg
  exact (step_of_command hp).trans (execute_of_decode hd hg)

/-- Settles O15: register by register, through the register each index names. -/
theorem registerMapReadsAndWrites : Obligations.RegisterMapReadsAndWrites := by
  intro s d
  have hctrl : s.ctrlWord.setWidth 64 = if s.strict then (1 : DWord) else 0 := by
    cases h : s.strict <;> simp [State.ctrlWord, h]
  have hstatus : s.statusWord.setWidth 64 = s.ecode.setWidth 64 := by
    apply BitVec.eq_of_toNat_eq
    simp [State.statusWord]
  have hbit : (d.setWidth 32).getLsbD 0 = d.getLsbD 0 := by simp
  have hw : ∀ {r}, r ≠ .cmd → hostWrite 0 0 (trunc32 r.index) d s = .next (s.writeReg r (d.setWidth 32)) :=
    fun hr => hostWrite_reg s hr d
  have hrestrict : ∀ {r n} {t : State}, r ≠ .cmd →
      s.writeReg r (d.setWidth 32) = (if (d.setWidth 32).toNat ≤ n then t else s) →
      hostWrite 0 0 (trunc32 r.index) d s = .next (if d.toNat % 2 ^ 32 ≤ n then t else s) := fun hr h => by
    rw [hw hr, h, BitVec.toNat_setWidth]
  refine ⟨hostRead_reg s .id, (hostRead_reg s .paramCap).trans (setWidth_trunc32 _),
    (hostRead_reg s .paramMaxPts).trans (setWidth_trunc32 _), (hostRead_reg s .ctrl).trans hctrl,
    (hostRead_reg s .status).trans hstatus, hostRead_reg s .eofs, hostRead_reg s .eidx, hostRead_reg s .cmd,
    hostRead_reg s .ofs, hostRead_reg s .lim, hostRead_reg s .val, hostRead_reg s .blen, hostRead_reg s .role,
    hostRead_reg s .npt, hostRead_reg s .scinLo, hostRead_reg s .scinHi, hostRead_reg s .scout, ?_⟩
  refine ⟨hw (r := .id) nofun, hw (r := .paramCap) nofun, hw (r := .paramMaxPts) nofun,
    hbit ▸ hw (r := .ctrl) nofun, hw (r := .status) nofun, hw (r := .eofs) nofun, hw (r := .eidx) nofun,
    hostWrite_cmd s d, hw (r := .ofs) nofun, hrestrict (r := .lim) nofun rfl, hw (r := .val) nofun,
    hrestrict (r := .blen) nofun rfl, hw (r := .role) nofun, hrestrict (r := .npt) nofun rfl,
    hw (r := .scinLo) nofun, hw (r := .scinHi) nofun, hw (r := .scout) nofun, fun p hp => ?_⟩
  exact ⟨hostRead_count s hp .nbits, hostRead_count s hp .nxi, hostRead_count s hp .nxv⟩

/-- Settles O17: no event touches the parameters, a reset keeps them (rule R28). -/
theorem parametersNeverChange : Obligations.ParametersNeverChange := by
  intro s t h
  obtain ⟨u, hu, hparams, -⟩ := step_completes s
  have he : Host.Outcome.next t = .next u := h.symm.trans hu
  cases he
  exact hparams

end Sys2Proof.Proofs
end

section
/-!
SUPPORT. Memories and fields as data: the canonical form is determined by what it reads (rule R40 of `20_memory.md`),
and a field function that succeeded left what the read function gives back (rules R44 to R47).
-/

namespace Sys2Proof.Machine

/-! ### The canonical form (log entry 4) -/

/-- The listed entries of a memory in canonical form are the elements that read as something other than 0. -/
theorem Memory.mem_iff_read {w : Nat} {m : Memory w} (hm : m.wf) (c : Nat × BitVec w) :
    c ∈ m ↔ c.2 ≠ 0#w ∧ m.read c.1 = c.2 := by
  induction m with
  | nil => exact iff_of_false List.not_mem_nil fun h => h.1 h.2.symm
  | cons d m ih =>
    obtain ⟨hp, hz⟩ := hm
    obtain ⟨hd, hp⟩ := List.pairwise_cons.mp hp
    obtain ⟨hdz, hz⟩ := List.forall_mem_cons.mp hz
    rw [List.mem_cons, Memory.read]
    split
    · next heq =>
      have hnot : c ∉ m := fun hc => (hd c hc).ne heq
      constructor
      · rintro (rfl | hc)
        · exact ⟨hdz, rfl⟩
        · exact absurd hc hnot
      · rintro ⟨-, hv⟩
        exact .inl (Prod.ext heq hv).symm
    · next hne =>
      have hcd : c ≠ d := fun h => hne (h ▸ rfl)
      rw [or_iff_right hcd, ih ⟨hp, hz⟩]

/-- Rising indices leave one order for the entries, so memories in canonical form with the same reads are one list. -/
theorem Memory.ext_read {w : Nat} {m m' : Memory w} (hm : m.wf) (hm' : m'.wf) (h : ∀ i, m.read i = m'.read i) :
    m = m' := by
  refine List.Pairwise.eq_of_mem_iff (r := Prod.fst ⁻¹'o (· < ·)) hm.1 hm'.1 fun c => ?_
  rw [Memory.mem_iff_read hm, Memory.mem_iff_read hm', h]

/-! ### Reading back a field (the round trips after rule R47) -/

/-- A sequence written further up does not show in a sequence read below it. -/
theorem Memory.readSeq_writeSeq_above {w : Nat} {m : Memory w} (hm : m.wf) {i n j : Nat} (h : i + n ≤ j)
    (vs : List (BitVec w)) : (m.writeSeq j vs).readSeq i n = m.readSeq i n :=
  Memory.readSeq_congr fun _ hk => Memory.read_writeSeq_out m hm j vs (.inl (by omega))

/-- The four bytes of an Int Field just written stand for the pattern written (rule R42). -/
theorem unle32_readSeq_le32 {m : Memory 8} (hm : m.wf) (o : Nat) (v : Word) :
    unle32 ((m.writeSeq o (le32 v)).readSeq o 4) = v :=
  (congrArg unle32 (Memory.readSeq_writeSeq m hm o (le32 v))).trans (unle32_le32 v)

/-- An Int Field just written is read back. -/
theorem fieldReadInt_fieldWriteInt {lim : Nat} {m m' : Memory 8} {o o' : Nat} {v : Word} (hm : m.wf)
    (h : fieldWriteInt lim m o v = (m', .ok o')) : fieldReadInt lim m' o = .ok (o', v) := by
  rcases fieldWriteInt_cases lim m o v with ⟨hle, e⟩ | ⟨-, e⟩ <;> rw [e] at h <;> cases h
  rw [fieldReadInt, if_pos hle, unle32_readSeq_le32 hm]

/-- A field whose length bytes stand for `n`, and which ends at or below LIM, is read as its `n` payload bytes: the
three failures of rule R47 are excluded. -/
theorem fieldReadBytes_of_length {lim : Nat} {buf : Memory 8} {o n : Nat}
    (hlen : unle32 (buf.readSeq o 4) = trunc32 n) (hn : n < 2147483648) (hle : o + 4 + n ≤ lim) :
    fieldReadBytes lim buf o = .ok (o + 4 + n, buf.readSeq (o + 4) n) := by
  have h := fieldReadBytes_cases lim buf o
  simp only [hlen, sext32_ofNat hn, Int.toNat_natCast] at h
  rcases h with ⟨hlim, -⟩ | ⟨-, hneg, -⟩ | ⟨-, -, hlim, -⟩ | ⟨-, -, -, h⟩
  · omega
  · omega
  · omega
  · exact h

/-- A Byte Blob Field just written is read back, as long as its length is not negative as a signed number. -/
theorem fieldReadBytes_fieldWriteBytes {lim : Nat} {m m' : Memory 8} {o o' : Nat} {b : List Byte} (hm : m.wf)
    (hb : b.length < 2147483648) (h : fieldWriteBytes lim m o b = (m', .ok o')) :
    fieldReadBytes lim m' o = .ok (o', b) := by
  rcases fieldWriteBytes_cases lim m o b with ⟨hle, e⟩ | ⟨-, -, e⟩ | ⟨-, e⟩ <;> rw [e] at h <;> cases h
  have hw := Memory.writeSeq_wf m hm o (le32 (trunc32 b.length))
  rw [fieldReadBytes_of_length ?_ hb hle, Memory.readSeq_writeSeq _ hw]
  rw [Memory.readSeq_writeSeq_above hw le_rfl, unle32_readSeq_le32 hm]

/-! ### A host read (rule R70) -/

/-- What a host read returns does not depend on what else waits at the port, nor on the last reply. -/
theorem hostRead_withPort (sp : BitVec 3) (p : BitVec 8) (ix : Word) (s : State) (rest : List HostEvent) :
    hostRead sp p ix (s.withPort rest) = hostRead sp p ix s := rfl

end Sys2Proof.Machine
end

section
/-!
PROOFS. The obligations of `20_memory.md`.
-/

namespace Sys2Proof.Proofs

open Sys2Proof Sys2Proof.Machine

/-- Settles O5: the entries are the elements that do not read as 0, in the order of their indices. -/
theorem canonicalMemoriesThatReadAlikeAreEqual : Obligations.CanonicalMemoriesThatReadAlikeAreEqual :=
  fun _ _ _ => Memory.ext_read

/-- Settles O25: a length of at most 2^24 is not negative as a signed number, so the blob's length field reads back. -/
theorem fieldsJustWrittenAreReadBack : Obligations.FieldsJustWrittenAreReadBack :=
  ⟨fun _ _ _ _ _ _ => fieldReadInt_fieldWriteInt, fun _ _ _ _ _ _ hm hb =>
    fieldReadBytes_fieldWriteBytes hm (lt_of_le_of_lt hb (by decide))⟩

/-- Settles O16: the step takes the read off the port, and the data is that of the state before it (rule R52). -/
theorem hostReadChangesNothing : Obligations.HostReadChangesNothing := by
  intro s sp p ix rest hp
  rw [step_of_event hp, takeEvent, hostRead_withPort]
  rfl

end Sys2Proof.Proofs
end

section
/-!
SUPPORT. Command words (rules R64 to R67 of `30_encoding.md`): the fields of a command's word, and which words are
illegal.
-/

namespace Sys2Proof.Machine

open Sys2Proof.Stated

/-! ### The word of a command -/

theorem opField_encode (i : Instr) : opField (encode i) = opcode i := BitVec.extractLsb'_append_eq_right

theorem operandField_encode (i : Instr) : operandField (encode i) = i.slot?.getD 0 :=
  (BitVec.extractLsb'_append_eq_of_le le_rfl).trans BitVec.extractLsb'_append_eq_right

theorem zeroField_encode (i : Instr) : zeroField (encode i) = 0 :=
  (BitVec.extractLsb'_append_eq_of_le (show 8 ≤ 16 by decide)).trans BitVec.extractLsb'_append_eq_left

/-- The opcode map of rule R65, read from the command to its opcode and back. -/
theorem decodeOp_opcode (i : Instr) : decodeOp (opcode i) (i.slot?.getD 0) = .ok i := by
  cases i <;> rfl

theorem decode_encode (i : Instr) : decode (encode i) = .ok i := by
  rw [decode, zeroField_encode, if_neg (not_not.mpr rfl), opField_encode, operandField_encode, decodeOp_opcode]

theorem decode_eq_ok_iff {w : Word} {i : Instr} : decode w = .ok i ↔ w = encode i :=
  ⟨eq_encode_of_decode, fun h => h ▸ decode_encode i⟩

theorem encode_toNat (i : Instr) : (encode i).toNat = 256 * (i.slot?.getD 0).toNat + (opcode i).toNat := by
  rw [encode, BitVec.toNat_append, BitVec.toNat_append, ← Nat.shiftLeft_add_eq_or_of_lt (opcode i).isLt,
    Nat.shiftLeft_eq]
  simp only [BitVec.toNat_ofNat, Nat.zero_mod, Nat.zero_shiftLeft, Nat.zero_or]
  omega

/-! ### Legal and illegal words -/

/-- A command has an opcode of rule R66's two lists: a slot opcode when it has a slot operand, one of the others when it
has none. -/
theorem opcode_mem (i : Instr) :
    (i.slot? = none ∧ (opcode i).toNat ∈ plainOps) ∨ ∃ a, i.slot? = some a ∧ (opcode i).toNat ∈ slotOps := by
  cases i with
  | pack a | unpk a | wpnt a | rpnt a => exact .inr ⟨a, rfl, by simp [opcode, slotOps]⟩
  | _ => exact .inl ⟨rfl, by decide⟩

/-- Every opcode of the two lists is a command's, a slot opcode one's with any operand. -/
theorem exists_plain_instr : ∀ op ∈ plainOps, ∃ i : Instr, i.slot? = none ∧ (opcode i).toNat = op := by
  simp only [plainOps, List.forall_mem_cons]
  exact ⟨⟨.nop, rfl, rfl⟩, ⟨.wint, rfl, rfl⟩, ⟨.rint, rfl, rfl⟩, ⟨.wblb, rfl, rfl⟩, ⟨.rblb, rfl, rfl⟩,
    ⟨.wpkt, rfl, rfl⟩, ⟨.rpkt, rfl, rfl⟩, ⟨.ckrl, rfl, rfl⟩, ⟨.scal, rfl, rfl⟩, ⟨.clre, rfl, rfl⟩, nofun⟩

theorem exists_slot_instr (a : BitVec 8) : ∀ op ∈ slotOps, ∃ i : Instr, i.slot? = some a ∧ (opcode i).toNat = op := by
  simp only [slotOps, List.forall_mem_cons]
  exact ⟨⟨.pack a, rfl, rfl⟩, ⟨.unpk a, rfl, rfl⟩, ⟨.wpnt a, rfl, rfl⟩, ⟨.rpnt a, rfl, rfl⟩, nofun⟩

theorem notMem_slotOps_of_mem_plainOps : ∀ op ∈ plainOps, op ∉ slotOps := by decide

/-- Of the words of commands only those whose operand names no slot are illegal. -/
theorem illegalWord_encode_iff (c : Params) (i : Instr) :
    IllegalWord c (encode i) ↔ ∃ a, i.slot? = some a ∧ c.maxPts ≤ a.toNat := by
  have hop : (encode i).toNat % 256 = (opcode i).toNat := by rw [encode_toNat]; omega
  have ha : (encode i).toNat / 256 % 256 = (i.slot?.getD 0).toNat := by rw [encode_toNat]; omega
  have hz : (encode i).toNat / 65536 = 0 := by rw [encode_toNat]; omega
  rw [IllegalWord, hop, ha, hz]
  rcases opcode_mem i with ⟨hi, hm⟩ | ⟨a, hi, hm⟩
  · simp [hi, hm, notMem_slotOps_of_mem_plainOps _ hm]
  · have hp : (opcode i).toNat ∉ plainOps := fun hp => notMem_slotOps_of_mem_plainOps _ hp hm
    simp [hi, hm, hp]

/-- A word that is not illegal is the word of a command (rules R65, R67). -/
theorem exists_eq_encode {c : Params} {w : Word} (h : ¬ IllegalWord c w) : ∃ i, w = encode i := by
  simp only [IllegalWord, not_or, not_and_or, not_not] at h
  obtain ⟨hop, hz, hplain, -⟩ := h
  have heq : ∀ i : Instr, (opcode i).toNat = w.toNat % 256 → (i.slot?.getD 0).toNat = w.toNat / 256 % 256 →
      w = encode i := fun i h1 h2 => by
    apply BitVec.eq_of_toNat_eq
    rw [encode_toNat, h1, h2]
    omega
  rcases hop with hop | hop
  · obtain ⟨i, hi, hop'⟩ := exists_plain_instr _ hop
    have ha : w.toNat / 256 % 256 = 0 := hplain.resolve_left (not_not.mpr hop)
    exact ⟨i, heq i hop' (by rw [hi, ha]; rfl)⟩
  · obtain ⟨i, hi, hop'⟩ := exists_slot_instr (BitVec.ofNat 8 (w.toNat / 256)) _ hop
    exact ⟨i, heq i hop' (by rw [hi]; simp)⟩

/-- While a failure is recorded every word but CLRE's is ignored (rule R135). -/
theorem execute_of_gated {s : State} {w : Word} (hs : s.ecode ≠ 0) (hw : w ≠ encode .clre) :
    execute w s = .next s := by
  rw [execute, if_pos (by simpa [State.gated] using hs)]
  exact if_neg hw

/-- An illegal word fails with IllegalCommand(0, 0) in a state without a failure: the decoder rejects it, or the command
finds that its operand names no slot (rules R66, R67, log entry 5). -/
theorem execute_of_illegal {s : State} {w : Word} (hs : s.ecode = 0) (hw : IllegalWord s.params w) :
    execute w s = .next (s.raise .illegalCommand 0 0) := by
  cases hd : decode w with
  | error e => rw [execute, if_neg (by simp [State.gated, hs]), hd]
  | ok i =>
    rw [decode_eq_ok_iff.mp hd, illegalWord_encode_iff] at hw
    obtain ⟨a, hi, ha⟩ := hw
    rw [execute_of_decode hd (.inl hs), exec_noSlot hi ha]

theorem wellFormed_of_legal {c : Params} {i : Instr} (h : ¬ IllegalWord c (encode i)) : WellFormed c i = true := by
  rw [illegalWord_encode_iff] at h
  unfold WellFormed
  split
  · rfl
  · next a hi => exact decide_eq_true (Nat.lt_of_not_le fun ha => h ⟨a, hi, ha⟩)

end Sys2Proof.Machine
end


section
/-!
SUPPORT. The wire format in a memory (rules R60 to R63 of `30_encoding.md`): where the bytes of a field, of a Point
Record or of a packet stand in BUF, their contents are what is read there.
-/

namespace Sys2Proof.Machine

open Sys2Proof.Stated

/-! ### Byte sequences that stand in a memory -/

theorem holds_append {m : Memory 8} {o : Nat} {b c : List Byte} :
    Holds m o (b ++ c) ↔ Holds m o b ∧ Holds m (o + b.length) c := by
  constructor
  · refine fun h => ⟨fun k hk => ?_, fun k hk => ?_⟩
    · rw [h k (by rw [List.length_append]; omega), List.getElem_append_left hk]
    · rw [Nat.add_assoc, h (b.length + k) (by rw [List.length_append]; omega), List.getElem_append_right (by omega)]
      simp
  · rintro ⟨hb, hc⟩ k hk
    rw [List.length_append] at hk
    by_cases hlt : k < b.length
    · rw [hb k hlt, List.getElem_append_left hlt]
    · obtain ⟨d, rfl⟩ : ∃ d, k = b.length + d := ⟨k - b.length, by omega⟩
      rw [← Nat.add_assoc, hc d (by omega), List.getElem_append_right (by omega)]
      simp

/-- Reading where a sequence stands gives the sequence. -/
theorem readSeq_of_holds {m : Memory 8} {o : Nat} {b : List Byte} (h : Holds m o b) : m.readSeq o b.length = b :=
  Memory.readSeq_eq m o b h

theorem unle32_readSeq_eq_wordAt (m : Memory 8) (o : Nat) : unle32 (m.readSeq o 4) = wordAt m o := by
  rw [readSeq_four, unle32_eq_append]
  rfl

theorem unle64_readSeq_eq_doubleAt (m : Memory 8) (o : Nat) : unle64 (m.readSeq o 8) = Stated.doubleAt m o := by
  have hassoc : ∀ b0 b1 b2 b3 b4 b5 b6 b7 : Byte, b7 ++ b6 ++ b5 ++ b4 ++ b3 ++ b2 ++ b1 ++ b0 =
      b7 ++ b6 ++ b5 ++ b4 ++ (b3 ++ b2 ++ b1 ++ b0) := fun b0 b1 b2 b3 b4 b5 b6 b7 => by
    simp only [BitVec.append_assoc, BitVec.cast_eq]
  exact (unle64_eq_append _ _ _ _ _ _ _ _).trans (hassoc _ _ _ _ _ _ _ _)

/-! ### Fields (rules R42, R47, R63) -/

theorem wordAt_of_holds {m : Memory 8} {o : Nat} {v : Word} (h : Holds m o (WireField.int v).bytes) :
    wordAt m o = v := by
  rw [← unle32_readSeq_eq_wordAt, ← unle32_le32 v]
  exact congrArg unle32 (readSeq_of_holds h)

theorem intAt_of_wordAt {m : Memory 8} {o n : Nat} (h : wordAt m o = trunc32 n) (hn : n < 2147483648) :
    intAt m o = n := (congrArg sext32 h).trans (sext32_ofNat hn)

theorem wordAt_of_holds_blob {m : Memory 8} {o : Nat} {b : List Byte} (h : Holds m o (WireField.blob b).bytes) :
    wordAt m o = trunc32 b.length := wordAt_of_holds (holds_append.mp h).1

theorem holds_of_holds_blob {m : Memory 8} {o o' : Nat} {b : List Byte} (h : Holds m o (WireField.blob b).bytes)
    (ho : o + 4 = o') : Holds m o' b := ho ▸ (holds_append.mp h).2

/-- A blob that stands below LIM is read, `o'` being the offset after it. -/
theorem fieldReadBytes_of_holds {lim : Nat} {m : Memory 8} {o o' : Nat} {b : List Byte}
    (h : Holds m o (WireField.blob b).bytes) (hb : b.length < 2147483648) (ho : o + 4 + b.length = o')
    (hle : o' ≤ lim) : fieldReadBytes lim m o = .ok (o', b) := by
  subst ho
  have hlen : unle32 (m.readSeq o 4) = trunc32 b.length :=
    (unle32_readSeq_eq_wordAt m o).trans (wordAt_of_holds_blob h)
  rw [fieldReadBytes_of_length hlen hb hle, readSeq_of_holds (holds_of_holds_blob h rfl)]

/-- An Int Field that stands below LIM is read. -/
theorem fieldReadInt_of_holds {lim : Nat} {m : Memory 8} {o : Nat} {v : Word} (h : Holds m o (WireField.int v).bytes)
    (hle : o + 4 ≤ lim) : fieldReadInt lim m o = .ok (o + 4, v) := by
  rw [fieldReadInt, if_pos hle, unle32_readSeq_eq_wordAt, wordAt_of_holds h]

/-! ### Packed bits and doubles (rules R49, R90, R91) -/

/-- A packed sequence shows its elements, and zeros in the padding of its last byte. -/
theorem packedBitAt_of_holds {m : Memory 8} {o i : Nat} {b : List Bit} (h : Holds m o (packBits b))
    (hi : i < 8 * ceilDiv8 b.length) : packedBitAt m o i = b.getD i 0#1 := by
  have hj : i / 8 < (packBits b).length := by rw [packBits_length]; omega
  have hbyte : m.read (o + i / 8) = packByte b (i / 8) := by rw [h _ hj]; simp [packBits]
  rw [packedBitAt, hbyte, packByte_bit b (i / 8) (i % 8) (by omega), Nat.div_add_mod]

/-- Unpacking as many elements as were packed gives them back. -/
theorem unpackBits_packBits (b : List Bit) : unpackBits (packBits b) b.length = .ok b := by
  have hlen : b.length ≤ 8 * ceilDiv8 b.length := by unfold ceilDiv8; omega
  rcases unpackBits_cases (packBits b) b.length with ⟨h, -⟩ | ⟨-, -, h⟩
  · rw [packBits_length] at h
    omega
  · rw [h]
    refine congrArg Result.ok (List.ext_getElem (by simp) fun k hk _ => ?_)
    rw [List.length_map, List.length_range, Int.toNat_natCast] at hk
    rw [List.getElem_map, List.getElem_range, unpackBit_packBits b k hk, List.getD_eq_getElem _ _ hk]

theorem doubleAt_of_holds {m : Memory 8} {o : Nat} {v : List DWord} (h : Holds m o (doublesBytes v)) {i : Nat}
    (hi : i < v.length) : Stated.doubleAt m (o + 8 * i) = v[i] := by
  induction v generalizing o i with
  | nil => exact absurd hi (Nat.not_lt_zero i)
  | cons d v ih =>
    obtain ⟨hd, hv⟩ := holds_append.mp (show Holds m o (le64 d ++ doublesBytes v) from h)
    cases i with
    | zero =>
      rw [← unle64_readSeq_eq_doubleAt, ← unle64_le64 d]
      exact congrArg unle64 (readSeq_of_holds hd)
    | succ i =>
      rw [show o + 8 * (i + 1) = o + 8 + 8 * i by omega]
      exact ih hv (Nat.lt_of_succ_lt_succ hi)

/-- Where the doubles of a memory of a slot stand, they are its elements. -/
theorem doubleAt_of_holds_readSeq {m : Memory 8} {o n : Nat} {y : Memory 64}
    (h : Holds m o (doublesBytes (y.readSeq 0 n))) {i : Nat} (hi : i < n) :
    Stated.doubleAt m (o + 8 * i) = y.read i := by
  rw [doubleAt_of_holds h (by rwa [Memory.readSeq_length]), Memory.readSeq_getElem, Nat.zero_add]

/-! ### Point Records (rule R61) -/

/-- The four fields of a record stand at the offsets of rule R61's table. -/
theorem holds_record_fields {m : Memory 8} {a : Nat} {p : TouchPoint} (h : Holds m a p.wire) :
    let k := ceilDiv8 p.bits.length
    Holds m a (WireField.blob (packBits p.bits)).bytes ∧
    Holds m (a + 4 + k) (WireField.blob (doublesBytes p.xi)).bytes ∧
    Holds m (a + 8 + k + 8 * p.xi.length) (WireField.blob (doublesBytes p.xv)).bytes ∧
    Holds m (a + 12 + k + 8 * p.xi.length + 8 * p.xv.length) (WireField.int (trunc32 p.bits.length)).bytes := by
  intro k
  simp only [TouchPoint.wire, TouchPoint.fields, List.flatMap_cons, List.flatMap_nil, List.append_nil, holds_append,
    WireField.bytes_length, WireField.size, packBits_length, doublesBytes_length, ← Nat.add_assoc] at h
  obtain ⟨h1, h2, h3, h4⟩ := h
  refine ⟨h1, h2, ?_, ?_⟩
  · rwa [show a + 8 + k + 8 * p.xi.length = a + 4 + k + 4 + 8 * p.xi.length by omega]
  · rwa [show a + 12 + k + 8 * p.xi.length + 8 * p.xv.length =
      a + 4 + k + 4 + 8 * p.xi.length + 4 + 8 * p.xv.length by omega]

@[simp] theorem TouchPoint.wire_length (p : TouchPoint) : p.wire.length = p.size := by
  simp only [TouchPoint.wire, TouchPoint.fields, List.flatMap_cons, List.flatMap_nil, List.append_nil,
    List.length_append, WireField.bytes_length, WireField.size, packBits_length, doublesBytes_length, TouchPoint.size]
  omega

theorem Slot.touchPoint_size (x : Slot) : x.touchPoint.size = recordSize x := by
  simp [TouchPoint.size, Slot.touchPoint, recordSize, ceilDiv8]

/-- The record of a slot within its ranges has the layout of rule R61's table: its lengths are small enough not to be
negative as signed numbers. -/
theorem recordLayout_of_holds {c : Params} (hc : c.Legal) {x : Slot} (hx : Slot.Inv c x) {m : Memory 8} {a : Nat}
    (h : Holds m a x.touchPoint.wire) : RecordLayout m a x := by
  obtain ⟨h1, h2, h3, h4⟩ := holds_record_fields h
  simp only [Slot.touchPoint, Slot.bitSeq_length, Slot.xiSeq_length, Slot.xvSeq_length] at h1 h2 h3 h4
  have hbits := hx.nbits_le.trans_lt (maxBits_lt hc)
  have hxi := hx.nxi_le.trans_lt (maxExt_lt hc)
  have hxv := hx.nxv_le.trans_lt (maxExt_lt hc)
  have hk : ceilDiv8 x.nbits.toNat < 2147483648 := by unfold ceilDiv8; omega
  unfold RecordLayout
  simp only [show (x.nbits.toNat + 7) / 8 = ceilDiv8 x.nbits.toNat from rfl]
  refine ⟨?_, fun i hi => ?_, ?_, fun i hi => ?_, ?_, fun i hi => ?_, ?_⟩
  · exact intAt_of_wordAt (by simpa using wordAt_of_holds_blob h1) hk
  · rw [packedBitAt_of_holds (holds_of_holds_blob h1 rfl) (by rwa [Slot.bitSeq_length]), Slot.bitSeq,
      Memory.readSeq_getD, Nat.zero_add]
    rfl
  · exact_mod_cast intAt_of_wordAt (n := 8 * x.nxi.toNat) (by simpa using wordAt_of_holds_blob h2) (by omega)
  · exact doubleAt_of_holds_readSeq (holds_of_holds_blob h2 (by omega)) hi
  · exact_mod_cast intAt_of_wordAt (n := 8 * x.nxv.toNat) (by simpa using wordAt_of_holds_blob h3) (by omega)
  · exact doubleAt_of_holds_readSeq (holds_of_holds_blob h3 (by omega)) hi
  · exact intAt_of_wordAt (wordAt_of_holds h4) (by omega)

/-! ### Reading a record (rule R101) -/

/-- What ReadPoint returns for a touch point whose record ends at offset `next`. -/
def TouchPoint.record (p : TouchPoint) (next : Nat) : PointRecord :=
  { next := next, bits := p.bits, t := p.bits.length, xi := p.xi, xv := p.xv, ni := p.xi.length }

theorem malformedAt_ok {α : Type} (o : Nat) (a : α) : malformedAt o (.ok a) = .ok a := rfl

/-- ReadPoint accepts the record of every touch point with equal extremum counts that stands below LIM. -/
theorem readPoint_of_holds {lim : Nat} (hlim : lim < 268435456) {m : Memory 8} {a : Nat} {p : TouchPoint}
    (heq : p.xi.length = p.xv.length) (hle : a + p.size ≤ lim) (h : Holds m a p.wire) :
    readPoint lim m a = .ok (p.record (a + p.size)) := by
  obtain ⟨h1, h2, h3, h4⟩ := holds_record_fields h
  rw [← heq] at h4
  have hsize : p.size = 16 + ceilDiv8 p.bits.length + 8 * p.xi.length + 8 * p.xv.length := rfl
  have hbits : p.bits.length ≤ 8 * ceilDiv8 p.bits.length := by unfold ceilDiv8; omega
  have r1 := fieldReadBytes_of_holds (lim := lim) h1 (by simp; omega) (by rw [packBits_length]) (by omega)
  have r2 := fieldReadBytes_of_holds (lim := lim) h2 (by simp; omega)
    (o' := a + 8 + ceilDiv8 p.bits.length + 8 * p.xi.length) (by simp; omega) (by omega)
  have r3 := fieldReadBytes_of_holds (lim := lim) h3 (by simp; omega)
    (o' := a + 12 + ceilDiv8 p.bits.length + 8 * p.xi.length + 8 * p.xi.length) (by simp; omega) (by omega)
  have r4 := fieldReadInt_of_holds (lim := lim) h4 (by omega)
  have hbits' : sext32 (trunc32 p.bits.length) = p.bits.length := sext32_ofNat (by omega)
  have hxv : doublesOf (doublesBytes p.xv) p.xi.length = p.xv := heq ▸ doublesOf_doublesBytes p.xv
  have hnext : a + 12 + ceilDiv8 p.bits.length + 8 * p.xi.length + 8 * p.xi.length + 4 = a + p.size := by omega
  simp only [readPoint, malformedAt_ok, Result.bind_ok, Result.mapFail, r1, r2, r3, r4, doublesBytes_length, ← heq,
    Nat.mul_mod_right, ne_eq, not_true_eq_false, if_false, hbits', unpackBits_packBits, Nat.mul_div_cancel_left,
    Nat.zero_lt_succ, doublesOf_doublesBytes, hxv, hnext, Int.toNat_natCast, TouchPoint.record]

/-! ### Committing a record, and reading a packet (rules R104, R111) -/

/-- A slot shows the touch point that was committed to it. -/
theorem Slot.Inv.commit_touchPoint {c : Params} {x : Slot} (hx : Slot.Inv c x) {p : TouchPoint} {o : Nat}
    (heq : p.xi.length = p.xv.length) (hsize : p.size < 268435456) : (x.commit (p.record o)).touchPoint = p := by
  have hsz : p.size = 16 + ceilDiv8 p.bits.length + 8 * p.xi.length + 8 * p.xv.length := rfl
  have hbits : p.bits.length ≤ 8 * ceilDiv8 p.bits.length := by unfold ceilDiv8; omega
  have hb : (trunc32 p.bits.length).toNat = p.bits.length := trunc32_toNat (by omega)
  have hn : (trunc32 p.xi.length).toNat = p.xi.length := trunc32_toNat (by omega)
  simp only [Slot.touchPoint, Slot.bitSeq, Slot.xiSeq, Slot.xvSeq, Slot.commit, TouchPoint.record, hb, hn]
  rw [Memory.readSeq_writeSeq _ hx.bits_wf, Memory.readSeq_writeSeq _ hx.xi_wf, heq,
    Memory.readSeq_writeSeq _ hx.xv_wf]

/-- The records of a packet that stand one after another below LIM are accepted, each at the end of the one before. -/
theorem readPoint_nthRecord {lim : Nat} (hlim : lim < 268435456) {m : Memory 8} {o : Nat} {points : List TouchPoint}
    (heq : ∀ p ∈ points, p.xi.length = p.xv.length) (hle : o + (points.map TouchPoint.size).sum ≤ lim)
    (h : Holds m o (points.flatMap TouchPoint.wire)) :
    nthRecord m o points.length = o + (points.map TouchPoint.size).sum ∧
    ∀ j, (hj : j < points.length) → ∃ next, readPoint lim m (nthRecord m o j) = .ok (points[j].record next) := by
  induction points generalizing o with
  | nil => exact ⟨rfl, nofun⟩
  | cons p points ih =>
    rw [List.flatMap_cons, holds_append, TouchPoint.wire_length] at h
    rw [List.map_cons, List.sum_cons] at hle ⊢
    obtain ⟨hp, hpoints⟩ := List.forall_mem_cons.mp heq
    have hr := readPoint_of_holds hlim hp (by omega) h.1
    have hrec : recordOf m o = p.record (o + p.size) := (readPoint_ok _ _ _ _ hr).1.symm
    have hnth : ∀ n, nthRecord m o (n + 1) = nthRecord m (o + p.size) n := fun n => by
      rw [nthRecord_succ, hrec]; rfl
    obtain ⟨hend, hread⟩ := ih hpoints (by omega) h.2
    refine ⟨by rw [List.length_cons, hnth, hend, Nat.add_assoc], fun j hj => ?_⟩
    cases j with
    | zero => exact ⟨_, hr⟩
    | succ j =>
      rw [hnth]
      exact hread j (Nat.lt_of_succ_lt_succ hj)

/-- The loop of DecodePacket accepts the records and commits each to its slot. -/
theorem decodePoints_of_holds {c : Params} {lim : Nat} (hlim : lim < 268435456) {m : Memory 8} {o : Nat}
    {points : List TouchPoint} {slots : List Slot} (hslots : ∀ q, Slot.Inv c (slotAt slots q))
    (hl : points.length ≤ slots.length) (heq : ∀ p ∈ points, p.xi.length = p.xv.length)
    (hle : o + (points.map TouchPoint.size).sum ≤ lim) (h : Holds m o (points.flatMap TouchPoint.wire)) :
    ∃ l, decodePoints lim m points.length 0 o slots = (l, .ok (o + (points.map TouchPoint.size).sum)) ∧
      ∀ j, (hj : j < points.length) → (slotAt l j).touchPoint = points[j] := by
  obtain ⟨hend, hread⟩ := readPoint_nthRecord hlim heq hle h
  obtain ⟨-, ⟨hok, -, hslot⟩ | ⟨j, hj, e, -, hfail, -⟩⟩ :=
    decodePoints_cases lim m points.length 0 o slots (by omega)
  · refine ⟨_, Prod.ext rfl (hok.trans (by rw [hend])), fun j hj => ?_⟩
    obtain ⟨next, hr⟩ := hread j hj
    have hmem : points[j] ∈ points := List.getElem_mem hj
    have hsize : points[j].size ≤ (points.map TouchPoint.size).sum :=
      List.single_le_sum (fun _ _ => Nat.zero_le _) _ (List.mem_map_of_mem hmem)
    rw [hslot, if_pos (by omega), Nat.sub_zero, ← (readPoint_ok _ _ _ _ hr).1]
    exact (hslots j).commit_touchPoint (heq _ hmem) (by omega)
  · obtain ⟨next, hr⟩ := hread j hj
    cases hr.symm.trans hfail

theorem packetWire_length (role : Word) (points : List TouchPoint) :
    (packetWire role points).length = packetSize points := by
  rw [packetWire, packetSize, List.length_append, List.length_flatMap, WireField.bytes_length]
  simp only [TouchPoint.wire_length, WireField.size]

theorem strictTest_of_eq {strict : Bool} {lim o : Nat} (h : strict = true → o = lim) :
    strictTest strict lim (.ok o) = .ok o := if_neg fun ⟨hs, hne⟩ => hne (h hs)

/-- DecodePacket accepts a packet that stands at offset 0 below LIM, ends at LIM with STRICT set, and has equal extremum
counts. -/
theorem decodePacket_of_holds {c : Params} {lim : Nat} (hlim : lim < 268435456) {m : Memory 8} {role : Word}
    {points : List TouchPoint} {slots : List Slot} (hslots : ∀ q, Slot.Inv c (slotAt slots q))
    (hl : points.length ≤ slots.length) (heq : ∀ p ∈ points, p.xi.length = p.xv.length)
    (hle : packetSize points ≤ lim) {strict : Bool} (hstrict : strict = true → packetSize points = lim)
    (h : Holds m 0 (packetWire role points)) (role' : Word) :
    ∃ l, decodePacket lim m points.length strict role' slots = ⟨role, l, .ok (packetSize points)⟩ ∧
      ∀ j, (hj : j < points.length) → (slotAt l j).touchPoint = points[j] := by
  obtain ⟨hrole, hpoints⟩ := holds_append.mp h
  obtain ⟨l, hdec, htp⟩ := decodePoints_of_holds (o := 4) hlim hslots hl heq hle hpoints
  refine ⟨l, ?_, htp⟩
  rw [decodePacket, fieldReadInt_of_holds hrole (by unfold packetSize at hle; omega)]
  dsimp only
  rw [hdec]
  exact congrArg (PacketDecode.mk role l) (strictTest_of_eq hstrict)

end Sys2Proof.Machine
end

section
/-!
SUPPORT. Host transactions (rules R70 to R72 of `30_encoding.md`): which are legal, and what a legal one to a memory
reads, stores and leaves as it was.
-/

namespace Sys2Proof.Machine

open Sys2Proof.Stated

/-! ### Legal and illegal transactions -/

@[simp] theorem ofBits_number (sp : Space) : Space.ofBits sp.number = sp := by cases sp <;> rfl

theorem number_ofBits (b : BitVec 3) : (Space.ofBits b).number = b := by revert b; decide

/-- A transaction that reaches CMD is legal: space REG has slot 0 and index 7. -/
theorem legal_of_reachesCmd {sp : BitVec 3} {p : BitVec 8} {ix : Word} (h : ReachesCmd sp p ix) (c : Params) :
    LegalAccess c (Space.ofBits sp) p.toNat ix.toNat := by
  obtain ⟨hsp, rfl, hix⟩ := h
  rw [hsp, hix]
  exact ⟨Nat.one_pos, show 7 < 17 by decide⟩

theorem hostWrite_of_illegal {s : State} {sp : BitVec 3} {p : BitVec 8} {ix : Word}
    (h : ¬ LegalAccess s.params (Space.ofBits sp) p.toNat ix.toNat) (d : DWord) : hostWrite sp p ix d s = .next s := by
  rw [hostWrite, if_neg fun hc => h (legal_of_reachesCmd hc _), if_neg h]

theorem hostRead_of_illegal {s : State} {sp : BitVec 3} {p : BitVec 8} {ix : Word}
    (h : ¬ LegalAccess s.params (Space.ofBits sp) p.toNat ix.toNat) : hostRead sp p ix s = 0 := if_neg h

theorem hostRead_of_legal {s : State} {sp : Space} {p : BitVec 8} {ix : Word}
    (h : LegalAccess s.params sp p.toNat ix.toNat) : hostRead sp.number p ix s = s.load sp p.toNat ix.toNat := by
  rw [hostRead, ofBits_number, if_pos h]

theorem hostWrite_of_legal {s : State} {sp : Space} (hsp : sp ≠ .reg) {p : BitVec 8} {ix : Word}
    (h : LegalAccess s.params sp p.toNat ix.toNat) (d : DWord) :
    hostWrite sp.number p ix d s = .next (s.store sp p.toNat ix.toNat d) := by
  rw [hostWrite, if_neg fun hc => hsp ((ofBits_number sp).symm.trans hc.1), ofBits_number, if_pos h]

/-! ### Loading after storing -/

theorem ne_reg_of_memoryWidth {sp : Space} {n : Nat} (h : memoryWidth sp = some n) : sp ≠ .reg := by
  rintro rfl
  cases h

/-- What a host read of a slot's space returns, by the slot alone (rules R26, R71). -/
def Slot.load (x : Slot) (sp : Space) (index : Nat) : DWord :=
  match sp with
  | .slotReg =>
    match CountReg.ofIndex index with
    | some r => (x.readCount r).setWidth 64
    | none => 0
  | .bits => (x.bits.read index).setWidth 64
  | .xi => x.xi.read index
  | .xv => x.xv.read index
  | _ => 0

/-- The spaces whose elements are in a slot. -/
def slotSpaces : List Space := [.slotReg, .bits, .xi, .xv]

theorem load_setSlot_same {s : State} {p : Nat} (hp : p < s.slots.length) (x : Slot) {sp : Space}
    (hsp : sp ∈ slotSpaces) (ix : Nat) : (s.setSlot p x).load sp p ix = x.load sp ix := by
  have hload : ((s.setSlot p x).slot p).load sp ix = x.load sp ix := by
    rw [State.slot, State.setSlot, slotAt_set_same hp]
  cases sp with
  | slotReg | bits | xi | xv => exact hload
  | _ => exact absurd hsp (by decide)

/-- Replacing a slot shows in the loads of that slot alone, as far as its contents differ. -/
theorem load_setSlot {s : State} {p q : Nat} {x : Slot} {sp : Space} {ix : Nat}
    (h : q = p → x.load sp ix = (s.slot q).load sp ix) : (s.setSlot p x).load sp q ix = s.load sp q ix := by
  have hload : ((s.setSlot p x).slot q).load sp ix = (s.slot q).load sp ix := by
    rcases slot_setSlot_cases s p x q with hq | ⟨rfl, hq⟩ <;> rw [hq]
    exact h rfl
  cases sp with
  | slotReg | bits | xi | xv => exact hload
  | _ => rfl

/-- A store to a memory is loaded back from its element, cut to the width of the element (rule R71). -/
theorem load_store_same {s : State} (hs : s.Inv) {sp : Space} {n p ix : Nat} (hn : memoryWidth sp = some n)
    (hl : LegalAccess s.params sp p ix) (d : DWord) :
    (s.store sp p ix d).load sp p ix = (d.extractLsb' 0 n).setWidth 64 := by
  have hx := hs.slot p
  obtain ⟨hp, -⟩ := hl
  cases sp <;> cases hn
  case buf => exact congrArg (BitVec.setWidth 64) (Memory.read_write_same _ hs.buf_wf ix _)
  case blob => exact congrArg (BitVec.setWidth 64) (Memory.read_write_same _ hs.blob_wf ix _)
  case bits =>
    refine (load_setSlot_same (hs.slots_length ▸ hp) _ (by decide) ix).trans ?_
    exact congrArg (BitVec.setWidth 64) (Memory.read_write_same _ hx.bits_wf ix _)
  case xi =>
    refine (load_setSlot_same (hs.slots_length ▸ hp) _ (by decide) ix).trans ?_
    exact (Memory.read_write_same _ hx.xi_wf ix _).trans (by simp)
  case xv =>
    refine (load_setSlot_same (hs.slots_length ▸ hp) _ (by decide) ix).trans ?_
    exact (Memory.read_write_same _ hx.xv_wf ix _).trans (by simp)

/-- A store to a memory shows in no other load. -/
theorem load_store_other {s : State} (hs : s.Inv) {sp sp' : Space} {n p ix p' ix' : Nat}
    (hn : memoryWidth sp = some n) (hl : LegalAccess s.params sp p ix) (hl' : LegalAccess s.params sp' p' ix')
    (hne : (sp', p', ix') ≠ (sp, p, ix)) (d : DWord) :
    (s.store sp p ix d).load sp' p' ix' = s.load sp' p' ix' := by
  have hx := hs.slot p
  have hix : sp' = sp → p' = p → ix ≠ ix' := fun h1 h2 h3 => hne (by rw [h1, h2, h3])
  have hp : p < 1 → p' < 1 → p' = p := by omega
  cases sp with
  | buf =>
    cases sp' with
    | buf => exact congrArg (BitVec.setWidth 64) (Memory.read_write_other _ hs.buf_wf (hix rfl (hp hl.1 hl'.1)) _)
    | _ => rfl
  | blob =>
    cases sp' with
    | blob => exact congrArg (BitVec.setWidth 64) (Memory.read_write_other _ hs.blob_wf (hix rfl (hp hl.1 hl'.1)) _)
    | _ => rfl
  | bits =>
    refine load_setSlot fun hq => ?_
    subst hq
    cases sp' with
    | bits => exact congrArg (BitVec.setWidth 64) (Memory.read_write_other _ hx.bits_wf (hix rfl rfl) _)
    | _ => rfl
  | xi =>
    refine load_setSlot fun hq => ?_
    subst hq
    cases sp' with
    | xi => exact Memory.read_write_other _ hx.xi_wf (hix rfl rfl) _
    | _ => rfl
  | xv =>
    refine load_setSlot fun hq => ?_
    subst hq
    cases sp' with
    | xv => exact Memory.read_write_other _ hx.xv_wf (hix rfl rfl) _
    | _ => rfl
  | _ => cases hn

/-- A store to a memory changes nothing but BUF, BLOB and the slots. -/
theorem store_memory_eq (s : State) {sp : Space} {n : Nat} (hn : memoryWidth sp = some n) (p ix : Nat) (d : DWord) :
    s.store sp p ix d =
      { s with
        buf := (s.store sp p ix d).buf, blob := (s.store sp p ix d).blob, slots := (s.store sp p ix d).slots } := by
  cases sp with
  | buf | blob | bits | xi | xv => rfl
  | _ => cases hn

theorem setsElement_write {w : Nat} {m : Memory w} (hm : m.wf) (i : Nat) (v : BitVec w) :
    SetsElement m (m.write i v) i v :=
  ⟨Memory.read_write_same m hm i v, fun _ hj => Memory.read_write_other m hm (Ne.symm hj) v⟩

end Sys2Proof.Machine
end

section
/-!
SUPPORT. Script lines (rules R75, R76 of `30_encoding.md`): what the block holds after it has taken the writes of a
sequence off the port.
-/

namespace Sys2Proof.Machine

open Sys2Proof.Stated

/-! ### The data of a transaction -/

theorem le_of_memoryWidth {sp : Space} {n : Nat} (hn : memoryWidth sp = some n) : n ≤ 64 := by
  cases sp <;> cases hn <;> decide

/-- The data of a transaction, cut to the width of an element, is the element it was extended from. -/
theorem extractLsb'_setWidth_self {n : Nat} (hn : n ≤ 64) (v : BitVec n) :
    (v.setWidth 64 : DWord).extractLsb' 0 n = v := by
  rw [BitVec.extractLsb'_setWidth_of_le (by omega), BitVec.extractLsb'_eq_self]

/-- A memory that loads the elements of a sequence shows the sequence. -/
theorem readSeq_of_loads {n : Nat} (hn : n ≤ 64) {m : Memory n} {vs : List (BitVec n)}
    (h : ∀ k, (hk : k < vs.length) → (m.read k).setWidth 64 = (vs[k].setWidth 64 : DWord)) :
    m.readSeq 0 vs.length = vs := by
  refine Memory.readSeq_eq m 0 vs fun k hk => ?_
  rw [Nat.zero_add, ← extractLsb'_setWidth_self hn (m.read k), h k hk, extractLsb'_setWidth_self hn]

/-! ### Taking the events of a line -/

theorem load_withPort (s : State) (rest : List HostEvent) (sp : Space) (p ix : Nat) :
    (s.withPort rest).load sp p ix = s.load sp p ix := by
  cases sp <;> rfl

theorem core_run_one (s : State) : core.run 1 s = step s := by
  obtain ⟨t, ht, -⟩ := step_completes s
  exact (core_run_succ core ht).trans ht.symm

/-- A step on a write to an element of a memory stores it. -/
theorem step_of_store {s : State} {sp : Space} (hsp : sp ≠ .reg) {p : BitVec 8} {i : Nat} {d : DWord}
    {rest : List HostEvent} (hl : LegalAccess s.params sp p.toNat i) (hi : i < 4294967296)
    (hport : s.port = .hostWrite sp.number p (trunc32 i) d :: rest) :
    step s = .next ((s.withPort rest).store sp p.toNat i d) := by
  have hi' : (trunc32 i).toNat = i := trunc32_toNat hi
  rw [step_of_event hport, takeEvent, hostWrite_of_legal hsp (by rwa [hi']), hi']

theorem takeEvent_writeReg (s : State) {r : Reg} (hr : r ≠ .cmd) (v : Word) :
    takeEvent (writeRegEvent r v) s = .next (s.writeReg r v) := by
  refine (hostWrite_reg s hr _).trans ?_
  simp

theorem takeEvent_writeCount {s : State} {p : BitVec 8} (hp : p.toNat < s.params.maxPts) (r : CountReg) (n : Nat) :
    takeEvent (writeCountEvent p r n) s =
      .next (s.setSlot p.toNat ((s.slot p.toNat).writeCount s.params r (trunc32 n))) := by
  have hdata : (BitVec.ofNat 64 n).setWidth 32 = trunc32 n := BitVec.setWidth_ofNat_of_le (by decide) n
  rw [← hdata]
  exact hostWrite_count s hp r _

/-- Running the writes of a sequence to consecutive elements of a memory, with the event `e` behind them: `e` is taken
in a state where the elements load as written, and those below them as before. -/
theorem run_writeSeqEvents {sp : Space} {n : Nat} (hn : memoryWidth sp = some n) {p : BitVec 8} {e : HostEvent}
    {vs : List (BitVec n)} {s : State} {i : Nat} (hs : s.Inv)
    (hl : ∀ k < vs.length, LegalAccess s.params sp p.toNat (i + k)) (hi : i + vs.length ≤ 4294967296)
    (hport : s.port = writeSeqEvents sp p i vs ++ [e]) :
    ∃ u : State, core.run (vs.length + 1) s = takeEvent e u ∧ u.Inv ∧ u.params = s.params ∧
      (∀ k, (hk : k < vs.length) → u.load sp p.toNat (i + k) = vs[k].setWidth 64) ∧
      ∀ j < i, u.load sp p.toNat j = s.load sp p.toNat j := by
  induction vs generalizing s i with
  | nil =>
    exact ⟨s.withPort [], (core_run_one s).trans (step_of_event hport), hs.withPort [], rfl, nofun,
      fun j _ => load_withPort s [] sp _ j⟩
  | cons v vs ih =>
    rw [List.length_cons] at hi
    have hl0 : LegalAccess s.params sp p.toNat i := hl 0 (Nat.succ_pos _)
    have hs' := hs.withPort (writeSeqEvents sp p (i + 1) vs ++ [e])
    have hkeep := KeepsPort.store (s.withPort (writeSeqEvents sp p (i + 1) vs ++ [e])) sp p.toNat i (v.setWidth 64)
    have hstep := step_of_store (ne_reg_of_memoryWidth hn) hl0 (by omega) hport
    have hl' : ∀ k < vs.length, LegalAccess s.params sp p.toNat (i + 1 + k) := fun k hk => by
      have h := hl (k + 1) (Nat.succ_lt_succ hk)
      rwa [show i + 1 + k = i + (k + 1) by omega]
    obtain ⟨u, hrun, hu, hparams, hin, hbelow⟩ := ih (hs'.store hl0 _) (by rwa [hkeep.params]) (by omega) hkeep.port
    refine ⟨u, (core_run_succ core hstep).trans hrun, hu, hparams.trans hkeep.params, fun k hk => ?_, fun j hj => ?_⟩
    · cases k with
      | zero =>
        rw [Nat.add_zero, hbelow i (Nat.lt_succ_self i), load_store_same hs' hn hl0,
          extractLsb'_setWidth_self (le_of_memoryWidth hn)]
        rfl
      | succ k =>
        rw [show i + (k + 1) = i + 1 + k by omega]
        exact hin k (Nat.lt_of_succ_lt_succ hk)
    · have hne : (sp, p.toNat, j) ≠ (sp, p.toNat, i) := fun h => by
        cases h
        exact Nat.lt_irrefl _ hj
      rw [hbelow j (hj.trans (Nat.lt_succ_self i)), load_store_other hs' hn hl0 ⟨hl0.1, hj.trans hl0.2⟩ hne,
        load_withPort]

theorem spaceSize_lt {c : Params} (hc : c.Legal) (sp : Space) : spaceSize c sp < 2 ^ 28 := by
  cases sp with
  | buf | blob => exact lt_of_le_of_lt hc.2.1 (by decide)
  | bits => exact maxBits_lt hc
  | xi | xv => exact maxExt_lt hc
  | reg | slotReg | reserved => simp [spaceSize]

/-- Running a line that loads a sequence into a memory from its first element on. -/
theorem run_loadLine {sp : Space} {n : Nat} (hn : memoryWidth sp = some n) {p : BitVec 8} {e : HostEvent}
    {vs : List (BitVec n)} {s : State} (hs : s.Inv) (hp : p.toNat < spaceSlots s.params sp)
    (hlen : vs.length ≤ spaceSize s.params sp) (hport : s.port = writeSeqEvents sp p 0 vs ++ [e]) :
    ∃ u : State, core.run (vs.length + 1) s = takeEvent e u ∧ u.Inv ∧ u.params = s.params ∧
      ∀ k, (hk : k < vs.length) → u.load sp p.toNat k = vs[k].setWidth 64 := by
  have hsize := spaceSize_lt hs.params_legal sp
  obtain ⟨u, hrun, hu, hparams, hin, -⟩ := run_writeSeqEvents hn hs (fun k hk => ⟨hp, by omega⟩) (by omega) hport
  exact ⟨u, hrun, hu, hparams, fun k hk => by rw [← hin k hk, Nat.zero_add]⟩

/-- Running a line that loads a sequence into a slot: the elements are in the slot when its count, `c`, is written. -/
theorem run_slotLine {sp : Space} {n : Nat} (hn : memoryWidth sp = some n) {p : BitVec 8} {r : CountReg}
    {vs : List (BitVec n)} {s : State} (hs : s.Inv) (hp : p.toNat < s.params.maxPts)
    (hslots : spaceSlots s.params sp = s.params.maxPts) (hlen : vs.length ≤ spaceSize s.params sp)
    (hport : s.port = writeSeqEvents sp p 0 vs ++ [writeCountEvent p r vs.length]) :
    ∃ (u t : State) (c : Word), core.run (vs.length + 1) s = .next t ∧ c.toNat = vs.length ∧
      t.slot p.toNat = (u.slot p.toNat).writeCount s.params r c ∧
      ∀ k, (hk : k < vs.length) → u.load sp p.toNat k = vs[k].setWidth 64 := by
  have hsize := spaceSize_lt hs.params_legal sp
  obtain ⟨u, hrun, hu, hparams, hin⟩ := run_loadLine hn hs (hslots ▸ hp) hlen hport
  rw [← hparams] at hp
  refine ⟨u, _, trunc32 vs.length, hrun.trans (takeEvent_writeCount hp r _), trunc32_toNat (by omega), ?_, hin⟩
  rw [State.slot, State.setSlot_slots, slotAt_set_same (by rwa [hu.slots_length]), hparams]

end Sys2Proof.Machine
end

section
/-!
PROOFS. The obligations of `30_encoding.md`.
-/

namespace Sys2Proof.Proofs

open Sys2Proof Sys2Proof.Machine Sys2Proof.Stated

/-- Settles O6: the fields of an encoding are what was encoded, and a word is determined by its fields. -/
theorem decodingIsTheInverseOfEncoding : Obligations.DecodingIsTheInverseOfEncoding := fun _ _ => decode_eq_ok_iff

/-- Settles O38: each record is accepted at the end of the one before, and its slot then shows its touch point. -/
theorem rpktAcceptsEveryPacketOfTheGrammar : Obligations.RpktAcceptsEveryPacketOfTheGrammar := by
  intro s role points hs hn heq hle hstrict h
  have hcap := hs.params_legal.2.1
  have hlim := hs.lim_le
  have hnpt := hs.npt_le
  obtain ⟨l, hdec, htp⟩ := decodePacket_of_holds (by omega) (fun q => hs.slot q)
    (by rw [hs.slots_length]; omega) heq hle hstrict h s.role
  refine ⟨packetWire_length role points, ((s.withRole role).withSlots l).withOfs (packetSize points), ?_, rfl, htp⟩
  show execRpkt s = _
  rw [execRpkt, hn, hdec]

/-- Settles O8: the word of CLRE is legal, so a failure recorded gates every illegal word; with none recorded the
decoder or the slot test rejects it. -/
theorem illegalWordsAreReportedOrIgnored : Obligations.IllegalWordsAreReportedOrIgnored := by
  refine ⟨fun s w hw => ⟨fun hs => execute_of_illegal hs hw, fun hs => execute_of_gated hs ?_⟩, fun c w hw => ?_,
    by decide +kernel⟩
  · rintro rfl
    obtain ⟨a, ha, -⟩ := (illegalWord_encode_iff s.params .clre).mp hw
    cases ha
  · obtain ⟨i, rfl⟩ := exists_eq_encode hw
    exact ⟨i, decode_encode i, wellFormed_of_legal hw⟩

/-- Settles O12: each cause puts the slot or the index outside the range of its space. -/
theorem illegalTransactionsHaveNoEffect : Obligations.IllegalTransactionsHaveNoEffect := by
  intro s sp p ix d h
  have hillegal : ¬ LegalAccess s.params (Space.ofBits sp) p.toNat ix.toNat := by
    rintro ⟨hp, hix⟩
    obtain ⟨S, rfl⟩ : ∃ S : Space, S.number = sp := ⟨_, number_ofBits sp⟩
    have hp0 : p = 0 ↔ p.toNat = 0 := BitVec.toNat_inj.symm
    rw [ne_eq, hp0] at h
    rw [ofBits_number] at hp hix
    cases S <;> simp [Space.number, spaceSlots, spaceSize, maxBits, maxExt] at h hp hix <;> omega
  exact ⟨hostWrite_of_illegal hillegal d, hostRead_of_illegal hillegal⟩

/-- Settles O13: a store to a memory is loaded back from its element and shows in no other load. -/
theorem hostWritesAndReadsMemoryElements : Obligations.HostWritesAndReadsMemoryElements := by
  refine ⟨fun s sp n p ix d hs hn hl => ?_, fun s p ix d hs => ?_⟩
  · have ht : (s.store sp p.toNat ix.toNat d).params = s.params := (KeepsPort.store s _ _ _ _).params
    refine ⟨_, hostWrite_of_legal (ne_reg_of_memoryWidth hn) hl d, store_memory_eq s hn _ _ _, ?_,
      fun sp' p' ix' hne => ?_⟩
    · rw [hostRead_of_legal (ht ▸ hl), load_store_same hs hn hl]
    · by_cases hl' : LegalAccess s.params sp' p'.toNat ix'.toNat
      · have hne' : (sp', p'.toNat, ix'.toNat) ≠ (sp, p.toNat, ix.toNat) := by
          simpa only [ne_eq, Prod.mk.injEq, BitVec.toNat_inj] using hne
        rw [hostRead_of_legal (ht ▸ hl'), hostRead_of_legal hl', load_store_other hs hn hl hl' hne']
      · rw [← ofBits_number sp'] at hl'
        rw [hostRead_of_illegal (ht ▸ hl'), hostRead_of_illegal hl']
  · intro i x
    have hx := hs.slot p.toNat
    have hreach : ∀ (sp : Space) (q : BitVec 8), sp ≠ .reg → LegalAccess s.params sp q.toNat i →
        hostRead sp.number q ix s = s.load sp q.toNat i ∧
        hostWrite sp.number q ix d s = .next (s.store sp q.toNat i d) :=
      fun sp q hsp hl => ⟨hostRead_of_legal hl, hostWrite_of_legal hsp hl d⟩
    refine ⟨fun hi => ?_, fun hi => ?_, fun hp hi => ?_, fun hp hi => ?_, fun hp hi => ?_⟩
    · obtain ⟨hr, hw⟩ := hreach .buf 0 (by decide) ⟨Nat.one_pos, hi⟩
      exact ⟨hr, _, hw, setsElement_write hs.buf_wf i _⟩
    · obtain ⟨hr, hw⟩ := hreach .blob 0 (by decide) ⟨Nat.one_pos, hi⟩
      exact ⟨hr, _, hw, setsElement_write hs.blob_wf i _⟩
    · obtain ⟨hr, hw⟩ := hreach .bits p (by decide) ⟨hp, hi⟩
      exact ⟨hr, _, hw, setsElement_write hx.bits_wf i _⟩
    · obtain ⟨hr, hw⟩ := hreach .xi p (by decide) ⟨hp, hi⟩
      exact ⟨hr, _, hw, setsElement_write hx.xi_wf i _⟩
    · obtain ⟨hr, hw⟩ := hreach .xv p (by decide) ⟨hp, hi⟩
      exact ⟨hr, _, hw, setsElement_write hx.xv_wf i _⟩

/-- Settles O18: the elements are loaded one after another, each staying as written while the next are, and the count
written last is in its range. -/
theorem scriptLinesLoadTheirOperands : Obligations.ScriptLinesLoadTheirOperands := by
  refine ⟨fun s b hs hb hport => ?_, fun s p hs hp => ⟨fun e he hport => ?_, fun v hv hport => ?_,
    fun v hv hport => ?_⟩⟩
  · have hcap := hs.params_legal.2.1
    have hlen : (trunc32 b.length).toNat = b.length := trunc32_toNat (by omega)
    obtain ⟨u, hrun, -, hparams, hin⟩ := run_loadLine (sp := .blob) (p := 0) rfl hs Nat.one_pos hb hport
    refine ⟨_, hrun.trans (takeEvent_writeReg u (by decide) _), ?_⟩
    rw [State.writeReg, if_pos (by rw [hlen, hparams]; exact hb), State.blobSeq, hlen]
    exact readSeq_of_loads (by decide) hin
  · obtain ⟨u, t, c, hrun, hc, hslot, hin⟩ := run_slotLine (sp := .bits) rfl hs hp rfl he hport
    refine ⟨t, hrun, ?_⟩
    rw [hslot, Slot.writeCount, if_pos (by rw [hc]; exact he), Slot.bitSeq, hc]
    exact readSeq_of_loads (by decide) hin
  · obtain ⟨u, t, c, hrun, hc, hslot, hin⟩ := run_slotLine (sp := .xi) rfl hs hp rfl hv hport
    refine ⟨t, hrun, ?_⟩
    rw [hslot, Slot.writeCount, if_pos (by rw [hc]; exact hv), Slot.xiSeq, hc]
    exact readSeq_of_loads le_rfl fun k hk => (BitVec.setWidth_eq _).trans (hin k hk)
  · obtain ⟨u, t, c, hrun, hc, hslot, hin⟩ := run_slotLine (sp := .xv) rfl hs hp rfl hv hport
    refine ⟨t, hrun, ?_⟩
    rw [hslot, Slot.writeCount, if_pos (by rw [hc]; exact hv), Slot.xvSeq, hc]
    exact readSeq_of_loads le_rfl fun k hk => (BitVec.setWidth_eq _).trans (hin k hk)

/-- Settles O31: the fields stand one after another, and each shows its content. -/
theorem wireRecordHasTheLayoutOfTheTable : Obligations.WireRecordHasTheLayoutOfTheTable := by
  intro c x m a hc hx
  exact ⟨x.touchPoint.wire_length.trans x.touchPoint_size, recordLayout_of_holds hc hx⟩

/-- Settles O7: each word written out is the encoding of its command. -/
theorem writtenCommandWordsDecode : Obligations.WrittenCommandWordsDecode :=
  ⟨decode_encode .nop, decode_encode .wint, decode_encode .rblb, decode_encode (.pack 1), decode_encode (.unpk 2),
    decode_encode (.wpnt 1), decode_encode (.rpnt 2), decode_encode .wpkt, decode_encode .rpkt, decode_encode .ckrl,
    decode_encode .scal, decode_encode .clre⟩

end Sys2Proof.Proofs
end

section
/-!
SUPPORT. The field commands at the cursor (rules R80 to R83 of `40_field_codec.md`): how OFS advances, how a failure at
OFS is recorded, and the outcomes of a command that writes one field.
-/

namespace Sys2Proof.Machine

open Sys2Proof.Stated

/-! ### Offsets and lengths as 32-bit patterns (rule R58) -/

theorem trunc32_add (m n : Nat) : trunc32 (m + n) = trunc32 m + trunc32 n := BitVec.ofNat_add m n

/-- The cursor after an Int Field. -/
theorem trunc32_toNat_add_four (v : Word) : trunc32 (v.toNat + 4) = v + 4 := by
  rw [trunc32_add, trunc32_of_toNat]
  rfl

/-- The cursor after a Byte Blob Field with a payload of `n` bytes. -/
theorem trunc32_toNat_add_blob (v : Word) (n : Nat) : trunc32 (v.toNat + 4 + n) = v + 4 + trunc32 n := by
  rw [trunc32_add, trunc32_toNat_add_four]

/-- A length that is not negative as a signed number is its own pattern. -/
theorem trunc32_toInt_toNat {v : Word} (h : 0 ≤ v.toInt) : trunc32 v.toInt.toNat = v := by
  rw [trunc32, ← BitVec.ofInt_natCast, Int.toNat_of_nonneg h, BitVec.ofInt_toInt]

/-! ### A failure of a field command (rules R131, R133) -/

/-- A field command reports its failures at OFS and for no slot. -/
theorem State.raise_at_cursor (s : State) (f : Failure) :
    s.raise f s.ofs.toNat 0 = { s with ecode := f.code, eofs := s.ofs, eidx := 0 } := by
  rw [State.raise, trunc32_of_toNat]
  rfl

/-! ### Commands that write one field (rules R44, R46) -/

section OneField

variable {s : State} {i : Instr} {o p : Nat} {f : WireField} (h : Writes s i o [(p, f)])
include h

/-- The whole field fits. -/
theorem Writes.exec_of_fits (hw : s.buf.wf) (hle : o + f.size ≤ s.lim.toNat) :
    ∃ b, exec i s = .next ((s.withBuf b).withOfs (o + f.size)) ∧ Holds b o f.bytes ∧
      SameOutside s.buf b o (o + f.size) := by
  have h4 := f.four_le_size
  rcases writeField_cases s.lim.toNat s.buf hw o f with ⟨-, b, -, e, hin, hout⟩ | ⟨-, hlt, -⟩ | ⟨hlt, -⟩
  · refine ⟨b, ?_, hin, hout⟩
    rw [h.exec_eq, writeFields_singleton, e]
    rfl
  · omega
  · omega

/-- Only the first four bytes of the field fit: they are written, and the failure is recorded. -/
theorem Writes.exec_of_head_fits (hw : s.buf.wf) (hle : o + 4 ≤ s.lim.toNat) (hlt : s.lim.toNat < o + f.size) :
    ∃ b, exec i s = .next ((s.withBuf b).raise .outOfBounds o p) ∧ Holds b o (f.bytes.take 4) ∧
      SameOutside s.buf b o (o + 4) := by
  rcases writeField_cases s.lim.toNat s.buf hw o f with ⟨hfit, -⟩ | ⟨-, -, b, -, e, hin, hout⟩ | ⟨hnot, -⟩
  · omega
  · refine ⟨b, ?_, fun k hk => ?_, hout⟩
    · rw [h.exec_eq, writeFields_singleton, e]
      rfl
    · rw [List.length_take, lt_min_iff] at hk
      rw [hin k hk.1, List.getElem_take, List.getD_eq_getElem _ _ hk.2]
  · omega

/-- Not even the first four bytes of the field fit: nothing is written. -/
theorem Writes.exec_of_not_fits (hw : s.buf.wf) (hlt : s.lim.toNat < o + 4) :
    exec i s = .next (s.raise .outOfBounds o p) := by
  have h4 := f.four_le_size
  rcases writeField_cases s.lim.toNat s.buf hw o f with ⟨hfit, -⟩ | ⟨hfit, -⟩ | ⟨-, e⟩
  · omega
  · omega
  · rw [h.exec_eq, writeFields_singleton, e]
    rfl

end OneField

/-- The bytes of an Int Field that stands in a memory (rule R42). -/
theorem read_of_holds_le32 {m : Memory 8} {o : Nat} {v : Word} (h : Holds m o (le32 v)) {k : Nat} (hk : k < 4) :
    Memory.read m (o + k) = v.extractLsb' (8 * k) 8 := (h k hk).trans (le32_getElem v k hk)

/-! ### The blob operand (rule R19) -/

@[simp] theorem State.blobSeq_length (s : State) : s.blobSeq.length = s.blen.toNat := Memory.readSeq_length _ _ _

theorem State.blobSeq_bytes (s : State) : (WireField.blob s.blobSeq).bytes = le32 s.blen ++ s.blobSeq := by
  rw [WireField.bytes, State.blobSeq_length, trunc32_of_toNat]

theorem State.blobSeq_size (s : State) : (WireField.blob s.blobSeq).size = 4 + s.blen.toNat := by
  rw [WireField.size, State.blobSeq_length]

/-- The elements of BLOB below BLEN, where they stand in a memory. -/
theorem read_of_holds_blobSeq {s : State} {m : Memory 8} {o : Nat} (h : Holds m o s.blobSeq) {i : Nat}
    (hi : i < s.blen.toNat) : Memory.read m (o + i) = Memory.read s.blob i := by
  rw [h i (by rwa [State.blobSeq_length])]
  exact (Memory.readSeq_getElem _ _ _ _ _).trans (by rw [Nat.zero_add])

/-! ### Reading a field at the cursor (rules R45, R47) -/

theorem fieldReadInt_eq_wordAt {lim : Nat} (m : Memory 8) {o : Nat} (hle : o + 4 ≤ lim) :
    fieldReadInt lim m o = .ok (o + 4, wordAt m o) := by
  rw [fieldReadInt, if_pos hle, unle32_readSeq_eq_wordAt]

theorem fieldReadInt_of_lt {lim : Nat} (m : Memory 8) {o : Nat} (hlt : lim < o + 4) :
    fieldReadInt lim m o = .fail ⟨.outOfBounds, o⟩ := if_neg (Nat.not_le.mpr hlt)

/-- The length in front of a blob, as the statements name it. -/
theorem sext32_readSeq_eq_intAt (m : Memory 8) (o : Nat) : sext32 (unle32 (m.readSeq o 4)) = intAt m o :=
  congrArg sext32 (unle32_readSeq_eq_wordAt m o)

section ReadBlob

variable {lim : Nat} {m : Memory 8} {o : Nat}

/-- The length field, and the payload of the length it gives, fit below LIM. -/
theorem fieldReadBytes_of_fits (h0 : 0 ≤ intAt m o) (hfit : o + 4 + (intAt m o).toNat ≤ lim) :
    fieldReadBytes lim m o = .ok (o + 4 + (intAt m o).toNat, m.readSeq (o + 4) (intAt m o).toNat) := by
  have hc := fieldReadBytes_cases lim m o
  rw [sext32_readSeq_eq_intAt] at hc
  rcases hc with ⟨hlt, -⟩ | ⟨-, hneg, -⟩ | ⟨-, -, hlt, -⟩ | ⟨-, -, -, e⟩
  · omega
  · omega
  · omega
  · exact e

theorem fieldReadBytes_of_negative (hle : o + 4 ≤ lim) (hneg : intAt m o < 0) :
    fieldReadBytes lim m o = .fail ⟨.malformedPacket, o⟩ := by
  have hc := fieldReadBytes_cases lim m o
  rw [sext32_readSeq_eq_intAt] at hc
  rcases hc with ⟨hlt, -⟩ | ⟨-, -, e⟩ | ⟨-, h0, -⟩ | ⟨-, h0, -⟩
  · omega
  · exact e
  · omega
  · omega

/-- The length field runs past LIM, or it does not and the payload does. -/
theorem fieldReadBytes_of_lt (h : lim < o + 4 ∨ (0 ≤ intAt m o ∧ lim < o + 4 + (intAt m o).toNat)) :
    fieldReadBytes lim m o = .fail ⟨.outOfBounds, o⟩ := by
  have hc := fieldReadBytes_cases lim m o
  rw [sext32_readSeq_eq_intAt] at hc
  rcases hc with ⟨-, e⟩ | ⟨hle, hneg, -⟩ | ⟨-, -, -, e⟩ | ⟨hle, -, hfit, -⟩
  · exact e
  · omega
  · exact e
  · omega

end ReadBlob

end Sys2Proof.Machine
end

section
/-!
PROOFS. The obligations of `40_field_codec.md`.
-/

namespace Sys2Proof.Proofs

open Sys2Proof Sys2Proof.Machine Sys2Proof.Stated

/-- Settles O21: WINT writes one field of four bytes, which fits as a whole or not at all. -/
theorem wintWritesValAtTheCursor : Obligations.WintWritesValAtTheCursor := by
  refine ⟨rfl, fun s hs => ⟨fun hle => ?_, fun hlt => ?_⟩⟩
  · obtain ⟨b, he, hin, hout⟩ := (Writes.wint (s := s)).exec_of_fits hs.buf_wf hle
    exact ⟨_, he, congrArg (fun o => { s.withBuf b with ofs := o }) (trunc32_toNat_add_four s.ofs),
      fun _ hk => read_of_holds_le32 hin hk, hout⟩
  · exact (Writes.wint.exec_of_not_fits hs.buf_wf hlt).trans (congrArg _ (s.raise_at_cursor .outOfBounds))

/-- Settles O22: RINT reads a field of four bytes, which fits as a whole or not at all. -/
theorem rintReadsValAtTheCursor : Obligations.RintReadsValAtTheCursor := by
  refine ⟨rfl, fun s => ⟨fun hle => ?_, fun hlt => ?_⟩⟩
  · rw [(Runs.rint (fieldReadInt_eq_wordAt s.buf hle)).exec_eq, State.withOfs, trunc32_toNat_add_four]
    rfl
  · exact (Rejects.rint (fieldReadInt_of_lt s.buf hlt)).exec_eq.trans (congrArg _ (s.raise_at_cursor .outOfBounds))

/-- Settles O23: WBLB writes one field, BLEN and then the payload; where the payload does not fit, the four bytes that
stay written are those of BLEN. -/
theorem wblbWritesTheBlobAtTheCursor : Obligations.WblbWritesTheBlobAtTheCursor := by
  refine ⟨rfl, fun s hs => ?_⟩
  have hend : s.ofs.toNat + (WireField.blob s.blobSeq).size = s.ofs.toNat + 4 + s.blen.toNat := by
    rw [s.blobSeq_size, Nat.add_assoc]
  refine ⟨fun hle => ?_, fun hle hlt => ?_, fun hlt => ?_⟩
  · obtain ⟨b, he, hin, hout⟩ := (Writes.wblb (s := s)).exec_of_fits hs.buf_wf (hend.trans_le hle)
    rw [s.blobSeq_bytes, holds_append] at hin
    rw [hend] at he hout
    refine ⟨_, he, ?_, fun _ hk => read_of_holds_le32 hin.1 hk, fun _ hi => read_of_holds_blobSeq hin.2 hi, hout⟩
    rw [State.withOfs, trunc32_toNat_add_blob, trunc32_of_toNat]
    rfl
  · obtain ⟨b, he, hin, hout⟩ := (Writes.wblb (s := s)).exec_of_head_fits hs.buf_wf hle (hlt.trans_eq hend.symm)
    rw [s.blobSeq_bytes, List.take_left' (le32_length _)] at hin
    exact ⟨_, he, (s.withBuf b).raise_at_cursor .outOfBounds, fun _ hk => read_of_holds_le32 hin hk, hout⟩
  · exact (Writes.wblb.exec_of_not_fits hs.buf_wf hlt).trans (congrArg _ (s.raise_at_cursor .outOfBounds))

/-- Settles O24: RBLB stores the payload in BLOB from index 0 and its length in BLEN, and the first of the three tests
that fails names the failure. -/
theorem rblbReadsTheBlobAtTheCursor : Obligations.RblbReadsTheBlobAtTheCursor := by
  refine ⟨rfl, fun s hs => ?_⟩
  have hfail {f : Failure} (h : fieldReadBytes s.lim.toNat s.buf s.ofs.toNat = .fail ⟨f, s.ofs.toNat⟩) :
      exec .rblb s = .next { s with ecode := f.code, eofs := s.ofs, eidx := 0 } :=
    (Rejects.rblb h).exec_eq.trans (congrArg _ (s.raise_at_cursor f))
  refine ⟨fun _ h0 hfit => ?_, fun hlt => hfail (fieldReadBytes_of_lt (.inl hlt)),
    fun hle hneg => hfail (fieldReadBytes_of_negative hle hneg),
    fun _ h0 hlt => hfail (fieldReadBytes_of_lt (.inr ⟨h0, hlt⟩))⟩
  have hlen : trunc32 (intAt s.buf s.ofs.toNat).toNat = wordAt s.buf s.ofs.toNat := trunc32_toInt_toNat h0
  refine ⟨_, (Runs.rblb (fieldReadBytes_of_fits h0 hfit)).exec_eq, ?_, fun i hi => ?_, fun i hi => ?_⟩
  · rw [State.withOfs, State.withBlobSeq, Memory.readSeq_length, trunc32_toNat_add_blob, hlen]
  · have hin := Memory.read_writeSeq_in s.blob hs.blob_wf 0
      (s.buf.readSeq (s.ofs.toNat + 4) (intAt s.buf s.ofs.toNat).toNat) (by rwa [Memory.readSeq_length])
    rwa [Memory.readSeq_getElem, Nat.zero_add] at hin
  · exact Memory.read_writeSeq_out s.blob hs.blob_wf 0 _ (.inr (by rwa [Memory.readSeq_length, Nat.zero_add]))

end Sys2Proof.Proofs
end

section
/-!
SUPPORT. The bit packer (rules R90 to R93 of `41_bit_packer.md`): the bytes Pack gives, the outcomes of Unpack, the bits
of the blob operand, and how a command with a slot operand is encoded and reports its failures.
-/

namespace Sys2Proof.Machine

open Sys2Proof.Stated

/-! ### Pack and Unpack (rules R90, R91) -/

theorem packBits_getD {b : List Bit} {j : Nat} (hj : j < ceilDiv8 b.length) :
    (packBits b).getD j 0#8 = packByte b j := by
  rw [List.getD_eq_getElem _ _ (by rwa [packBits_length])]
  simp [packBits]

theorem unpackBits_of_out_of_range {b : List Byte} {t : Int} (h : t < 0 ∨ 8 * (b.length : Int) < t) :
    unpackBits b t = .fail .malformedPacket := by
  rcases unpackBits_cases b t with ⟨-, e⟩ | ⟨h0, hle, -⟩
  · exact e
  · omega

theorem unpackBits_of_in_range {b : List Byte} {t : Int} (h0 : 0 ≤ t) (hle : t ≤ 8 * (b.length : Int)) :
    unpackBits b t = .ok ((List.range t.toNat).map (unpackBit b)) := by
  rcases unpackBits_cases b t with ⟨hout, -⟩ | ⟨-, -, e⟩
  · omega
  · exact e

/-- The bits of the blob operand are those of BLOB below BLEN (rule R19). -/
theorem unpackBit_blobSeq {s : State} {i : Nat} (hi : i < 8 * s.blen.toNat) :
    unpackBit s.blobSeq i = packedBitAt s.blob 0 i := by
  rw [unpackBit, packedBitAt, State.blobSeq, Memory.readSeq_getD, if_pos (by omega)]

/-! ### Commands with a slot operand (rules R64, R66, R131) -/

/-- The opcode in bits 7:0 and the slot operand in bits 15:8. -/
theorem encode_of_slot {i : Instr} {a : BitVec 8} (hi : i.slot? = some a) :
    encode i = (opcode i).setWidth 32 ||| (a.setWidth 32 <<< 8) := by
  apply BitVec.eq_of_toNat_eq
  have hshift : (a.setWidth 32 <<< 8).toNat = 2 ^ 8 * a.toNat := by
    rw [BitVec.toNat_shiftLeft, BitVec.toNat_setWidth, Nat.shiftLeft_eq]
    omega
  rw [encode_toNat, hi, Option.getD_some, BitVec.toNat_or, hshift, BitVec.toNat_setWidth_of_le (by decide), Nat.or_comm,
    ← Nat.two_pow_add_eq_or_of_lt (opcode i).isLt]

/-- A command for slot `a` reports a failure that it finds without reading BUF. -/
theorem State.raise_at_slot (s : State) (f : Failure) (a : BitVec 8) :
    s.raise f 0 a.toNat = { s with ecode := f.code, eofs := 0, eidx := a.setWidth 32 } := by
  rw [State.raise, trunc32, trunc32, BitVec.ofNat_toNat]
  rfl

end Sys2Proof.Machine
end

section
/-!
PROOFS. The obligations of `41_bit_packer.md`.
-/

namespace Sys2Proof.Proofs

open Sys2Proof Sys2Proof.Machine Sys2Proof.Stated

/-- Settles O26: a byte of the result is a byte of rule R90, and the sequence reads as 0 beyond its end. -/
theorem packPutsTheFirstElementInTheTopBit : Obligations.PackPutsTheFirstElementInTheTopBit := by
  refine fun bits => ⟨packBits_length bits, fun j hj i hi => ?_⟩
  have hbit : ((packBits bits).getD j 0#8).extractLsb' (7 - i) 1 = bits.getD (8 * j + i) 0#1 := by
    rw [packBits_getD hj, packByte_bit bits j i hi]
  refine hbit.trans ?_
  split
  · rfl
  · next hend => exact List.getD_eq_default _ _ (Nat.le_of_not_lt hend)

/-- Settles O27: the two ranges of the length are the two outcomes of Unpack. -/
theorem unpackGivesExactlyTheStatedNumberOfBits : Obligations.UnpackGivesExactlyTheStatedNumberOfBits := by
  refine fun bytes t => ⟨unpackBits_of_out_of_range, fun h0 hle => ?_⟩
  refine ⟨_, unpackBits_of_in_range h0 hle, by simp, fun i hi => ?_⟩
  exact (List.getD_eq_getElem _ _ (by simpa using hi)).trans (by simp [unpackBit])

/-- Settles O28: the sequence is packed into enough bytes, and each element is read from the bit it was stored in. -/
theorem unpackInvertsPack : Obligations.UnpackInvertsPack := unpackBits_packBits

/-- Settles O29: the packed bytes stand in BLOB from index 0 on, and show the elements of the slot's sequence. -/
theorem packCommandPacksTheSlot : Obligations.PackCommandPacksTheSlot := by
  refine ⟨fun p => encode_of_slot rfl, fun s p hs => ⟨fun hp => ?_, exec_noSlot rfl⟩⟩
  have hlen : (packBits (s.slot p.toNat).bitSeq).length = ((s.slot p.toNat).nbits.toNat + 7) / 8 := by
    rw [packBits_length, Slot.bitSeq_length, ceilDiv8]
  refine ⟨_, (Runs.pack hp).exec_eq, ?_, fun i hi => ?_, fun i hi => ?_⟩
  · rw [State.withBlobSeq, hlen]
    rfl
  · have hin : Holds (s.blob.writeSeq 0 (packBits (s.slot p.toNat).bitSeq)) 0 (packBits (s.slot p.toNat).bitSeq) :=
      fun _ hk => Memory.read_writeSeq_in s.blob hs.blob_wf 0 _ hk
    rw [State.withBlobSeq_blob, packedBitAt_of_holds hin (by rwa [Slot.bitSeq_length]), Slot.bitSeq,
      Memory.readSeq_getD, Nat.zero_add]
    rfl
  · exact Memory.read_writeSeq_out s.blob hs.blob_wf 0 _ (.inr (by rwa [hlen, Nat.zero_add]))

/-- Settles O30: Unpack's outcomes on the blob operand, the slot written with the elements of a success. -/
theorem unpackCommandFillsTheSlot : Obligations.UnpackCommandFillsTheSlot := by
  refine ⟨fun p => encode_of_slot rfl, fun s p hs => ⟨fun hp h0 hle => ?_, fun hp hout => ?_, exec_noSlot rfl⟩⟩
  · have hok := unpackBits_of_in_range (b := s.blobSeq) h0 (by rwa [State.blobSeq_length])
    have hwf := (hs.slot p.toNat).bits_wf
    refine ⟨_, (Runs.unpk hp hok).exec_eq, ?_, fun i hi => ?_, fun i hi => ?_⟩
    · rw [Slot.withBitSeq, List.length_map, List.length_range, trunc32_toInt_toNat h0]
    · have hin := Memory.read_writeSeq_in _ hwf 0 ((List.range s.val.toInt.toNat).map (unpackBit s.blobSeq)) (k := i)
        (by simpa using hi)
      rw [Nat.zero_add, List.getElem_map, List.getElem_range, unpackBit_blobSeq (by omega)] at hin
      exact hin
    · exact Memory.read_writeSeq_out _ hwf 0 _ (.inr (by simpa using hi))
  · have hfail := unpackBits_of_out_of_range (b := s.blobSeq) (by rwa [State.blobSeq_length])
    exact (Rejects.unpk hp hfail).exec_eq.trans (congrArg _ (s.raise_at_slot .malformedPacket p))

end Sys2Proof.Proofs
end

section
/-!
SUPPORT. The point record commands at the cursor (rules R100 to R104 of `42_point_record.md`): where the writing of a
sequence of fields stops, the outcomes of WPNT, the tests of ReadPoint as the statements name them, and what committing
a record leaves in a slot.
-/

namespace Sys2Proof.Machine

open Sys2Proof.Stated

/-! ### Writing a sequence of fields (rules R46, R51, R100) -/

/-- Nothing stops the writing exactly where the whole sequence fits. -/
theorem writeStop_eq_none_iff {lim o : Nat} {fs : List (Nat × WireField)} (h : fs = [] → o ≤ lim) :
    writeStop lim o fs = none ↔ o + (fieldsBytes fs).length ≤ lim := by
  induction fs generalizing o with
  | nil => simpa [writeStop] using h rfl
  | cons f fs ih =>
    obtain ⟨p, f⟩ := f
    have h4 := f.four_le_size
    have hlen : (fieldsBytes ((p, f) :: fs)).length = f.size + (fieldsBytes fs).length := by simp
    rw [writeStop, hlen]
    split_ifs with h1 h2
    · simp only [false_iff]
      omega
    · simp only [false_iff]
      omega
    · rw [ih fun _ => by omega, Nat.add_assoc]

/-- Where a field stops the writing, it is reported, and the bytes up to the stop are those of the sequence. -/
theorem writeFields_of_writeStop {lim o : Nat} {m : Memory 8} (hm : m.wf) {fs : List (Nat × WireField)} {q e w : Nat}
    (h : writeStop lim o fs = some (q, e, w)) :
    o ≤ w ∧ ∃ b, writeFields lim m o fs = (b, .fail ⟨.outOfBounds, e, q⟩) ∧
      (∀ k, o + k < w → Memory.read b (o + k) = (fieldsBytes fs).getD k 0#8) ∧ SameOutside m b o w := by
  induction fs generalizing m o with
  | nil => cases h
  | cons f fs ih =>
    obtain ⟨p, f⟩ := f
    have h4 := f.four_le_size
    have hlen := f.bytes_length
    have hbytes : fieldsBytes ((p, f) :: fs) = f.bytes ++ fieldsBytes fs := fieldsBytes_cons _ _
    rw [writeStop] at h
    rw [hbytes]
    rcases writeField_cases lim m hm o f with ⟨hfit, b, hb, hwr, hin, hout⟩ | ⟨hhead, hlt, b, hb, hwr, hin, hout⟩ |
      ⟨hlt, hwr⟩ <;> rw [writeFields, hwr]
    · rw [if_neg (by omega), if_neg (by omega)] at h
      obtain ⟨hle, b', hwr', hin', hout'⟩ := ih hb h
      refine ⟨by omega, b', hwr', fun k hk => ?_, fun a ha => ?_⟩
      · by_cases hlt : k < f.bytes.length
        · rw [List.getD_append _ _ _ _ hlt, List.getD_eq_getElem _ _ hlt, ← hin k hlt]
          exact hout' _ (.inl (by omega))
        · obtain ⟨d, rfl⟩ : ∃ d, k = f.size + d := ⟨k - f.size, by omega⟩
          rw [List.getD_append_right _ _ _ _ (by omega), hlen, Nat.add_sub_cancel_left, ← Nat.add_assoc]
          exact hin' d (by omega)
      · rw [hout' a (by omega), hout a (by omega)]
    · rw [if_neg (by omega), if_pos hlt] at h
      cases h
      refine ⟨by omega, b, rfl, fun k hk => ?_, hout⟩
      rw [hin k (by omega), List.getD_append _ _ _ _ (by omega)]
    · rw [if_pos hlt] at h
      cases h
      exact ⟨le_rfl, m, rfl, fun k hk => by omega, fun _ _ => rfl⟩

/-- A command whose fields all fit writes them and moves the cursor past them. -/
theorem Writes.exec_of_all_fit {s : State} {i : Instr} {o : Nat} {fs : List (Nat × WireField)} (h : Writes s i o fs)
    (hw : s.buf.wf) (hle : o + (fieldsBytes fs).length ≤ s.lim.toNat) :
    ∃ b, exec i s = .next ((s.withBuf b).withOfs (o + (fieldsBytes fs).length)) ∧ Holds b o (fieldsBytes fs) ∧
      SameOutside s.buf b o (o + (fieldsBytes fs).length) := by
  obtain ⟨b, -, hwr, hin, hout⟩ := writeFields_fits s.lim.toNat s.buf hw o fs hle
  exact ⟨b, by rw [h.exec_eq, hwr]; rfl, hin, hout⟩

/-- A command one of whose fields does not fit leaves what was written before it, and reports that field. -/
theorem Writes.exec_of_writeStop {s : State} {i : Instr} {o : Nat} {fs : List (Nat × WireField)} (h : Writes s i o fs)
    (hw : s.buf.wf) {q e w : Nat} (hstop : writeStop s.lim.toNat o fs = some (q, e, w)) :
    (∃ f, (q, f) ∈ fs) ∧ ∃ b, exec i s = .next ((s.withBuf b).raise .outOfBounds e q) ∧
      (∀ k, o + k < w → Memory.read b (o + k) = (fieldsBytes fs).getD k 0#8) ∧ SameOutside s.buf b o w := by
  obtain ⟨-, b, hwr, hin, hout⟩ := writeFields_of_writeStop hw hstop
  exact ⟨(writeFields_fail hwr).2, b, by rw [h.exec_eq, hwr]; rfl, hin, hout⟩

/-! ### WPNT (rule R102) -/

theorem Slot.touchPoint_wire_length (x : Slot) : x.touchPoint.wire.length = recordSize x :=
  x.touchPoint.wire_length.trans x.touchPoint_size

/-- The bytes of the fields WPNT writes are those of the slot's record. -/
theorem fieldsBytes_touchPoint (x : Slot) (p : Nat) :
    fieldsBytes (x.touchPoint.fields.map fun f => (p, f)) = x.touchPoint.wire := by
  rw [fieldsBytes, List.flatMap_map, TouchPoint.wire]

/-- The record of a slot with equal extremum counts, where it fits. -/
theorem exec_wpnt_of_fits {s : State} {p : BitVec 8} (hp : p.toNat < s.params.maxPts)
    (heq : (s.slot p.toNat).nxi = (s.slot p.toNat).nxv) (hw : s.buf.wf)
    (hle : s.ofs.toNat + recordSize (s.slot p.toNat) ≤ s.lim.toNat) :
    ∃ b, exec (.wpnt p) s = .next ((s.withBuf b).withOfs (s.ofs.toNat + recordSize (s.slot p.toNat))) ∧
      Holds b s.ofs.toNat (s.slot p.toNat).touchPoint.wire ∧
      SameOutside s.buf b s.ofs.toNat (s.ofs.toNat + recordSize (s.slot p.toNat)) := by
  have h := (Writes.wpnt hp heq).exec_of_all_fit hw
  rw [fieldsBytes_touchPoint, Slot.touchPoint_wire_length] at h
  exact h hle

/-- A WPNT that records no failure had equal extremum counts and a record that fits. -/
theorem Runs.wpnt_fits {s t : State} {p : BitVec 8} (h : Runs s (.wpnt p) t) (hw : s.buf.wf) (ht : t.ecode = 0) :
    (s.slot p.toNat).nxi = (s.slot p.toNat).nxv ∧
    s.ofs.toNat + recordSize (s.slot p.toNat) ≤ s.lim.toNat := by
  cases h with
  | rejected => exact absurd ht (Failure.code_ne_zero _)
  | stopped => exact absurd ht (Failure.code_ne_zero _)
  | wrote h hwr =>
    have hne := h.ne_nil
    cases h with
    | wpnt _ heq =>
      obtain ⟨hend, hle⟩ := writeFields_ok _ _ hw _ _ _ _ hwr
      rw [fieldsBytes_touchPoint, Slot.touchPoint_wire_length] at hend
      exact ⟨heq, hend ▸ hle hne⟩

/-! ### ReadPoint (rules R101, R134) -/

theorem blobLength_eq_intAt : blobLength = intAt := by
  funext m o
  exact sext32_readSeq_eq_intAt m o

theorem afterBlob_eq_blobEnd : afterBlob = blobEnd := by
  funext m o
  rw [afterBlob, blobLength_eq_intAt, blobEnd]

theorem not_blobReads_iff {lim : Nat} {m : Memory 8} {o : Nat} : ¬ BlobReads lim m o ↔ BlobFault lim m o := by
  rw [BlobReads, blobLength_eq_intAt, not_and_or, not_and_or, not_le, not_le, not_le]

/-- One test of ReadPoint, with the tests after it. -/
theorem ite_fail_eq_elim {c d : Prop} [Decidable c] [Decidable d] {e : Nat} {r x : Result FieldFail PointRecord}
    {k : Option Nat} (hcd : c ↔ d) (h : ¬ d → r = k.elim x fun e => .fail ⟨.malformedPacket, e⟩) :
    (if c then .fail ⟨.malformedPacket, e⟩ else r) =
      (if d then some e else k).elim x fun e => .fail ⟨.malformedPacket, e⟩ := by
  by_cases hd : d
  · rw [if_pos (hcd.mpr hd), if_pos hd, Option.elim_some]
  · rw [if_neg (mt hcd.mp hd), if_neg hd, h hd]

/-- ReadPoint fails at the field that `pointFault` names, and gives the record where it names none. -/
theorem readPoint_eq_pointFault (lim : Nat) (m : Memory 8) (a : Nat) :
    readPoint lim m a =
      (pointFault lim m a).elim (.ok (recordOf m a)) fun e => .fail ⟨.malformedPacket, e⟩ := by
  simp only [readPoint_eq, pointFault, not_blobReads_iff, blobLength_eq_intAt, afterBlob_eq_blobEnd, lengthField,
    xvField, xiField]
  refine ite_fail_eq_elim Iff.rfl fun h1 => ?_
  refine ite_fail_eq_elim Iff.rfl fun h2 => ?_
  refine ite_fail_eq_elim (by omega) fun _ => ?_
  refine ite_fail_eq_elim Iff.rfl fun h4 => ?_
  refine ite_fail_eq_elim (by omega) fun _ => ?_
  refine ite_fail_eq_elim (by omega) fun _ => ?_
  refine ite_fail_eq_elim Iff.rfl fun _ => ?_
  exact ite_fail_eq_elim (by omega) fun _ => rfl

/-- The record that is read, with the names of the statements. -/
theorem recordOf_eq (m : Memory 8) (a : Nat) :
    recordOf m a =
      let t := (intAt m (lengthField m a)).toNat
      let n := (intAt m (xiField m a)).toNat / 8
      { next := recordEnd m a
        bits := (List.range t).map (unpackBit (m.readSeq (a + 4) (intAt m a).toNat)), t := t
        xi := doublesOf (m.readSeq (xiField m a + 4) (intAt m (xiField m a)).toNat) n
        xv := doublesOf (m.readSeq (xvField m a + 4) (intAt m (xvField m a)).toNat) n, ni := n } := by
  rw [recordOf, blobLength_eq_intAt, afterBlob_eq_blobEnd]
  rfl

/-- What the tests of ReadPoint establish of a record that passes them all. -/
theorem pointFault_eq_none {lim : Nat} {m : Memory 8} {a : Nat} (h : pointFault lim m a = none) :
    recordEnd m a ≤ lim ∧ 0 ≤ intAt m (lengthField m a) ∧ intAt m (lengthField m a) ≤ 8 * intAt m a ∧
    0 ≤ intAt m (xiField m a) ∧ intAt m (xiField m a) % 8 = 0 ∧ intAt m (xvField m a) = intAt m (xiField m a) := by
  unfold pointFault at h
  split_ifs at h
  unfold recordEnd
  omega

/-! ### Committing a record (rule R104) -/

theorem unpackBit_readSeq {m : Memory 8} {o n i : Nat} (hi : i < 8 * n) :
    unpackBit (m.readSeq o n) i = packedBitAt m o i := by
  rw [unpackBit, packedBitAt, Memory.readSeq_getD, if_pos (by omega)]

theorem doubleAt_readSeq {m : Memory 8} {o n i : Nat} (hi : 8 * i + 8 ≤ n) :
    Machine.doubleAt (m.readSeq o n) i = Stated.doubleAt m (o + 8 * i) := by
  rw [Machine.doubleAt, ← unle64_readSeq_eq_doubleAt]
  refine congrArg unle64 (List.ext_getElem (by simp; omega) fun k _ _ => ?_)
  simp [Memory.readSeq_getElem, Nat.add_assoc]

theorem trunc32_intAt_toNat (m : Memory 8) (o : Nat) : (trunc32 (intAt m o).toNat).toNat = (intAt m o).toNat := by
  have hlt := BitVec.toInt_lt (x := wordAt m o)
  exact trunc32_toNat (by unfold intAt; omega)

/-- Writing `n` elements from index 0 on: they are read there, and the others are as before (rules R24, R104). -/
theorem read_writeSeq_range {w : Nat} {m : Memory w} (hm : m.wf) (n : Nat) (g : Nat → BitVec w) :
    (∀ i < n, Memory.read (m.writeSeq 0 ((List.range n).map g)) i = g i) ∧
    SameFrom m (m.writeSeq 0 ((List.range n).map g)) n := by
  refine ⟨fun i hi => ?_, fun i hi => Memory.read_writeSeq_out m hm 0 _ (.inr (by simpa using hi))⟩
  have hin := Memory.read_writeSeq_in m hm 0 ((List.range n).map g) (k := i) (by simpa using hi)
  simpa using hin

/-- A record that passes the tests is committed as the statements say. -/
theorem committed_recordOf {c : Params} {x : Slot} (hx : Slot.Inv c x) {lim : Nat} {m : Memory 8} {a : Nat}
    (h : pointFault lim m a = none) : Committed m a x (x.commit (recordOf m a)) := by
  obtain ⟨-, ht, hbits, hn, hmod, hxv⟩ := pointFault_eq_none h
  have htw := trunc32_intAt_toNat m (lengthField m a)
  have hiw := trunc32_intAt_toNat m (xiField m a)
  have hnw : (trunc32 ((intAt m (xiField m a)).toNat / 8)).toNat = (intAt m (xiField m a)).toNat / 8 :=
    trunc32_toNat (by omega)
  simp only [recordOf_eq, Slot.commit, Committed, doublesOf, hxv]
  rw [htw, hnw, show (intAt m (xiField m a) / 8).toNat = (intAt m (xiField m a)).toNat / 8 by omega]
  obtain ⟨hb, hbs⟩ := read_writeSeq_range hx.bits_wf (intAt m (lengthField m a)).toNat
    (unpackBit (m.readSeq (a + 4) (intAt m a).toNat))
  obtain ⟨hi, his⟩ := read_writeSeq_range hx.xi_wf ((intAt m (xiField m a)).toNat / 8)
    (Machine.doubleAt (m.readSeq (xiField m a + 4) (intAt m (xiField m a)).toNat))
  obtain ⟨hv, hvs⟩ := read_writeSeq_range hx.xv_wf ((intAt m (xiField m a)).toNat / 8)
    (Machine.doubleAt (m.readSeq (xvField m a + 4) (intAt m (xiField m a)).toNat))
  refine ⟨by omega, fun i _ => ?_, hbs, by omega, fun i _ => ?_, his, by omega, fun i _ => ?_, hvs⟩
  · rw [hb i (by omega), unpackBit_readSeq (by omega)]
  · rw [hi i (by omega), doubleAt_readSeq (by omega)]
  · rw [hv i (by omega), doubleAt_readSeq (by omega)]

/-- Two sequences of elements that are equal show the same count and the same elements. -/
theorem eq_of_readSeq_eq {w : Nat} {m m' : Memory w} {n n' : Word}
    (h : m'.readSeq 0 n'.toNat = m.readSeq 0 n.toNat) : n' = n ∧ ∀ i < n.toNat, m'.read i = m.read i := by
  have hn : n' = n := BitVec.eq_of_toNat_eq (by simpa using congrArg List.length h)
  subst hn
  refine ⟨rfl, fun i hi => ?_⟩
  have hget := congrArg (List.getD · i 0#w) h
  simpa only [Memory.readSeq_getD, hi, if_true, Nat.zero_add] using hget

/-- Slots with equal touch points show the same counts and elements. -/
theorem sameTouchPoint_of_touchPoint_eq {x y : Slot} (h : y.touchPoint = x.touchPoint) : SameTouchPoint x y := by
  obtain ⟨hbits, hxi, hxv⟩ := TouchPoint.mk.inj h
  obtain ⟨hn, hb⟩ := eq_of_readSeq_eq hbits
  obtain ⟨hni, hi⟩ := eq_of_readSeq_eq hxi
  obtain ⟨hnv, hv⟩ := eq_of_readSeq_eq hxv
  exact ⟨hn, hb, hni, hi, hnv, hv⟩

/-! ### Failures of a point record command (rule R131) -/

/-- A command for slot `a` reports a failure at offset `e`. -/
theorem State.raise_for_slot (s : State) (f : Failure) (e : Nat) (a : BitVec 8) :
    s.raise f e a.toNat = { s with ecode := f.code, eofs := BitVec.ofNat 32 e, eidx := a.setWidth 32 } := by
  rw [State.raise, trunc32, trunc32, BitVec.ofNat_toNat]

/-! ### RPNT (rule R103) -/

/-- Where the record of a slot stands at the cursor below LIM, RPNT commits it. -/
theorem exec_rpnt_of_holds {s : State} (hs : s.Inv) {q : BitVec 8} (hq : q.toNat < s.params.maxPts) {x : Slot}
    (heq : x.nxi = x.nxv) (hle : s.ofs.toNat + recordSize x ≤ s.lim.toNat)
    (h : Holds s.buf s.ofs.toNat x.touchPoint.wire) :
    ∃ y, exec (.rpnt q) s = .next ((s.setSlot q.toNat y).withOfs (s.ofs.toNat + recordSize x)) ∧
      SameTouchPoint x y := by
  have hmax := hs.lim_le.trans hs.params_legal.2.1
  have hcounts : x.touchPoint.xi.length = x.touchPoint.xv.length := by simp [Slot.touchPoint, heq]
  rw [← x.touchPoint_size] at hle ⊢
  exact ⟨_, (Runs.rpnt hq (readPoint_of_holds (by omega) hcounts hle h)).exec_eq,
    sameTouchPoint_of_touchPoint_eq ((hs.slot q.toNat).commit_touchPoint hcounts (by omega))⟩

end Sys2Proof.Machine
end

section
/-!
PROOFS. The obligations of `42_point_record.md`.
-/

namespace Sys2Proof.Proofs

open Sys2Proof Sys2Proof.Machine Sys2Proof.Stated

/-- Settles O34: the bytes of the record stand in the second block's buffer, where ReadPoint accepts them, and the
slot they are committed to shows the touch point they were written from. -/
theorem pointRecordRoundTrip : Obligations.PointRecordRoundTrip := by
  intro s t r p q hs hr _ hp hq hex ht hofs hlim hagree
  obtain ⟨heq, hle⟩ := (exec_eq_next_iff.mp hex).wpnt_fits hs.buf_wf ht
  obtain ⟨b, hb, hin, -⟩ := exec_wpnt_of_fits hp heq hs.buf_wf hle
  cases hex.symm.trans hb
  have hmax := hs.lim_le.trans hs.params_legal.2.1
  rw [State.withOfs_ofs, trunc32_toNat (by omega)] at hlim hagree
  have hstands : Holds r.buf r.ofs.toNat (s.slot p.toNat).touchPoint.wire := fun k hk => by
    have hk' := hk
    rw [Slot.touchPoint_wire_length] at hk'
    rw [hofs, hagree _ (by omega) (by omega)]
    exact hin k hk
  obtain ⟨y, hy, hsame⟩ := exec_rpnt_of_holds hr hq heq (by rwa [hofs]) hstands
  rw [hofs] at hy
  exact ⟨y, hy, hsame⟩

/-- Settles O32: the record is the four fields of the slot's touch point, written one after another until one does not
fit. -/
theorem wpntWritesTheRecordAtTheCursor : Obligations.WpntWritesTheRecordAtTheCursor := by
  refine ⟨fun p => encode_of_slot rfl, fun s p hs => ?_⟩
  refine ⟨fun hp heq hle => ?_, ?_, fun q e w hp heq hstop => ?_, fun hp hne => ?_, exec_noSlot rfl⟩
  · obtain ⟨b, hb, hin, hout⟩ := exec_wpnt_of_fits hp heq hs.buf_wf hle
    refine ⟨_, hb, ?_, recordLayout_of_holds hs.params_legal (hs.slot p.toNat) hin, hout⟩
    rw [State.withOfs, trunc32_add, trunc32_of_toNat]
    rfl
  · rw [writeStop_eq_none_iff (by simp [TouchPoint.fields]), fieldsBytes_touchPoint, Slot.touchPoint_wire_length]
  · obtain ⟨⟨f, hf⟩, b, hb, hin, hout⟩ := (Writes.wpnt hp heq).exec_of_writeStop hs.buf_wf hstop
    obtain ⟨g, -, hg⟩ := List.mem_map.mp hf
    cases hg
    rw [fieldsBytes_touchPoint] at hin
    exact ⟨_, hb, State.raise_for_slot _ _ e p, hin, hout⟩
  · exact (Rejects.wpnt hp hne).exec_eq.trans (congrArg _ (s.raise_at_slot .illegalCommand p))

/-- Settles O33: ReadPoint fails at the field `pointFault` names, and otherwise the record is committed. -/
theorem rpntReadsTheRecordAtTheCursor : Obligations.RpntReadsTheRecordAtTheCursor := by
  refine ⟨fun p => encode_of_slot rfl, fun s p hs => ?_⟩
  have hread := readPoint_eq_pointFault s.lim.toNat s.buf s.ofs.toNat
  refine ⟨fun hp hnone => ?_, fun e hp hfault => ?_, exec_noSlot rfl⟩
  · rw [hnone, Option.elim_none] at hread
    refine ⟨_, (Runs.rpnt hp hread).exec_eq.trans ?_, (pointFault_eq_none hnone).1,
      committed_recordOf (hs.slot p.toNat) hnone⟩
    rw [recordOf_eq]
    rfl
  · rw [hfault, Option.elim_some] at hread
    exact (Rejects.rpnt hp hread).exec_eq.trans (congrArg _ (s.raise_for_slot .malformedPacket e p))

end Sys2Proof.Proofs
end

section
/-!
SUPPORT. The packet commands (rules R110 to R114 of `43_packet_framer.md`): the bytes of the packet WPKT writes and
where its records stand, when WPKT writes at all, and what the loop of RPKT leaves, in the words of the statements.
-/

namespace Sys2Proof.Machine

open Sys2Proof.Stated

/-! ### The packet of a state (rules R60, R62) -/

theorem recordFields_eq_flatMap (slots : List Slot) (n p : Nat) :
    recordFields slots n p =
      (List.range' p n).flatMap fun q => (slotAt slots q).touchPoint.fields.map fun f => (q, f) := by
  induction n generalizing p with
  | zero => rfl
  | succ n ih => rw [recordFields, ih, List.range'_succ, List.flatMap_cons]

/-- The fields WPKT writes are those the statements list. -/
theorem packetFields_eq (s : State) :
    packetFields s = (0, .int s.role) :: recordFields s.slots s.npt.toNat 0 := by
  rw [recordFields_eq_flatMap, ← List.range_eq_range']
  rfl

theorem fieldsBytes_packetFields (s : State) : fieldsBytes (packetFields s) = packetWire s.role s.points := by
  have hrecords : ∀ ps : List Nat,
      fieldsBytes (ps.flatMap fun p => (s.slot p).touchPoint.fields.map fun f => (p, f)) =
        (ps.map fun p => (s.slot p).touchPoint).flatMap TouchPoint.wire := fun ps => by
    induction ps with
    | nil => rfl
    | cons p ps ih =>
      rw [List.flatMap_cons, List.map_cons, List.flatMap_cons, ← ih, ← fieldsBytes_touchPoint]
      exact List.flatMap_append
  rw [packetFields, fieldsBytes_cons, hrecords]
  rfl

/-- The records of a packet end where rule R62 says that the next one would start. -/
theorem packetOffset_eq (s : State) (n : Nat) :
    packetOffset s n = 4 + ((List.range n).flatMap fun p => (s.slot p).touchPoint.wire).length := by
  induction n with
  | zero => rfl
  | succ n ih =>
    rw [packetOffset, ih, List.range_succ, List.flatMap_append, List.length_append, List.flatMap_singleton,
      Slot.touchPoint_wire_length, Nat.add_assoc]

theorem packetWire_points (s : State) :
    packetWire s.role s.points =
      le32 s.role ++ (List.range s.npt.toNat).flatMap fun p => (s.slot p).touchPoint.wire := by
  rw [packetWire, State.points, List.flatMap_map]
  rfl

theorem packetWire_points_length (s : State) :
    (packetWire s.role s.points).length = packetOffset s s.npt.toNat := by
  rw [packetWire_points, List.length_append, le32_length, packetOffset_eq]

/-- Where records stand one after another from offset 4 on, each stands at its offset by rule R62. -/
theorem holds_record_of_holds_records {s : State} {m : Memory 8} {n : Nat}
    (h : Holds m 4 ((List.range n).flatMap fun p => (s.slot p).touchPoint.wire)) {p : Nat} (hp : p < n) :
    Holds m (packetOffset s p) (s.slot p).touchPoint.wire := by
  induction n with
  | zero => exact absurd hp (Nat.not_lt_zero p)
  | succ n ih =>
    rw [List.range_succ, List.flatMap_append, List.flatMap_singleton, holds_append, ← packetOffset_eq] at h
    rcases Nat.lt_succ_iff_lt_or_eq.mp hp with hlt | rfl
    · exact ih h.1 hlt
    · exact h.2

/-- Where a packet stands at offset 0, its role tag and its records have their layout. -/
theorem packetLayout_of_holds {s : State} (hs : s.Inv) {m : Memory 8} (h : Holds m 0 (packetWire s.role s.points)) :
    wordAt m 0 = s.role ∧ ∀ p < s.npt.toNat, RecordLayout m (packetOffset s p) (s.slot p) := by
  rw [packetWire_points, holds_append] at h
  exact ⟨wordAt_of_holds h.1, fun p hp =>
    recordLayout_of_holds hs.params_legal (hs.slot p) (holds_record_of_holds_records h.2 hp)⟩

/-! ### WPKT (rule R112) -/

theorem firstUnequal_eq_none_iff {slots : List Slot} {n : Nat} :
    firstUnequal slots n 0 = none ↔ ∀ p < n, (slotAt slots p).nxi = (slotAt slots p).nxv := by
  rcases firstUnequal_cases slots n 0 with ⟨e, h⟩ | ⟨q, e, -, hq, hne, -⟩
  · exact iff_of_true e fun p hp => h p (Nat.zero_le p) (by omega)
  · exact iff_of_false (by rw [e]; nofun) fun h => hne (h q (by omega))

/-- The slot that is refused is the lowest with unequal extremum counts. -/
theorem firstUnequal_eq_some {slots : List Slot} {n q : Nat} (hq : q < n)
    (hne : (slotAt slots q).nxi ≠ (slotAt slots q).nxv)
    (hbelow : ∀ p < q, (slotAt slots p).nxi = (slotAt slots p).nxv) : firstUnequal slots n 0 = some q := by
  rcases firstUnequal_cases slots n 0 with ⟨-, h⟩ | ⟨j, e, -, -, hj, hlow⟩
  · exact absurd (h q (Nat.zero_le q) (by omega)) hne
  · rcases Nat.lt_trichotomy j q with hlt | rfl | hlt
    · exact absurd (hbelow j hlt) hj
    · exact e
    · exact absurd (hlow q (Nat.zero_le q) hlt) hne

theorem writes_wpkt {s : State} (h : ∀ p < s.npt.toNat, (s.slot p).nxi = (s.slot p).nxv) :
    Writes s .wpkt 0 (packetFields s) :=
  packetFields_eq s ▸ .wpkt (firstUnequal_eq_none_iff.mpr h)

/-- The packet of slots with equal extremum counts, where it fits. -/
theorem exec_wpkt_of_fits {s : State} (heq : ∀ p < s.npt.toNat, (s.slot p).nxi = (s.slot p).nxv) (hw : s.buf.wf)
    (hle : packetOffset s s.npt.toNat ≤ s.lim.toNat) :
    ∃ b, exec .wpkt s = .next ((s.withBuf b).withOfs (packetOffset s s.npt.toNat)) ∧
      Holds b 0 (packetWire s.role s.points) ∧ SameOutside s.buf b 0 (packetOffset s s.npt.toNat) := by
  have h := (writes_wpkt heq).exec_of_all_fit hw
  rw [fieldsBytes_packetFields, packetWire_points_length, Nat.zero_add] at h
  exact h hle

/-- A WPKT that records no failure had equal extremum counts and a packet that fits. -/
theorem Runs.wpkt_fits {s t : State} (h : Runs s .wpkt t) (hw : s.buf.wf) (ht : t.ecode = 0) :
    (∀ p < s.npt.toNat, (s.slot p).nxi = (s.slot p).nxv) ∧ packetOffset s s.npt.toNat ≤ s.lim.toNat := by
  cases h with
  | rejected => exact absurd ht (Failure.code_ne_zero _)
  | stopped => exact absurd ht (Failure.code_ne_zero _)
  | wrote h hwr =>
    have hne := h.ne_nil
    cases h with
    | wpkt heq =>
      obtain ⟨hend, hle⟩ := writeFields_ok _ _ hw _ _ _ _ hwr
      rw [← packetFields_eq, fieldsBytes_packetFields, packetWire_points_length, Nat.zero_add] at hend
      exact ⟨firstUnequal_eq_none_iff.mp heq, hend ▸ hle hne⟩

/-! ### The loop of RPKT (rule R111) -/

theorem nthRecord_eq_recordStart (m : Memory 8) (p : Nat) : nthRecord m 4 p = recordStart m p := by
  induction p with
  | zero => rfl
  | succ p ih => rw [nthRecord, ih, recordOf_eq]; rfl

theorem pointFault_of_readPoint_ok {lim : Nat} {m : Memory 8} {a : Nat} {r : PointRecord}
    (h : readPoint lim m a = .ok r) : pointFault lim m a = none := by
  rw [readPoint_eq_pointFault] at h
  cases hf : pointFault lim m a with
  | none => rfl
  | some e => rw [hf] at h; cases h

theorem pointFault_of_readPoint_fail {lim : Nat} {m : Memory 8} {a : Nat} {e : FieldFail}
    (h : readPoint lim m a = .fail e) : e.failure = .malformedPacket ∧ pointFault lim m a = some e.eofs := by
  rw [readPoint_eq_pointFault] at h
  cases hf : pointFault lim m a with
  | none => rw [hf] at h; cases h
  | some e' => rw [hf] at h; cases h; exact ⟨rfl, rfl⟩

/-- The records of slots 0 to `n - 1` have been committed, and the other slots are as they were. -/
def CommitsBelow (m : Memory 8) (n : Nat) (slots l : List Slot) : Prop :=
  l.length = slots.length ∧ (∀ p < n, Committed m (recordStart m p) (slotAt slots p) (slotAt l p)) ∧
  ∀ p, n ≤ p → slotAt l p = slotAt slots p

section Loop

variable {c : Params} {lim : Nat} {m : Memory 8} {n : Nat} {slots : List Slot}
  (hslots : ∀ p, Slot.Inv c (slotAt slots p))
include hslots

/-- The slots as the loop leaves them, after the first `k` records have been accepted. -/
theorem commitsBelow_of_slotAt {k : Nat} {l : List Slot} (hlen : l.length = slots.length)
    (hnone : ∀ p < k, pointFault lim m (recordStart m p) = none)
    (hl : ∀ q, slotAt l q =
      if q < k then (slotAt slots q).commit (recordOf m (recordStart m q)) else slotAt slots q) :
    CommitsBelow m k slots l := by
  refine ⟨hlen, fun p hp => ?_, fun p hp => ?_⟩
  · rw [hl, if_pos hp]
    exact committed_recordOf (hslots p) (hnone p hp)
  · rw [hl, if_neg (Nat.not_lt.mpr hp)]

/-- All records are accepted. -/
theorem decodePoints_of_accepted (hn : n ≤ slots.length)
    (hnone : ∀ p < n, pointFault lim m (recordStart m p) = none) :
    ∃ l, decodePoints lim m n 0 4 slots = (l, .ok (recordStart m n)) ∧ CommitsBelow m n slots l := by
  obtain ⟨hlen, ⟨hok, -, hl⟩ | ⟨j, hj, e, -, hfail, -⟩⟩ := decodePoints_cases lim m n 0 4 slots (by omega)
  · rw [nthRecord_eq_recordStart] at hok
    exact ⟨_, Prod.ext rfl hok, commitsBelow_of_slotAt hslots hlen hnone (by simpa [nthRecord_eq_recordStart] using hl)⟩
  · rw [nthRecord_eq_recordStart] at hfail
    have hfault := (pointFault_of_readPoint_fail hfail).2
    rw [hnone j hj] at hfault
    cases hfault

/-- Record `q` is the first that is not accepted. -/
theorem decodePoints_of_fault (hn : n ≤ slots.length) {q e : Nat} (hq : q < n)
    (hnone : ∀ p < q, pointFault lim m (recordStart m p) = none)
    (hfault : pointFault lim m (recordStart m q) = some e) :
    ∃ l, decodePoints lim m n 0 4 slots = (l, .fail ⟨.malformedPacket, e, q⟩) ∧ CommitsBelow m q slots l := by
  have hnot : readPoint lim m (nthRecord m 4 q) ≠ .ok (recordOf m (nthRecord m 4 q)) := fun h => by
    have hok := pointFault_of_readPoint_ok h
    rw [nthRecord_eq_recordStart, hfault] at hok
    cases hok
  obtain ⟨hlen, ⟨-, hall, -⟩ | ⟨j, -, ⟨f, e'⟩, hres, hfail, hbefore, hl⟩⟩ :=
    decodePoints_cases lim m n 0 4 slots (by omega)
  · exact absurd (hall q hq) hnot
  · obtain ⟨rfl, hfault'⟩ := pointFault_of_readPoint_fail hfail
    rw [nthRecord_eq_recordStart] at hfault'
    rcases Nat.lt_trichotomy j q with hlt | rfl | hlt
    · rw [hnone j hlt] at hfault'
      cases hfault'
    · cases hfault.symm.trans hfault'
      rw [Nat.zero_add] at hres
      exact ⟨_, Prod.ext rfl hres,
        commitsBelow_of_slotAt hslots hlen hnone (by simpa [nthRecord_eq_recordStart] using hl)⟩
    · exact absurd (hbefore q hlt) hnot

end Loop

/-! ### RPKT (rule R113) -/

/-- Records that are all accepted end at or below LIM. -/
theorem recordStart_le {lim : Nat} {m : Memory 8} (h4 : 4 ≤ lim) {n : Nat}
    (hnone : ∀ p < n, pointFault lim m (recordStart m p) = none) : recordStart m n ≤ lim := by
  cases n with
  | zero => exact h4
  | succ n => exact (pointFault_eq_none (hnone n (Nat.lt_succ_self n))).1

section Rpkt

variable {s : State} (h4 : 4 ≤ s.lim.toNat) {l : List Slot} {res : Result Report Nat}
  (hd : decodePoints s.lim.toNat s.buf s.npt.toNat 0 4 s.slots = (l, res))
include h4 hd

theorem decodePacket_of_decodePoints :
    decodePacket s.lim.toNat s.buf s.npt.toNat s.strict s.role s.slots =
      ⟨wordAt s.buf 0, l, strictTest s.strict s.lim.toNat res⟩ := by
  rw [decodePacket, fieldReadInt_eq_wordAt s.buf (by omega)]
  dsimp only
  rw [hd]

/-- The loop of RPKT ends well, and so does the STRICT test. -/
theorem exec_rpkt_of_ok {o : Nat} (hs : strictTest s.strict s.lim.toNat res = .ok o) :
    exec .rpkt s = .next (((s.withRole (wordAt s.buf 0)).withSlots l).withOfs o) := by
  show execRpkt s = _
  rw [execRpkt, decodePacket_of_decodePoints h4 hd, hs]

/-- The loop of RPKT stops at a record, or the STRICT test finds bytes that were not consumed. -/
theorem exec_rpkt_of_fail {r : Report} (hs : strictTest s.strict s.lim.toNat res = .fail r) :
    exec .rpkt s = .next (((s.withRole (wordAt s.buf 0)).withSlots l).raiseReport r) := by
  show execRpkt s = _
  rw [execRpkt, decodePacket_of_decodePoints h4 hd, hs]

end Rpkt

theorem strictTest_of_ne {lim o : Nat} (hne : o ≠ lim) :
    strictTest true lim (.ok o) = .fail ⟨.malformedPacket, o, 0⟩ := if_pos ⟨rfl, hne⟩

/-! ### CKRL (rule R114) -/

theorem roleTag_ofWord_eq_none_iff {v : Word} : RoleTag.ofWord v = none ↔ v.toInt ≠ 0 ∧ v.toInt ≠ 1 := by
  unfold RoleTag.ofWord sext32
  split_ifs with h0 h1
  · simp [h0]
  · simp [h1]
  · simp [h0, h1]

end Sys2Proof.Machine
end

section
/-!
PROOFS. The obligations of `43_packet_framer.md`.
-/

namespace Sys2Proof.Proofs

open Sys2Proof Sys2Proof.Machine Sys2Proof.Stated

/-- Settles O37: the bytes of the packet stand in the peer's buffer, it accepts every packet of the grammar, and each
slot then shows the touch point its record was written from. -/
theorem packetRoundTrip : Obligations.PacketRoundTrip := by
  intro s t r hs hr _ hex ht hnpt hagree hlim hstrict
  obtain ⟨heq, hle⟩ := (exec_eq_next_iff.mp hex).wpkt_fits hs.buf_wf ht
  obtain ⟨b, hb, hin, -⟩ := exec_wpkt_of_fits heq hs.buf_wf hle
  cases hex.symm.trans hb
  have hsize : packetSize s.points = packetOffset s s.npt.toNat :=
    (packetWire_length s.role s.points).symm.trans (packetWire_points_length s)
  have hofs : (trunc32 (packetOffset s s.npt.toNat)).toNat = packetSize s.points := by
    rw [hsize]
    exact trunc32_toNat (hle.trans_lt s.lim.isLt)
  have hlen : s.points.length = s.npt.toNat := by simp [State.points]
  rw [State.withOfs_ofs, hofs] at hagree hlim
  have hcounts : ∀ p ∈ s.points, p.xi.length = p.xv.length := fun p hp => by
    obtain ⟨q, hq, rfl⟩ := List.mem_map.mp hp
    simp [Slot.touchPoint, heq q (List.mem_range.mp hq)]
  have hstands : Holds r.buf 0 (packetWire s.role s.points) := fun k hk => by
    rw [hagree _ (by rwa [Nat.zero_add, ← packetWire_length s.role])]
    exact hin k hk
  obtain ⟨-, u, hu, hueq, htp⟩ := rpktAcceptsEveryPacketOfTheGrammar r s.role s.points hr (by rw [hnpt, hlen])
    hcounts hlim (fun h => by rw [hstrict h, ← hofs]; rfl) hstands
  rw [hsize] at hueq
  refine ⟨u, hu, hueq, fun p hp => ?_, fun p hp => (exec_eq_next_iff.mp hu).rpkt_slot (by rwa [hnpt])⟩
  refine sameTouchPoint_of_touchPoint_eq ((htp p (by rwa [hlen])).trans ?_)
  simp [State.points]

/-- Settles O35: the packet is the role tag and the fields of the slots' touch points, written one after another until
one does not fit. -/
theorem wpktWritesThePacket : Obligations.WpktWritesThePacket := by
  refine ⟨rfl, fun s hs => ⟨fun heq hle => ?_, ?_, fun q e w heq hstop => ?_, fun q hq hne hbelow => ?_⟩⟩
  · obtain ⟨b, hb, hin, hout⟩ := exec_wpkt_of_fits heq hs.buf_wf hle
    obtain ⟨hrole, hrecords⟩ := packetLayout_of_holds hs hin
    exact ⟨_, hb, rfl, hrole, hrecords, hout⟩
  · rw [writeStop_eq_none_iff fun _ => Nat.zero_le _, fieldsBytes_packetFields, packetWire_points_length, Nat.zero_add]
  · obtain ⟨-, b, hb, hin, hout⟩ := (writes_wpkt heq).exec_of_writeStop hs.buf_wf hstop
    rw [fieldsBytes_packetFields] at hin
    exact ⟨_, hb, rfl, fun a ha => by simpa using hin a (by omega), hout⟩
  · exact (Rejects.wpkt (firstUnequal_eq_some hq hne hbelow)).exec_eq

/-- Settles O36: the loop accepts records until `pointFault` names a field, the STRICT test comes last, and what was
committed before a failure stays. -/
theorem rpktReadsThePacket : Obligations.RpktReadsThePacket := by
  refine ⟨rfl, fun s hs => ?_⟩
  have hn : s.npt.toNat ≤ s.slots.length := hs.slots_length ▸ hs.npt_le
  refine ⟨fun h4 hnone hstrict => ?_, fun h4 hnone hstrict hne => ?_, fun q e h4 hq hnone hfault => ?_, fun hlt => ?_⟩
  · obtain ⟨l, hd, hl⟩ := decodePoints_of_accepted hs.slot hn hnone
    exact ⟨_, exec_rpkt_of_ok h4 hd (strictTest_of_eq hstrict), rfl, recordStart_le h4 hnone, hl⟩
  · obtain ⟨l, hd, hl⟩ := decodePoints_of_accepted hs.slot hn hnone
    exact ⟨_, exec_rpkt_of_fail h4 hd (hstrict ▸ strictTest_of_ne hne), rfl, hl⟩
  · obtain ⟨l, hd, hl⟩ := decodePoints_of_fault hs.slot hn hq hnone hfault
    exact ⟨_, exec_rpkt_of_fail h4 hd rfl, rfl, hl⟩
  · exact (Rejects.rpkt (fieldReadInt_of_lt s.buf (by omega))).exec_eq

/-- Settles O39: the two values of rule R59 are the ones that stand for a role. -/
theorem ckrlReportsEveryOtherRole : Obligations.CkrlReportsEveryOtherRole := by
  refine ⟨rfl, fun s => ⟨fun h => ?_, fun h0 h1 => ?_⟩⟩
  · have hne : RoleTag.ofWord s.role ≠ none := fun hnone => by
      obtain ⟨h0, h1⟩ := roleTag_ofWord_eq_none_iff.mp hnone
      exact h.elim h0 h1
    obtain ⟨tag, htag⟩ := Option.ne_none_iff_exists'.mp hne
    exact (Runs.ckrl htag).exec_eq
  · exact (Rejects.ckrl (roleTag_ofWord_eq_none_iff.mpr ⟨h0, h1⟩)).exec_eq

end Sys2Proof.Proofs
end

section
/-!
SUPPORT. The sample rescaler over the rationals: the nearest integer, and the value of a pattern in units of 2^-1074
(rules R120 to R122).
-/

namespace Sys2Proof.Machine

open Sys2Proof.Stated

/-! ### The nearest integer (rule R122) -/

theorem abs_sub_le_of_nearestEven {y : ℚ} {r : ℤ} (h : NearestEven y r) : |y - r| ≤ 1 / 2 :=
  h.elim le_of_lt fun h => h.1.le

theorem even_of_nearestEven {y : ℚ} {r : ℤ} (h : NearestEven y r) (hy : 1 / 2 ≤ |y - r|) : Even r :=
  h.elim (fun h => absurd hy h.not_ge) And.right

/-- Two different integers within a half of `y` are consecutive and each exactly a half away, but then only one of them
is even. -/
theorem nearestEven_unique {y : ℚ} {r r' : ℤ} (h : NearestEven y r) (h' : NearestEven y r') : r' = r := by
  have hle := abs_sub_le_of_nearestEven h
  have hle' := abs_sub_le_of_nearestEven h'
  have htri : |(r : ℚ) - r'| ≤ |y - r| + |y - r'| := abs_sub_comm y r ▸ abs_sub_le (r : ℚ) y r'
  by_contra hne
  have hge : (1 : ℚ) ≤ |(r : ℚ) - r'| := by exact_mod_cast Int.one_le_abs (sub_ne_zero.mpr (Ne.symm hne))
  have hone : |r - r'| ≤ 1 := by
    have : |(r : ℚ) - r'| ≤ 1 := by linarith
    exact_mod_cast this
  obtain ⟨k, hk⟩ := even_of_nearestEven h (by linarith)
  obtain ⟨k', hk'⟩ := even_of_nearestEven h' (by linarith)
  have := abs_le.mp hone
  omega

/-- The remainder `n - d * r` is at most half of `d`, and `r` is even where it is exactly half of `d`. -/
theorem nearestEven_roundTiesEven (n : ℤ) {d : ℕ} (hd : 0 < d) : NearestEven ((n : ℚ) / d) (roundTiesEven n d) := by
  obtain ⟨hle, hge, heven⟩ := roundTiesEven_spec n d hd
  generalize roundTiesEven n d = r at *
  have hd' : (0 : ℚ) < d := Nat.cast_pos.mpr hd
  have hdist : |(n : ℚ) / d - r| = (|n - d * r| : ℤ) / d := by
    rw [Int.cast_abs, ← abs_of_pos hd', ← abs_div, abs_of_pos hd']
    push_cast
    congr 1
    field_simp
  rw [NearestEven, hdist, div_lt_div_iff₀ hd' two_pos, div_eq_div_iff hd'.ne' two_ne_zero]
  norm_cast
  rcases abs_cases (n - d * r) with ⟨habs, -⟩ | ⟨habs, -⟩ <;> rw [habs, Int.even_iff] <;> omega

/-! ### The value of a pattern (rule R121) -/

/-- The double SCIN as one number. -/
theorem State.scin_toNat (s : State) : s.scin.toNat = s.scinHi.toNat * 2 ^ 32 + s.scinLo.toNat := by
  rw [State.scin, BitVec.toNat_append, ← Nat.shiftLeft_add_eq_or_of_lt s.scinLo.isLt, Nat.shiftLeft_eq]

theorem cast_unitsPerOne : (unitsPerOne : ℚ) = 2 ^ (1074 : ℤ) := by
  rw [unitsPerOne_eq, Nat.cast_pow, Nat.cast_ofNat]
  exact (zpow_natCast (2 : ℚ) 1074).symm

theorem normal_eq_units (m : ℕ) {e : ℕ} (he : e ≠ 0) :
    (m : ℚ) * 2 ^ ((e : ℤ) - 1075) = ((m * 2 ^ (e - 1) : ℕ) : ℚ) / unitsPerOne := by
  have hexp : (e : ℤ) - 1075 = ((e - 1 : ℕ) : ℤ) - 1074 := by omega
  rw [cast_unitsPerOne, hexp, zpow_sub₀ two_ne_zero, zpow_natCast, mul_div_assoc', Nat.cast_mul, Nat.cast_pow,
    Nat.cast_ofNat]

/-- Either kind of finite pattern, without the sign, in units. -/
theorem magnitude_eq_units (e m : ℕ) :
    (if e = 0 then (m : ℚ) * 2 ^ (-1074 : ℤ) else ((2 ^ 52 + m : ℕ) : ℚ) * 2 ^ ((e : ℤ) - 1075)) =
      ((if e = 0 then m else (2 ^ 52 + m) * 2 ^ (e - 1) : ℕ) : ℚ) / unitsPerOne := by
  split_ifs with h0
  · rw [cast_unitsPerOne, zpow_neg, div_eq_mul_inv]
  · exact normal_eq_units _ h0

theorem neg_one_pow_sign (d : DWord) : (-1 : ℚ) ^ (d.toNat / 2 ^ 63) = if d.msb then -1 else 1 := by
  have hlt := d.isLt
  simp only [BitVec.msb_eq_decide, decide_eq_true_eq]
  split_ifs with h
  · have hsign : d.toNat / 2 ^ 63 = 1 := by omega
    rw [hsign, pow_one]
  · have hsign : d.toNat / 2 ^ 63 = 0 := by omega
    rw [hsign, pow_zero]

/-- The units of the model stand for the real number of the pattern. -/
theorem realValue_toNat (d : DWord) :
    realValue d.toNat = (real64Units d).map fun u : ℤ => (u : ℚ) / unitsPerOne := by
  have he : (d.extractLsb' 52 11).toNat = d.toNat / 2 ^ 52 % 2 ^ 11 := by
    rw [BitVec.extractLsb'_toNat, Nat.shiftRight_eq_div_pow]
  have hm : (d.extractLsb' 0 52).toNat = d.toNat % 2 ^ 52 := by
    rw [BitVec.extractLsb'_toNat, Nat.shiftRight_zero]
  simp only [realValue, real64Units, he, hm, neg_one_pow_sign, magnitude_eq_units]
  generalize d.toNat / 2 ^ 52 % 2 ^ 11 = e
  generalize (if e = 0 then _ else _ : ℕ) = u
  split_ifs
  · rfl
  · simp [neg_div]
  · simp

end Sys2Proof.Machine
end

section
/-!
PROOFS. The obligation of `44_sample_rescale.md`.
-/

namespace Sys2Proof.Proofs

open Sys2Proof Sys2Proof.Machine Sys2Proof.Stated

/-- Settles O41: the value is a whole number of units, and SCAL rounds 32768 times as many over the units in 1. -/
theorem scalDeliversTheNearestSample : Obligations.ScalDeliversTheNearestSample := by
  refine ⟨rfl, fun s => ?_⟩
  dsimp only
  rw [← s.scin_toNat, realValue_toNat]
  refine ⟨fun hnone => ?_, fun x hx => ?_⟩
  · have hnone : rescale s.scin = none := by rw [rescale, Option.map_eq_none_iff.mp hnone, Option.map_none]
    exact (Rejects.scal (by simp [hnone])).exec_eq
  · obtain ⟨u, hu, rfl⟩ := Option.map_eq_some_iff.mp hx
    have hr : rescale s.scin = some (roundTiesEven (u * 32768) unitsPerOne) := by rw [rescale, hu, Option.map_some]
    have hnear : NearestEven (u / unitsPerOne * 32768) (roundTiesEven (u * 32768) unitsPerOne) := by
      have := nearestEven_roundTiesEven (u * 32768) unitsPerOne_pos
      rwa [Int.cast_mul, mul_div_right_comm] at this
    refine ⟨_, hnear, fun _ => nearestEven_unique hnear, ?_⟩
    split_ifs with hrange
    · exact (Runs.scal hr hrange).exec_eq
    · refine (Rejects.scal fun r' hr' => ?_).exec_eq
      cases hr.symm.trans hr'
      omega

end Sys2Proof.Proofs
end

section
/-!
SUPPORT. The control commands (rules R125, R126 of `45_control.md`): the words R125 tells from NOP, and clearing a
record that is clear.
-/

namespace Sys2Proof.Machine

open Sys2Proof.Stated

/-- NOP's opcode with a bit set in A or in bits 31:16 is illegal on every instance (rules R67, R125). -/
theorem illegalWord_of_nop_bits {c : Params} {w : Word} (h : w = 0x00000100 ∨ w = 0x00010000) : IllegalWord c w := by
  rcases h with rfl | rfl
  · have hoperand : (0x00000100 : Word).toNat % 256 ∈ plainOps ∧ (0x00000100 : Word).toNat / 256 % 256 ≠ 0 := by
      decide
    exact .inr (.inr (.inl hoperand))
  · have hupper : (0x00010000 : Word).toNat / 65536 ≠ 0 := by decide
    exact .inr (.inl hupper)

/-- With no failure recorded EOFS and EIDX are 0 (rule R131), so clearing the record changes nothing. -/
theorem State.Inv.clearFailure_eq_self {s : State} (h : s.Inv) (h0 : s.ecode = 0) : s.clearFailure = s := by
  obtain ⟨hofs, hidx⟩ := h.record.clear h0
  cases s
  cases h0
  cases hofs
  cases hidx
  rfl

end Sys2Proof.Machine
end

section
/-!
PROOFS. The obligations of `45_control.md`.
-/

namespace Sys2Proof.Proofs

open Sys2Proof Sys2Proof.Machine Sys2Proof.Stated

/-- Settles O19: the two other words are illegal, and an illegal word raises IllegalCommand(0, 0). -/
theorem nopChangesNothing : Obligations.NopChangesNothing :=
  ⟨rfl, fun _ => Runs.nop.exec_eq, fun _ _ hw hs => execute_of_illegal hs (illegalWord_of_nop_bits hw)⟩

/-- Settles O20: CLRE passes the gate in every state and leaves the state with its record cleared. -/
theorem clreClearsTheRecordAndNothingElse : Obligations.ClreClearsTheRecordAndNothingElse := by
  refine ⟨rfl, fun s => Runs.clre.exec_eq, fun s => ?_, fun s w hs hw => execute_of_gated hs hw, fun s hs h0 => ?_⟩
  · exact execute_of_decode (decode_encode .clre) (.inr rfl)
  · exact Runs.clre.exec_eq.trans (congrArg _ (hs.clearFailure_eq_self h0))

end Sys2Proof.Proofs
end

section
/-!
SUPPORT. The gate (rule R135 of `60_exceptions.md`) and host accesses to everything but CMD: they neither read ECODE nor
write it, and only a read of STATUS shows it.
-/

namespace Sys2Proof.Machine

/-! ### Host writes -/

/-- No register takes ECODE into account, nor writes it (rules R16, R26). -/
theorem writeReg_of_ecode (s : State) (c : BitVec 4) (r : Reg) (v : Word) :
    { s with ecode := c }.writeReg r v = { s.writeReg r v with ecode := c } := by
  cases r with
  | lim | blen | npt =>
    simp only [State.writeReg]
    split <;> rfl
  | _ => rfl

theorem store_of_ecode (s : State) (c : BitVec 4) (sp : Space) (p ix : Nat) (d : DWord) :
    { s with ecode := c }.store sp p ix d = { s.store sp p ix d with ecode := c } := by
  cases sp with
  | reg =>
    simp only [State.store]
    split
    · exact writeReg_of_ecode s c _ _
    · rfl
  | slotReg =>
    simp only [State.store]
    split <;> rfl
  | _ => rfl

theorem hostWrite_of_ecode {s t : State} {sp : BitVec 3} {p : BitVec 8} {ix : Word} {d : DWord}
    (hcmd : ¬ ReachesCmd sp p ix) (h : hostWrite sp p ix d s = .next t) (c : BitVec 4) :
    hostWrite sp p ix d { s with ecode := c } = .next { t with ecode := c } := by
  by_cases hl : LegalAccess s.params (Space.ofBits sp) p.toNat ix.toNat
  · rw [hostWrite, if_neg hcmd, if_pos hl] at h ⊢
    cases h
    exact congrArg _ (store_of_ecode s c _ _ _ d)
  · rw [hostWrite_of_illegal hl] at h
    cases h
    exact hostWrite_of_illegal (s := { s with ecode := c }) hl d

/-! ### Host reads -/

/-- The map of rule R26 gives each register one index. -/
theorem Reg.eq_index_of_ofIndex {ix : Nat} {r : Reg} (h : Reg.ofIndex ix = some r) : ix = r.index := by
  unfold Reg.ofIndex at h
  split at h <;> cases h <;> rfl

theorem readReg_of_ecode (s : State) (c : BitVec 4) {r : Reg} (hr : r ≠ .status) :
    { s with ecode := c }.readReg r = s.readReg r := by
  cases r with
  | status => exact absurd rfl hr
  | _ => rfl

theorem load_of_ecode (s : State) (c : BitVec 4) {sp : Space} {ix : Nat} (h : ¬ (sp = .reg ∧ ix = Reg.status.index))
    (p : Nat) : { s with ecode := c }.load sp p ix = s.load sp p ix := by
  cases sp with
  | reg =>
    simp only [State.load]
    split
    · next r hr =>
      have hne : r ≠ .status := fun hs => h ⟨rfl, hs ▸ Reg.eq_index_of_ofIndex hr⟩
      rw [readReg_of_ecode s c hne]
    · rfl
  | _ => rfl

theorem hostRead_of_ecode (s : State) (c : BitVec 4) {sp : BitVec 3} {ix : Word}
    (h : ¬ (Space.ofBits sp = .reg ∧ ix.toNat = Reg.status.index)) (p : BitVec 8) :
    hostRead sp p ix { s with ecode := c } = hostRead sp p ix s := by
  rw [hostRead, hostRead, load_of_ecode s c h]

end Sys2Proof.Machine
end

section
/-!
PROOFS. The obligations of `60_exceptions.md`.
-/

namespace Sys2Proof.Proofs

open Sys2Proof Sys2Proof.Machine Sys2Proof.Stated

/-- Settles O11: CLRE's word is the only one the gate lets through, and the accesses of the host that do not reach CMD
or STATUS carry an ECODE along without looking at it. -/
theorem gateIgnoresEveryWordButClre : Obligations.GateIgnoresEveryWordButClre := by
  refine ⟨fun _ _ => execute_of_gated, fun s _ => ?_, fun _ _ _ _ _ _ c hcmd h => hostWrite_of_ecode hcmd h c,
    fun s _ p _ c h => hostRead_of_ecode s c h p⟩
  exact (execute_of_decode (decode_encode .clre) (.inr rfl)).trans Runs.clre.exec_eq

/-- Settles O47: CLRE records no failure, and the record another command leaves is the one it found or one of its own
failures. -/
theorem eachCommandRaisesOnlyItsFailures : Obligations.EachCommandRaisesOnlyItsFailures := by
  intro s t i hs he ht
  by_cases hi : i = .clre
  · subst hi
    cases he
    exact absurd rfl ht
  · rcases (exec_eq_next_iff.mp he).record_cases hi with ⟨hcode, -, -⟩ | hmem
    · exact absurd (hcode.trans hs) ht
    · exact hmem

end Sys2Proof.Proofs
end

section
/-!
SUPPORT. Reset (rules R150, R151 of `70_reset_and_hazards.md`) as an event at the port.
-/

namespace Sys2Proof.Machine

/-- Of the state it finds, a reset looks at the parameters and the pending events only (log entry 2). -/
theorem resetInPlace_withPort (s : State) (rest : List HostEvent) :
    (s.withPort rest).resetInPlace = { State.resetOf s.params with port := rest } := rfl

end Sys2Proof.Machine
end

section
/-!
PROOFS. The obligations of `70_reset_and_hazards.md`.
-/

namespace Sys2Proof.Proofs

open Sys2Proof.Machine

/-- Settles O2: the step takes the reset off the port, and the reset meets the state with the rest still pending. -/
theorem resetEventRestoresTheResetState : Obligations.ResetEventRestoresTheResetState := by
  intro s rest hp
  rw [step_of_event hp, takeEvent, resetInPlace_withPort]

end Sys2Proof.Proofs
end
